-- ==== Sys2Proof/Word.lean ====
section
/-! DEFINITION. The word types of the RRC: everything the spec treats as bits.

Rule R109: the register access layer computes on 8-bit values with bitwise operators only; the
few additions of the block are modulo the width of their operand (`BitVec` addition). -/

namespace Sys2Proof

/-- A RegisterValue: 8 bits, unsigned (R3 `VAL_BITS`, R33). -/
abbrev Byte := BitVec 8

/-- A RegisterAddress: 7 bits, 0x00 to 0x7F (R3 `ADDR_BITS`, R41). -/
abbrev Addr := BitVec 7

/-- An address of the configuration-table space: `TAB_BITS` = 16 bits (R3, R14, R43). -/
abbrev TabAddr := BitVec 16

/-- A bus frame or a table entry written as one 16-bit pattern, the first byte in bits 15..8 (R70, R74). -/
abbrev Half := BitVec 16

/-- A command word: 32 bits (R78). -/
abbrev Word := BitVec 32

end Sys2Proof
end

