-- ==== Sys2Proof/Syntax.lean ====
section
/-! DEFINITION. The instructions of the RRC: commands, bus frames and configuration-table entries (R2),
one constructor per row of the opcode table. -/

namespace Sys2Proof

/-- RadioMode (R16, R146). -/
inductive Mode where
  | sleep
  | standby
  | receiveContinuous
  | transmit
  deriving DecidableEq, Repr

/-- The variant selector (R18); "no variant yet" is `none` of `Option Variant`. -/
inductive Variant where
  | receiver
  | transmitter
  deriving DecidableEq, Repr

/-- One constructor per row of the opcode table. Operand types leave no ill-formed operand: an address has
7 bits, a value 8, a table address or wake count 16, a mode is one of the four. -/
inductive Instr where
  /-- `RD a` (R102). -/
  | rd (a : Addr)
  /-- `WR a, v` (R103). -/
  | wr (a : Addr) (v : Byte)
  /-- `UPD a, k, n` (R104): `k` the keep mask, `n` the new bits. -/
  | upd (a : Addr) (k n : Byte)
  /-- `BRD n` (R105). -/
  | brd (n : Byte)
  /-- `BWR n` (R106). -/
  | bwr (n : Byte)
  /-- `CFG p` (R120). -/
  | cfg (p : TabAddr)
  /-- `RSTP` (R123). -/
  | rstp
  /-- `VERRD` (R124). -/
  | verrd
  /-- `INIT Receiver` (R126). -/
  | initReceiver
  /-- `INIT Transmitter` (R126). -/
  | initTransmitter
  /-- `MODE m` (R140). -/
  | mode (m : Mode)
  /-- `DUMP a` (R125). -/
  | dump (a : Addr)
  /-- `TXWAIT` (R167). -/
  | txwait
  /-- `IDLE` (R181). -/
  | idle
  /-- `PAUSE c` (R183). -/
  | pause (c : BitVec 16)
  /-- `IEN e` (R184). -/
  | ien (e : Bool)
  /-- Bus frame `RDF a` (R72): a read frame; the data byte sent is `DUMMY`. -/
  | rdf (a : Addr)
  /-- Bus frame `WRF a, d` (R73): a write frame. -/
  | wrf (a : Addr) (d : Byte)
  /-- Table entry `ENT a, v` (R74). -/
  | ent (a : Addr) (v : Byte)
  /-- Table entry `END` (R75): the sentinel; its second byte is ignored. -/
  | endTable
  deriving DecidableEq, Repr

end Sys2Proof
end

