-- ==== Sys2Proof/Config.lean ====
section
/-! DEFINITION. The parameters of R3 as one configuration record, the constants the spec fixes, and the one free
value of the model. No rule depends on a default of the record being the listed one: every definition of
the machine reads the record through `s.cfg`. -/

namespace Sys2Proof

/-- A memory as plain data: (address, byte) pairs with strictly rising addresses, no pair holding what an unlisted
address reads as (`Sys2Proof.Machine.Space.blank`). -/
abbrev Memory := List Host.Cell

/-- The three interrupt sources (R200 to R203). -/
inductive Source where
  | pinChange
  | tick
  | console
  deriving DecidableEq, Repr

/-- How the chip behind the bus is modelled: the normative environment (R50), whose answer to every exchange is any
byte, or the deterministic reference target (R51 to R60). -/
inductive Target where
  | anyAnswer
  | reference
  deriving DecidableEq, Repr

/-- `t.dio_sel` (R58): the flag the reference target's pin follows outside ReceiveContinuous and Transmit. -/
inductive DioSel where
  | rxDone
  | txDone
  deriving DecidableEq, Repr

/-- The configuration record of R3 and the OPEN parameters of 92_eei_decisions.md. -/
structure Config where
  /-- `ADDR_BITS` (R3): the width of a RegisterAddress, which is that of `Addr`. -/
  addrBits              : Nat
  /-- `ADDR_MAX` (R3): the highest RegisterAddress. -/
  addrMax               : Nat
  /-- `VAL_BITS` (R3): the width of a RegisterValue, which is that of `Byte`. -/
  valBits               : Nat
  /-- `RW_BIT` (R3): the bit of the address byte that carries the direction. -/
  rwBit                 : Nat
  /-- `MODE_FIELD` (R3): the highest and the lowest bit of the mode code in the mode-control register. -/
  modeFieldBits         : Nat × Nat
  /-- `FIFO_SIZE` (R3): the bytes of the packet buffer. -/
  fifoSize              : Nat
  /-- `TAB_BITS` (R3): the width of a table address, which is that of `TabAddr`. -/
  tabBits               : Nat
  /-- `PAUSE_BITS` (R3): the width of the pause counter. -/
  pauseBits             : Nat
  regFifo               : Addr
  regOpmode             : Addr
  regFrfMsb             : Addr
  regFrfMid             : Addr
  regFrfLsb             : Addr
  regPaConfig           : Addr
  regOcp                : Addr
  regLna                : Addr
  regFifoAddrPtr        : Addr
  regFifoTxBase         : Addr
  regFifoRxBase         : Addr
  regFifoRxCurrent      : Addr
  regIrqFlags           : Addr
  regRxNbBytes          : Addr
  regModemConfig1       : Addr
  regModemConfig2       : Addr
  regPreambleMsb        : Addr
  regPreambleLsb        : Addr
  regModemConfig3       : Addr
  regDetectOptimize     : Addr
  regDetectionThreshold : Addr
  regSyncWord           : Addr
  regDioMapping         : Addr
  regVersion            : Addr
  regPaDac              : Addr
  codeSleep             : BitVec 3
  codeStandby           : BitVec 3
  codeTx                : BitVec 3
  codeRxcont            : BitVec 3
  loraBit               : Fin 8
  rxDoneBit             : Fin 8
  txDoneBit             : Fin 8
  versionExpected       : Byte
  dummy                 : Byte
  opmodeMid             : BitVec 4
  fxosc                 : Nat
  /-- `TAB_RX` (R43). -/
  tabRx                 : TabAddr
  /-- `TAB_TX` (R43). -/
  tabTx                 : TabAddr
  /-- `PAUSE_CYCLES`: the operand of `PAUSE` in the transmitter's duty cycle (R186). -/
  pauseCycles           : BitVec 16
  /-- `BUS_ALIVE` (R65). -/
  busAlive              : Bool
  /-- `PRIO` (R205): the order in which the default policy prefers pending sources. -/
  prio                  : List Source
  /-- `SENTINEL` (R3): the address byte that ends a table, fixed by R75 to `sentinelByte`. -/
  sentinel              : Byte
  /-- `CLEAR_ALL` (R3): the value that clears every flag, 0xFF. -/
  clearAll              : Byte
  /-- `FRF_EXAMPLE` (R3): three frequency bytes, MSB, MID, LSB, of the source's one example. -/
  frfExample            : Byte × Byte × Byte
  /-- `TICK_PERIOD` (R3): the period of the periodic timer, which no rule uses. -/
  tickPeriod            : Nat
  /-- `PC_GROUP` (R3): the number of pins that share the pin-change interrupt. -/
  pcGroup               : Nat
  /-- Which model of the chip answers on the bus (R50, R51). -/
  target                : Target
  /-- `CHIP_VERSION` of the reference target (R57). -/
  chipVersion           : Byte
  /-- `t.dio_sel` of the reference target (R58). -/
  dioSel                : DioSel
  /-- `RESET_IMAGE` (R39): the chip registers after a reset pulse. -/
  resetImage            : Memory
  deriving DecidableEq, Repr

/-- The address byte of the sentinel in the encoding of an entry (R74, R75). -/
def sentinelByte : Byte := 0xFF

namespace Config

/-- The defaults of R3. OPEN parameters without a default take the values of log entry 4. -/
def defaults : Config where
  addrBits              := 7
  addrMax               := 0x7F
  valBits               := 8
  rwBit                 := 7
  modeFieldBits         := (2, 0)
  fifoSize              := 256
  tabBits               := 16
  pauseBits             := 16
  regFifo               := 0x00
  regOpmode             := 0x01
  regFrfMsb             := 0x06
  regFrfMid             := 0x07
  regFrfLsb             := 0x08
  regPaConfig           := 0x09
  regOcp                := 0x0B
  regLna                := 0x0C
  regFifoAddrPtr        := 0x0D
  regFifoTxBase         := 0x0E
  regFifoRxBase         := 0x0F
  regFifoRxCurrent      := 0x10
  regIrqFlags           := 0x12
  regRxNbBytes          := 0x13
  regModemConfig1       := 0x1D
  regModemConfig2       := 0x1E
  regPreambleMsb        := 0x20
  regPreambleLsb        := 0x21
  regModemConfig3       := 0x26
  regDetectOptimize     := 0x31
  regDetectionThreshold := 0x37
  regSyncWord           := 0x39
  regDioMapping         := 0x40
  regVersion            := 0x42
  regPaDac              := 0x4D
  codeSleep             := 0
  codeStandby           := 1
  codeTx                := 3
  codeRxcont            := 5
  loraBit               := 7
  rxDoneBit             := 6
  txDoneBit             := 3
  versionExpected       := 0x12
  dummy                 := 0x00
  opmodeMid             := 0
  fxosc                 := 32000000
  tabRx                 := 0x0000
  tabTx                 := 0x0040
  pauseCycles           := 0
  busAlive              := true
  prio                  := []
  sentinel              := 0xFF
  clearAll              := 0xFF
  frfExample            := (0x6C, 0xB3, 0x34)
  tickPeriod            := 1
  pcGroup               := 1
  target                := .anyAnswer
  chipVersion           := 0x12
  dioSel                := .rxDone
  resetImage            := []

/-- `FRF_EXAMPLE` as the 24-bit quantity of R49. -/
def frfOfExample (c : Config) : BitVec 24 := c.frfExample.1 ++ c.frfExample.2.1 ++ c.frfExample.2.2

/-- FREE VALUE (log entry 2): the bytes the chip supplies where the spec fixes none and the state lists none: what the
any-answer chip returns in an exchange (R50 (b): any byte), and what the reference target's packet buffer holds after the
reset pulse (R60: unspecified). It has no body, so nothing can be proved of it. -/
opaque freeChipByte : Nat → BitVec 8

end Config

end Sys2Proof
end

