-- ==== Sys2Proof/Decode.lean ====
section
/-! DEFINITION. The three encodings of 30_encoding.md: command words (R78), bus frames (R70) and table entries (R74).
Decoding is total on the words of each format and rejects by name; the encoder is written from the same tables. -/

namespace Sys2Proof

/-- Why a word is no instruction. -/
inductive DecodeError where
  /-- `op = 0x0` (R80). -/
  | reservedOp
  /-- `z1 != 0` (R80). -/
  | nonzeroZ1
  /-- `z2 != 0` (R80). -/
  | nonzeroZ2
  /-- A field the command does not use is not 0 (R80). -/
  | unusedField
  /-- `INIT` with `v` = 0 or 3 (R80). -/
  | badVariant
  /-- A table entry whose address byte is in 0x80 to 0xFE (R76). -/
  | illegalEntry
  deriving DecidableEq, Repr

/-- An encoded instruction: the word in the format of its row. -/
inductive Encoded where
  /-- CMD32 (R78). -/
  | cmd (w : Word)
  /-- FRAME16 (R70). -/
  | frame (w : Half)
  /-- ENTRY16 (R74). -/
  | entry (w : Half)
  deriving DecidableEq, Repr

/-! ### The fields of a command word (R78) -/

/-- `op`, bits [31:28]. -/
def Word.op (w : Word) : BitVec 4 := w.extractLsb' 28 4
/-- `z1`, bits [27:24]. -/
def Word.z1 (w : Word) : BitVec 4 := w.extractLsb' 24 4
/-- `z2`, bit [23]. -/
def Word.z2 (w : Word) : BitVec 1 := w.extractLsb' 23 1
/-- `A`, bits [22:16]. -/
def Word.fieldA (w : Word) : Addr := w.extractLsb' 16 7
/-- `B`, bits [15:8]. -/
def Word.fieldB (w : Word) : Byte := w.extractLsb' 8 8
/-- `C`, bits [7:0]. -/
def Word.fieldC (w : Word) : Byte := w.extractLsb' 0 8
/-- `W = B ++ C`, bits [15:0]. -/
def Word.fieldW (w : Word) : BitVec 16 := w.extractLsb' 0 16

/-- The 2-bit numbers of the modes (R21, R78): the RRC's own numbering. -/
def Mode.number : Mode → BitVec 2
  | .sleep => 0
  | .standby => 1
  | .receiveContinuous => 2
  | .transmit => 3

/-- The mode of a 2-bit number. -/
def Mode.ofNumber (n : BitVec 2) : Mode :=
  if n = 0 then .sleep else if n = 1 then .standby else if n = 2 then .receiveContinuous else .transmit

/-- Answer `i` when every field the command does not use is 0 (R80). -/
def requireZero (unusedZero : Bool) (i : Instr) : Except DecodeError Instr :=
  if unusedZero then .ok i else .error .unusedField

/-- `INIT v` (R78): `C[1:0]` is the variant, the rest of the operand fields 0. -/
def decodeInit (w : Word) : Except DecodeError Instr :=
  if w.fieldA = 0 ∧ w.fieldB = 0 ∧ w.fieldC.extractLsb' 2 6 = 0 then
    if w.fieldC.extractLsb' 0 2 = 1 then .ok .initReceiver
    else if w.fieldC.extractLsb' 0 2 = 2 then .ok .initTransmitter
    else .error .badVariant
  else .error .unusedField

/-- The command of a word whose `z1` and `z2` are 0, by its operation (table of R78). -/
def decodeOp (w : Word) : Except DecodeError Instr :=
  match w.op.toNat with
  | 0x1 => requireZero (w.fieldB = 0 ∧ w.fieldC = 0) (.rd w.fieldA)
  | 0x2 => requireZero (w.fieldC = 0) (.wr w.fieldA w.fieldB)
  | 0x3 => .ok (.upd w.fieldA w.fieldB w.fieldC)
  | 0x4 => requireZero (w.fieldA = 0 ∧ w.fieldB = 0) (.brd w.fieldC)
  | 0x5 => requireZero (w.fieldA = 0 ∧ w.fieldB = 0) (.bwr w.fieldC)
  | 0x6 => requireZero (w.fieldA = 0) (.cfg w.fieldW)
  | 0x7 => requireZero (w.fieldA = 0 ∧ w.fieldW = 0) .rstp
  | 0x8 => requireZero (w.fieldA = 0 ∧ w.fieldW = 0) .verrd
  | 0x9 => decodeInit w
  | 0xA =>
    requireZero (w.fieldA = 0 ∧ w.fieldB = 0 ∧ w.fieldC.extractLsb' 2 6 = 0)
      (.mode (Mode.ofNumber (w.fieldC.extractLsb' 0 2)))
  | 0xB => requireZero (w.fieldW = 0) (.dump w.fieldA)
  | 0xC => requireZero (w.fieldA = 0 ∧ w.fieldW = 0) .txwait
  | 0xD => requireZero (w.fieldA = 0 ∧ w.fieldW = 0) .idle
  | 0xE => requireZero (w.fieldA = 0) (.pause w.fieldW)
  | 0xF =>
    requireZero (w.fieldA = 0 ∧ w.fieldB = 0 ∧ w.fieldC.extractLsb' 1 7 = 0) (.ien (w.fieldC.getLsbD 0))
  | _ => .error .reservedOp

/-- Decode a command word (R78, R80). -/
def decodeCmd (w : Word) : Except DecodeError Instr :=
  if w.op = 0 then .error .reservedOp
  else if w.z1 ≠ 0 then .error .nonzeroZ1
  else if w.z2 ≠ 0 then .error .nonzeroZ2
  else decodeOp w

/-- Decode a bus frame as the target side does (R71, R72, R73): every pattern is a frame. The low byte of a read
frame is ignored. -/
def decodeFrame (w : Half) : Instr :=
  if w.getLsbD 15 then .wrf (w.extractLsb' 8 7) (w.extractLsb' 0 8) else .rdf (w.extractLsb' 8 7)

/-- Decode a table entry (R74, R75, R76). The second byte of the sentinel is ignored. -/
def decodeEntry (w : Half) : Except DecodeError Instr :=
  if w.extractLsb' 8 8 = sentinelByte then .ok .endTable
  else if w.getLsbD 15 then .error .illegalEntry
  else .ok (.ent (w.extractLsb' 8 7) (w.extractLsb' 0 8))

/-- The decoder, by format. -/
def decode : Encoded → Except DecodeError Instr
  | .cmd w => decodeCmd w
  | .frame w => .ok (decodeFrame w)
  | .entry w => decodeEntry w

/-! ### The encoder -/

/-- Assemble a command word: `op`, five zero bits `z1 z2`, `A`, `B`, `C` (R78). -/
def cmdWord (op : BitVec 4) (a : Addr) (b c : Byte) : Word := op ++ (0 : BitVec 5) ++ a ++ b ++ c

/-- Assemble a command word with the 16-bit operand `W` (R78). -/
def cmdWordW (op : BitVec 4) (w : BitVec 16) : Word := op ++ (0 : BitVec 5) ++ (0 : Addr) ++ w

/-- Assemble the address byte of a frame: `rw ++ a` (R71). -/
def addrByte (rw : Bool) (a : Addr) : Byte := BitVec.ofBool rw ++ a

/-- A bus frame as one pattern, the address byte first (R70). -/
def frameWord (rw : Bool) (a : Addr) (d : Byte) : Half := addrByte rw a ++ d

/-- A table entry as one pattern, the address byte first (R74). -/
def entryWord (ab v : Byte) : Half := ab ++ v

/-- The words of an instruction. A read frame carries the default `DUMMY` in its data byte (R72); the second byte of the
sentinel, which nothing reads, is 0x00 (R75). -/
def encode : Instr → Encoded
  | .rd a => .cmd (cmdWord 0x1 a 0 0)
  | .wr a v => .cmd (cmdWord 0x2 a v 0)
  | .upd a k n => .cmd (cmdWord 0x3 a k n)
  | .brd n => .cmd (cmdWord 0x4 0 0 n)
  | .bwr n => .cmd (cmdWord 0x5 0 0 n)
  | .cfg p => .cmd (cmdWordW 0x6 p)
  | .rstp => .cmd (cmdWord 0x7 0 0 0)
  | .verrd => .cmd (cmdWord 0x8 0 0 0)
  | .initReceiver => .cmd (cmdWord 0x9 0 0 1)
  | .initTransmitter => .cmd (cmdWord 0x9 0 0 2)
  | .mode m => .cmd (cmdWord 0xA 0 0 ((0 : BitVec 6) ++ m.number))
  | .dump a => .cmd (cmdWord 0xB a 0 0)
  | .txwait => .cmd (cmdWord 0xC 0 0 0)
  | .idle => .cmd (cmdWord 0xD 0 0 0)
  | .pause c => .cmd (cmdWordW 0xE c)
  | .ien e => .cmd (cmdWord 0xF 0 0 ((0 : BitVec 7) ++ BitVec.ofBool e))
  | .rdf a => .frame (frameWord false a Config.defaults.dummy)
  | .wrf a d => .frame (frameWord true a d)
  | .ent a v => .entry (entryWord (addrByte false a) v)
  | .endTable => .entry (entryWord sentinelByte 0x00)

/-! ### The match and mask table (R84) -/

/-- A row of the table of R84 for a command word. -/
structure CmdRow where
  mnemonic : String
  pattern  : Word
  mask     : Word
  deriving DecidableEq, Repr

/-- `word & mask = match` (R84). -/
def CmdRow.fits (r : CmdRow) (w : Word) : Bool := w &&& r.mask == r.pattern

/-- The sixteen CMD32 rows of R84. -/
def cmdRows : List CmdRow :=
  [⟨"RD", 0x10000000, 0xFF80FFFF⟩, ⟨"WR", 0x20000000, 0xFF8000FF⟩, ⟨"UPD", 0x30000000, 0xFF800000⟩,
   ⟨"BRD", 0x40000000, 0xFFFFFF00⟩, ⟨"BWR", 0x50000000, 0xFFFFFF00⟩, ⟨"CFG", 0x60000000, 0xFFFF0000⟩,
   ⟨"RSTP", 0x70000000, 0xFFFFFFFF⟩, ⟨"VERRD", 0x80000000, 0xFFFFFFFF⟩] ++
  [⟨"INIT_Receiver", 0x90000001, 0xFFFFFFFF⟩, ⟨"INIT_Transmitter", 0x90000002, 0xFFFFFFFF⟩,
   ⟨"MODE", 0xA0000000, 0xFFFFFFFC⟩, ⟨"DUMP", 0xB0000000, 0xFF80FFFF⟩, ⟨"TXWAIT", 0xC0000000, 0xFFFFFFFF⟩,
   ⟨"IDLE", 0xD0000000, 0xFFFFFFFF⟩, ⟨"PAUSE", 0xE0000000, 0xFFFF0000⟩, ⟨"IEN", 0xF0000000, 0xFFFFFFFE⟩]

/-- The mnemonic of an instruction, as the opcode table has it. -/
def Instr.mnemonic : Instr → String
  | .rd _ => "RD"
  | .wr _ _ => "WR"
  | .upd _ _ _ => "UPD"
  | .brd _ => "BRD"
  | .bwr _ => "BWR"
  | .cfg _ => "CFG"
  | .rstp => "RSTP"
  | .verrd => "VERRD"
  | .initReceiver => "INIT_Receiver"
  | .initTransmitter => "INIT_Transmitter"
  | .mode _ => "MODE"
  | .dump _ => "DUMP"
  | .txwait => "TXWAIT"
  | .idle => "IDLE"
  | .pause _ => "PAUSE"
  | .ien _ => "IEN"
  | .rdf _ => "RDF"
  | .wrf _ _ => "WRF"
  | .ent _ _ => "ENT"
  | .endTable => "END"

/-! ### The host's view: words numbered as the opcode table numbers them -/

/-- Decode a 16-bit word whose format is not given: a legal table entry is one; any other pattern is a bus frame (log
entry 5: the table's FRAME16 and ENTRY16 rows overlap, and only the place of a word tells them apart). -/
def decodeHalf (w : Half) : Instr :=
  match decodeEntry w with
  | .ok i => i
  | .error _ => decodeFrame w

/-- The instruction the decoder reads from an instruction whose bits are `w`. -/
def decodeTableWord (nbits w : Nat) : Option Instr :=
  if nbits = 32 then (decodeCmd (BitVec.ofNat 32 w)).toOption
  else if nbits = 16 then some (decodeHalf (BitVec.ofNat 16 w))
  else none

end Sys2Proof
end

