-- ==== Sys2Proof/Machine/State.lean ====
section
/-! DEFINITION. The state of the machine: Part A of 10_state.md (the RRC), Part B (the chip, as the reference target
holds it), and the model's own fields (the inputs still to come from outside the block). Plain data throughout. -/

namespace Sys2Proof.Machine

/-- `s.phase` (R24) and `t.phase` (R51): which byte of the frame the next exchange carries. -/
inductive Phase where
  | addr
  | data
  deriving DecidableEq, Repr

/-- The levels of the pins of the pin-change group (R25, R160): pin 0 is `dio`, `others` are pins 1, 2, …
`PC_GROUP` is `1 + others.length`. -/
structure Pins where
  dio    : Bool
  others : List Bool
  deriving DecidableEq, Repr

/-- The stored bits of `s.status` (R20). `busy` (bit 0) and `asleep` (bit 7) are derived from `s.fg`. -/
structure Status where
  conReady    : Bool
  verMismatch : Bool
  errIllegal  : Bool
  errTable    : Bool
  errMode     : Bool
  errSeq      : Bool
  deriving DecidableEq, Repr

/-- The status lines of `TXWAIT` (R31). -/
inductive TxStatus where
  | txStart
  | txDone
  deriving DecidableEq, Repr

/-- Sink events (R31). -/
inductive SinkEvent where
  | byte (b : Byte)
  | lineEnd
  | regDump (a : Addr) (v : Byte)
  | status (t : TxStatus)
  deriving DecidableEq, Repr

/-- Entries of `s.bus_log` (R32): a completed frame (`rw` true for a write) or a chip reset pulse. -/
inductive BusEvent where
  | frame (rw : Bool) (a : Addr) (d : Byte)
  | chipReset
  deriving DecidableEq, Repr

/-- The micro-operations from which every command and the receive service are composed. A list of them is the rest of
the pseudocode of a context, that is the `k` of R15 and R28; the arguments are the context's locals (R13).
The boundary between two of them, while chip-select is inactive, is a preemption point (R206). -/
inductive MicroOp where
  /-- Open the frame `RDF a` (R102). -/
  | readFrame (a : Addr)
  /-- Open the frame `WRF a, d` (R103). -/
  | writeFrame (a : Addr) (d : Byte)
  /-- Hold until the address exchange completes, then start the data exchange (R100). -/
  | addrPhase (rw : Bool) (a : Addr) (d : Byte)
  /-- Hold until the data exchange completes, then close the frame (R100, R107). -/
  | dataPhase (rw : Bool) (a : Addr) (d : Byte)
  /-- Append the byte read to the result port (R102, R105). -/
  | toRes
  /-- Emit the byte read as a packet byte (R165). -/
  | toSink
  /-- The write-back of `UPD` (R104). -/
  | updWrite (a : Addr) (k n : Byte)
  /-- The loop of `BRD` with `n` frames to go (R105). -/
  | burstRead (n : Nat) (deliverToSink : Bool)
  /-- The loop of `BWR` with `n` frames to go; holds while the data port is empty (R106). -/
  | burstWrite (n : Nat)
  /-- `s.tp <- p` (R120). -/
  | setTp (p : TabAddr)
  /-- The loop of the table walker (R120). -/
  | walk
  /-- `s.tp <- s.tp + 2` (R120). -/
  | tpAdvance
  /-- The chip reset pulse (R123). -/
  | chipReset
  /-- The comparison of `VERRD` (R124). -/
  | verCheck
  /-- `emit RegDump(a, v)` of `DUMP a` and `VERRD` (R125, R124). -/
  | dumpOut (a : Addr)
  /-- `s.variant <- v` (R126). -/
  | setVariant (v : Variant)
  /-- The write of `MODE m` (R140). -/
  | modeWrite (m : Mode)
  /-- `emit e` (R31). -/
  | emit (e : SinkEvent)
  /-- `SLEEP()` (R180). -/
  | sleep
  /-- The level test of `confirmed(TXDONE_BIT)` in `TXWAIT` (R163, R167). -/
  | txCheck
  /-- The flag test of `confirmed(TXDONE_BIT)` in `TXWAIT` (R163, R167). -/
  | txConfirm
  /-- `s.pause_cnt <- c` (R183). -/
  | setPause (c : BitVec 16)
  /-- The loop of `PAUSE` (R183). -/
  | pauseLoop
  /-- `s.pause_cnt <- s.pause_cnt - 1` (R183). -/
  | pauseDec
  /-- `s.ien <- e` (R184). -/
  | setIen (e : Bool)
  /-- The body of the pin-change handler (R164). -/
  | pcBody
  /-- The level test of `confirmed(RXDONE_BIT)` in the receive service (R163, R165). -/
  | rxCheck
  /-- The flag test of `confirmed(RXDONE_BIT)` in the receive service (R163, R165). -/
  | rxConfirm
  /-- `a <- ` the byte read from `REG_FIFO_RX_CURRENT` (R165). -/
  | rxAddr
  /-- `n <- ` the byte read from `REG_RX_NB_BYTES`, with the local `a` (R165). -/
  | rxLen (a : Byte)
  deriving DecidableEq, Repr

/-- `s.fg`, the foreground's control state (R15). The command of `run` and `asleep` is the one in progress, the list the
rest of its micro-operations. -/
inductive Fg where
  | ready
  | run (c : Instr) (k : List MicroOp)
  | asleep (c : Instr) (k : List MicroOp)
  deriving DecidableEq, Repr

/-- `s.in_handler` (R28). -/
inductive Handler where
  | noHandler
  | inPc (k : List MicroOp)
  | inTick
  | inCon
  deriving DecidableEq, Repr

/-- What the host does at its ports (R220). -/
inductive HostOp where
  /-- Present a command word; possible only while `busy = 0` (R79). -/
  | present (w : Word)
  /-- Remove a byte from the front of the result port (R11). -/
  | takeRes
  /-- Append a byte to the data port (R12). -/
  | putDat (b : Byte)
  /-- Read `s.status`, which clears `con_ready` (R20). -/
  | readStatus
  /-- Read `s.err_info` (R220). -/
  | readErrInfo
  /-- Read `s.mode` (R220). -/
  | readMode
  /-- Pulse the RRC's own reset (R231). -/
  | reset
  deriving DecidableEq, Repr

/-- What the host got from its reads, in order; the model's own record. -/
inductive HostSeen where
  | res (b : Option Byte)
  | status (v : Byte)
  | errInfo (v : BitVec 16)
  | mode (m : Mode)
  deriving DecidableEq, Repr

/-- One move of an agent (R5). A list of moves is a schedule of everything asynchronous; a move whose agent cannot take it
in the present state changes nothing. -/
inductive Move where
  /-- The running context of the RRC (the handler if one runs, else the foreground) takes its next step. -/
  | run
  /-- The transport completes the exchange in flight (R101). -/
  | exchange
  /-- The edge detector steps (R160). -/
  | detect
  /-- The handler of a source is entered (R206, R207). -/
  | enter (src : Source)
  /-- Pin `i` of the group takes level `b` (R50 (c)); pin 0 is `dio`, which the reference target drives itself. -/
  | pin (i : Nat) (b : Bool)
  /-- The periodic timer ticks (R202). -/
  | tick
  /-- A byte arrived on the console (R203). -/
  | con
  /-- `RxDoneEvent(payload)` of the reference target (R59). -/
  | rxDone (payload : List Byte)
  /-- `TxDoneEvent` of the reference target (R59). -/
  | txDone
  /-- The host acts (R220). -/
  | host (op : HostOp)
  /-- Not an agent's move: nothing further comes from outside until the default policy has nothing left to do. -/
  | settle
  deriving DecidableEq, Repr

/-- The chip as the reference target holds it (R51 to R60, Part B of 10_state.md). Its pin is `s.pins.dio`. -/
structure Chip where
  /-- `x[0x00 .. 0x7F]` (R33). -/
  regs    : Memory
  /-- `fifo[0 .. 255]` (R36). -/
  fifo    : Memory
  /-- `t.phase` (R51). -/
  phase   : Phase
  /-- `t.rw`, `t.a` (R51); `none` when the target has forgotten them. -/
  latched : Option (Bool × Addr)
  /-- Where the next packet goes, once one was received since receive mode was entered (R59). -/
  rxNext  : Option Byte
  deriving DecidableEq, Repr

/-- The state. Fields of Part A carry the spec's names; each has one home. -/
structure State where
  /-- The configuration record (R3); no step changes it. -/
  cfg        : Config
  /-- `TAB` (R43); no step changes it. -/
  tab        : Memory
  /-- `s.sdr` (R10). -/
  sdr        : Byte
  /-- The command port (R78, R79): the word the host presents, until it is accepted. -/
  cmdPort    : Option Word
  /-- `s.res` (R11), front first. -/
  res        : List Byte
  /-- `s.dat` (R12), front first. -/
  dat        : List Byte
  /-- The local of the foreground that holds the byte its last read frame returned (R13). -/
  fgVal      : Byte
  /-- The same local of the handler (R13). -/
  hVal       : Byte
  /-- `s.tp` (R14). -/
  tp         : TabAddr
  /-- `s.fg` (R15). -/
  fg         : Fg
  /-- `s.mode` (R16). -/
  mode       : Mode
  /-- `s.lora` (R17). -/
  lora       : Bool
  /-- `s.variant` (R18). -/
  variant    : Option Variant
  /-- `s.irq` (R19). -/
  irq        : Byte
  /-- The stored bits of `s.status` (R20). -/
  st         : Status
  /-- `s.err_info` (R21). -/
  errInfo    : BitVec 16
  /-- `s.cs` (R22). -/
  cs         : Bool
  /-- `s.xfer_done` (R23). -/
  xferDone   : Bool
  /-- `s.xfer_busy` (R23). -/
  xferBusy   : Bool
  /-- `s.phase` (R24). -/
  phase      : Phase
  /-- `s.pin_latch` (R25). -/
  pinLatch   : Pins
  /-- `s.pc_pending` (R25). -/
  pcPending  : Bool
  /-- `s.tick_pending` (R26). -/
  tickPending : Bool
  /-- `s.con_pending` (R26). -/
  conPending : Bool
  /-- `s.ien` (R27). -/
  ien        : Bool
  /-- `saved_ien` of the running handler (R207). -/
  savedIen   : Bool
  /-- `s.in_handler` (R28). -/
  inHandler  : Handler
  /-- `s.woken` (R29). -/
  woken      : Bool
  /-- `s.pause_cnt` (R30). -/
  pauseCnt   : BitVec 16
  /-- `s.sink` (R31), oldest first. -/
  sink       : List SinkEvent
  /-- `s.bus_log` (R32), oldest first. -/
  busLog     : List BusEvent
  /-- The chip (Part B) as the reference target holds it. -/
  chip       : Chip
  /-- The levels of the pins of the group at this moment: an input (R37, R222). -/
  pins       : Pins
  /-- The model's own: the bytes the any-answer chip returns in the next exchanges (R50 (b)). -/
  answers    : List Byte
  /-- The model's own: how many free bytes have been taken after `answers` ran out. -/
  freeIdx    : Nat
  /-- The model's own: the schedule of moves still to come. When it is empty the default policy moves the agents. -/
  env        : List Move
  /-- The model's own: what the host has read. -/
  hostSeen   : List HostSeen
  deriving DecidableEq, Repr

/-- The RRC has no fault that stops it: its four fault bits are sticky bits of `s.status` after which it goes on (R215),
and a hang is a state in which nothing moves (R217). So no reason is listed here. -/
inductive Fault where
  deriving DecidableEq, Repr

/-- Why the model refuses. -/
inductive Refusal where
  /-- An arm of `exec` that has no meaning yet. Safe: nothing follows from it. -/
  | notModelled (mnemonic : String)
  /-- Raised by `step` when the configuration record breaks a condition of R4 ("a configuration that breaks one is
  refused by the model") or R39, a value R3 fixes (SENTINEL, CLEAR_ALL, the widths, PC_GROUP at least 1), or log entry 7. Safe: nothing is claimed of such a machine. -/
  | badConfig
  deriving DecidableEq, Repr

/-- All pins low and `PC_GROUP` = 1: the pin levels at the reset the model starts from (log entry 3). -/
def Pins.low : Pins := { dio := false, others := [] }

/-- No status bit set (R38). -/
def Status.clear : Status :=
  { conReady := false, verMismatch := false, errIllegal := false, errTable := false, errMode := false, errSeq := false }

/-- The machine right after reset (R38, R230), with the default configuration record, an empty table space, and no move
scheduled. Values the spec does not give are those of log entries 1, 3 and 4. -/
def State.reset : State where
  cfg         := Config.defaults
  tab         := []
  sdr         := 0x00
  cmdPort     := none
  res         := []
  dat         := []
  fgVal       := 0x00
  hVal        := 0x00
  tp          := 0x0000
  fg          := .ready
  mode        := .sleep
  lora        := false
  variant     := none
  irq         := 0x00
  st          := Status.clear
  errInfo     := 0x0000
  cs          := false
  xferDone    := false
  xferBusy    := false
  phase       := .addr
  pinLatch    := Pins.low
  pcPending   := false
  tickPending := false
  conPending  := false
  ien         := false
  savedIen    := false
  inHandler   := .noHandler
  woken       := false
  pauseCnt    := 0x0000
  sink        := []
  busLog      := []
  chip        := { regs := [], fifo := [], phase := .addr, latched := none, rxNext := none }
  pins        := Pins.low
  answers     := []
  freeIdx     := 0
  env         := []
  hostSeen    := []

end Sys2Proof.Machine
end

