-- ==== Sys2Proof/Machine/Mem.lean ====
section
/-! DEFINITION. Memory as plain data: reading and writing one byte of a space (R43, R45: every access is one byte),
and the canonical form. -/

namespace Sys2Proof.Machine

/-- The byte-addressed spaces held as data: the table space (R43), the chip's register file (R33) and its packet
buffer (R36). -/
inductive Space where
  | tab
  | regs
  | fifo
  deriving DecidableEq, Repr

/-- How many addresses a space has (R33, R36, R43). -/
def Space.size : Space → Nat
  | .tab => 65536
  | .regs => 128
  | .fifo => 256

/-- What an unlisted address reads as (log entry 6). -/
def Space.blank : Space → Byte
  | .tab => 0xFF
  | .regs => 0x00
  | .fifo => 0x00

/-- Read one byte. -/
def Memory.read (sp : Space) : Memory → Nat → Byte
  | [], _ => sp.blank
  | (k, v) :: m, a => if k = a then v else Memory.read sp m a

/-- A memory cell in front of a memory, left out when it holds what an unlisted address reads as. -/
def Memory.cell (sp : Space) (a : Nat) (v : Byte) (m : Memory) : Memory :=
  if v = sp.blank then m else (a, v) :: m

/-- Write one byte, keeping the canonical form. -/
def Memory.write (sp : Space) : Memory → Nat → Byte → Memory
  | [], a, v => Memory.cell sp a v []
  | (k, w) :: m, a, v =>
    if a < k then Memory.cell sp a v ((k, w) :: m)
    else if a = k then Memory.cell sp a v m
    else (k, w) :: Memory.write sp m a v

/-- The addresses of a memory rise strictly from `lo` on and stay below the size of the space, and no pair holds what an
unlisted address reads as. -/
def Memory.wfFrom (sp : Space) : Nat → Memory → Bool
  | _, [] => true
  | lo, (k, v) :: m => decide (lo ≤ k) && decide (k < sp.size) && decide (v ≠ sp.blank) && Memory.wfFrom sp (k + 1) m

/-- The canonical form. -/
def Memory.wf (sp : Space) (m : Memory) : Bool := Memory.wfFrom sp 0 m

/-- Write the bytes of a list at consecutive positions of the packet buffer, modulo 256 (R42, R59). -/
def Memory.writeFifo (m : Memory) (p : Byte) : List Byte → Memory
  | [] => m
  | b :: bs => Memory.writeFifo (Memory.write .fifo m p.toNat b) (p + 1) bs

/-- `MemRead(TAB, p, 1)` (R43). -/
def Memory.tabByte (tab : Memory) (p : TabAddr) : Byte := Memory.read .tab tab p.toNat

/-- The entry at table address `p` as one pattern: the address byte at `p`, the value byte at `p + 1`, addresses modulo
2^16 (R43, R44 (b), R74). -/
def Memory.tabEntry (tab : Memory) (p : TabAddr) : Half :=
  Memory.tabByte tab p ++ Memory.tabByte tab (p + 1)

/-- The table space with the two bytes of an entry placed at `p` (the load of a table from outside the machine). -/
def Memory.placeEntry (tab : Memory) (p : TabAddr) (w : Half) : Memory :=
  Memory.write .tab (Memory.write .tab tab p.toNat (w.extractLsb' 8 8)) (p + 1).toNat (w.extractLsb' 0 8)

/-- The table space with the bytes of a list placed from `p` on. -/
def Memory.placeBytes (tab : Memory) (p : TabAddr) : List Byte → Memory
  | [] => tab
  | b :: bs => Memory.placeBytes (Memory.write .tab tab p.toNat b) (p + 1) bs

end Sys2Proof.Machine
end

