-- ==== Sys2Proof/Machine/Operands.lean ====
section
/-! DEFINITION. The values the RRC encodes, decodes and computes (R77, R109): mode codes, the byte `MODE` writes, the
write-back of `UPD`, the transition graph, and what the tracker makes of a byte written to the mode-control register. -/

namespace Sys2Proof.Machine

/-- Bit `i` of a byte. -/
def bit (v : Byte) (i : Fin 8) : Bool := v.getLsbD i.val

/-- A byte with bit `i` replaced by `b`. -/
def withBit (v : Byte) (i : Fin 8) (b : Bool) : Byte :=
  (v &&& ~~~((1 : Byte) <<< i.val)) ||| (BitVec.setWidth 8 (BitVec.ofBool b) <<< i.val)

/-- `MODE_FIELD` (R3): bits [2:0] of the mode-control register. -/
def modeField (v : Byte) : BitVec 3 := v.extractLsb' 0 3

/-- `code(m)` (R77). -/
def codeOf (c : Config) : Mode → BitVec 3
  | .sleep => c.codeSleep
  | .standby => c.codeStandby
  | .receiveContinuous => c.codeRxcont
  | .transmit => c.codeTx

/-- `decode`, the inverse of `code`, undefined on the other 3-bit values (R77). -/
def modeOf (c : Config) (x : BitVec 3) : Option Mode :=
  if x = c.codeSleep then some .sleep
  else if x = c.codeStandby then some .standby
  else if x = c.codeTx then some .transmit
  else if x = c.codeRxcont then some .receiveContinuous
  else none

/-- The bits of `OPMODE_MID` in their places: the four bits of the mode-control register above the mode field other than
`LORA_BIT`, in rising order (R140 with `LORA_BIT` = 7; other positions by R53's "exchange the roles of the bits",
log entry 7). -/
def midBits (c : Config) : Byte :=
  let low : Byte := BitVec.setWidth 8 c.opmodeMid &&& (((1 : Byte) <<< (c.loraBit.val - 3)) - 1)
  let high : Byte := BitVec.setWidth 8 c.opmodeMid >>> (c.loraBit.val - 3)
  (low <<< 3) ||| (high <<< (c.loraBit.val + 1))

/-- The byte `MODE m` writes: `s.lora ++ OPMODE_MID ++ code(m)` (R140). -/
def opmodeByte (c : Config) (lora : Bool) (m : Mode) : Byte :=
  withBit (midBits c ||| BitVec.setWidth 8 (codeOf c m)) c.loraBit lora

/-- `(old & k) | n` (R104). -/
def updValue (old k n : Byte) : Byte := (old &&& k) ||| n

/-- `EDGES` (R146). -/
def inEdges : Mode → Mode → Bool
  | .sleep, .standby => true
  | .standby, .receiveContinuous => true
  | .standby, .transmit => true
  | .transmit, .sleep => true
  | m, m' => decide (m = m')

/-- Where the modulation bit is accepted (R143, R54). -/
def acceptsLora : Mode → Bool
  | .sleep => true
  | .standby => true
  | .receiveContinuous => false
  | .transmit => false

/-- What the tracker decides of one write to the mode-control register (R141): the new mode and modulation bit, and
which faults it flags. -/
structure Tracked where
  mode      : Mode
  lora      : Bool
  errMode   : Bool
  bitFault  : Bool
  edgeFault : Bool
  /-- `m'`, the mode written; `mode` before the write when the code is undefined. -/
  target    : Mode
  deriving DecidableEq, Repr

/-- `track_opmode(d)` without the flags it sets (R141 to R144). -/
def track (c : Config) (m : Mode) (lora : Bool) (d : Byte) : Tracked :=
  match modeOf c (modeField d) with
  | none => { mode := m, lora := lora, errMode := true, bitFault := false, edgeFault := false, target := m }
  | some m' =>
    let changes : Bool := bit d c.loraBit != lora
    { mode := m'
      lora := if changes && acceptsLora m then bit d c.loraBit else lora
      errMode := false
      bitFault := changes && !acceptsLora m
      edgeFault := !inEdges m m'
      target := m' }

/-- The copy of the flags after a completed frame on the flags register (R19, R107). -/
def irqAfter (irq : Byte) (rw : Bool) (d : Byte) : Byte := if rw then irq &&& ~~~d else d

/-- `err_info` of `err_seq` (R21): eleven zero bits, kind, from, to. -/
def seqInfo (kind : Bool) (src dst : Mode) : BitVec 16 :=
  (0 : BitVec 11) ++ BitVec.ofBool kind ++ src.number ++ dst.number

/-- `err_info` of `err_mode` (R21): `0x00 ++ d`. -/
def modeInfo (d : Byte) : BitVec 16 := (0 : BitVec 8) ++ d

/-- `err_info` of `err_illegal` (R21): bits [31:16] of the command word. -/
def illegalInfo (w : Word) : BitVec 16 := w.extractLsb' 16 16

end Sys2Proof.Machine
end

