-- ==== Sys2Proof/Machine/Flags.lean ====
section
/-! DEFINITION. The status register (R20), the fault bits and what a fault records (R21, R214, R215, R216). -/

namespace Sys2Proof.Machine

/-- The four sticky fault bits (R214). -/
inductive FaultBit where
  | errIllegal
  | errTable
  | errMode
  | errSeq
  deriving DecidableEq, Repr

/-- Set a fault bit. -/
def Status.set (st : Status) : FaultBit → Status
  | .errIllegal => { st with errIllegal := true }
  | .errTable => { st with errTable := true }
  | .errMode => { st with errMode := true }
  | .errSeq => { st with errSeq := true }

/-- Read a fault bit. -/
def Status.get (st : Status) : FaultBit → Bool
  | .errIllegal => st.errIllegal
  | .errTable => st.errTable
  | .errMode => st.errMode
  | .errSeq => st.errSeq

/-- `s.status[6:3] = 0b0000`: no fault bit is set (R20, R215). -/
def Status.noFault (st : Status) : Bool := !(st.errIllegal || st.errTable || st.errMode || st.errSeq)

/-- `busy`: `s.fg` is not `Ready` (R20). -/
def State.busy (s : State) : Bool :=
  match s.fg with
  | .ready => false
  | .run _ _ => true
  | .asleep _ _ => true

/-- `asleep`: `s.fg` is `Asleep` (R20). -/
def State.asleep (s : State) : Bool :=
  match s.fg with
  | .ready => false
  | .run _ _ => false
  | .asleep _ _ => true

/-- `s.status` as the host reads it, bit 7 first (R20). -/
def State.status (s : State) : Byte :=
  BitVec.ofBool s.asleep ++ BitVec.ofBool s.st.errSeq ++ BitVec.ofBool s.st.errMode ++ BitVec.ofBool s.st.errTable ++
    BitVec.ofBool s.st.errIllegal ++ BitVec.ofBool s.st.verMismatch ++ BitVec.ofBool s.st.conReady ++
    BitVec.ofBool s.busy

/-- The fault bits and what the first fault recorded. -/
structure ErrRecord where
  st   : Status
  info : BitVec 16
  deriving DecidableEq, Repr

/-- `flag F(info)` (R215): set the bit; record `info` if no fault bit was set before (R21). -/
def ErrRecord.flag (f : FaultBit) (info : BitVec 16) (e : ErrRecord) : ErrRecord :=
  { st := e.st.set f, info := if e.st.noFault then info else e.info }

/-- `flag F(info)` if the condition holds. -/
def ErrRecord.flagIf (b : Bool) (f : FaultBit) (info : BitVec 16) (e : ErrRecord) : ErrRecord :=
  if b then e.flag f info else e

/-- The fault record of a state. -/
def State.errRecord (s : State) : ErrRecord := { st := s.st, info := s.errInfo }

/-- `flag F(info)` (R215). -/
def flagFault (f : FaultBit) (info : BitVec 16) (s : State) : State :=
  { s with st := (s.errRecord.flag f info).st, errInfo := (s.errRecord.flag f info).info }

/-- `raise F(info)` (R215): as `flag`, and the current command ends. -/
def raiseFault (f : FaultBit) (info : BitVec 16) (s : State) : State :=
  { flagFault f info s with fg := .ready }

/-- The faults the tracker flags for a write of `d` in mode `m` (R141): `err_mode` alone, or the modulation-bit fault before
the edge fault (R216). -/
def trackFaults (t : Tracked) (m : Mode) (d : Byte) (e : ErrRecord) : ErrRecord :=
  ((e.flagIf t.errMode .errMode (modeInfo d)).flagIf t.bitFault .errSeq (seqInfo true m t.target)).flagIf
    t.edgeFault .errSeq (seqInfo false m t.target)

/-- `track_opmode(d)` (R141): the faults, then the modulation bit and the mode. -/
def trackOpmode (d : Byte) (s : State) : State :=
  let t := track s.cfg s.mode s.lora d
  let e := trackFaults t s.mode d s.errRecord
  { s with st := e.st, errInfo := e.info, mode := t.mode, lora := t.lora }

end Sys2Proof.Machine
end

