-- ==== Sys2Proof/Machine/Target.lean ====
section
/-! DEFINITION. The reference target (R51 to R60): one deterministic chip that agrees with everything the spec says the
chip does. It answers only when `cfg.target` is `reference`; the normative chip (R50) answers any byte. -/

namespace Sys2Proof.Machine

/-- `x[a]`. -/
def Chip.reg (x : Chip) (a : Addr) : Byte := Memory.read .regs x.regs a.toNat

/-- `x[a] <- v`. -/
def Chip.setReg (a : Addr) (v : Byte) (x : Chip) : Chip := { x with regs := Memory.write .regs x.regs a.toNat v }

/-- `x[REG_OPMODE][2:0]`. -/
def Chip.modeCode (c : Config) (x : Chip) : BitVec 3 := modeField (x.reg c.regOpmode)

/-- The position of the packet buffer the pointer register names. -/
def Chip.pointer (c : Config) (x : Chip) : Byte := x.reg c.regFifoAddrPtr

/-- The packet-buffer byte at a position. -/
def Chip.fifoByte (x : Chip) (p : Byte) : Byte := Memory.read .fifo x.fifo p.toNat

/-- Advance the pointer register by one, modulo 256 (R56). -/
def Chip.bumpPointer (c : Config) (x : Chip) : Chip := x.setReg c.regFifoAddrPtr (x.pointer c + 1)

/-- `target_read(a)` (R52 to R57): the byte returned and the chip after the read. -/
def Chip.readReg (c : Config) (a : Addr) (x : Chip) : Byte × Chip :=
  if a = c.regFifo then (x.fifoByte (x.pointer c), x.bumpPointer c)
  else if a = c.regVersion then (c.chipVersion, x)
  else (x.reg a, x)

/-- The chip accepts the modulation bit: its mode is Sleep or Standby (R54). -/
def Chip.acceptsLoraBit (c : Config) (x : Chip) : Bool :=
  x.modeCode c == c.codeSleep || x.modeCode c == c.codeStandby

/-- `target_write(REG_OPMODE, v)` (R53, R54): every bit but `LORA_BIT` takes the value written at once; `LORA_BIT` does so
only if the mode before the write is Sleep or Standby. Entering receive mode starts a new sequence of packets (R59). -/
def Chip.writeOpmode (c : Config) (v : Byte) (x : Chip) : Chip :=
  let stored := if x.acceptsLoraBit c then v else withBit v c.loraBit (bit (x.reg c.regOpmode) c.loraBit)
  let entersRx := modeField v == c.codeRxcont && x.modeCode c != c.codeRxcont
  { x.setReg c.regOpmode stored with rxNext := if entersRx then none else x.rxNext }

/-- `target_write(a, v)` (R52 to R57). -/
def Chip.writeReg (c : Config) (a : Addr) (v : Byte) (x : Chip) : Chip :=
  if a = c.regFifo then
    { x with fifo := Memory.write .fifo x.fifo (x.pointer c).toNat v }.bumpPointer c
  else if a = c.regOpmode then x.writeOpmode c v
  else if a = c.regIrqFlags then x.setReg c.regIrqFlags (x.reg c.regIrqFlags &&& ~~~v)
  else if a = c.regVersion then x
  else x.setReg a v

/-- The level of the pin (R58). -/
def Chip.dioLevel (c : Config) (x : Chip) : Bool :=
  let flags := x.reg c.regIrqFlags
  if x.modeCode c = c.codeRxcont then bit flags c.rxDoneBit
  else if x.modeCode c = c.codeTx then bit flags c.txDoneBit
  else match c.dioSel with
    | .rxDone => bit flags c.rxDoneBit
    | .txDone => bit flags c.txDoneBit

/-- Chip-select is asserted (R51). -/
def Chip.select (x : Chip) : Chip := { x with phase := .addr }

/-- Chip-select is deasserted: the target forgets `t.rw` and `t.a` (R51). -/
def Chip.deselect (x : Chip) : Chip := { x with latched := none }

/-- One exchange on the target's side (R51): the byte returned and the chip afterwards. A data exchange with no address
latched has no meaning in R51 and does not occur (R102, R103): it returns 0x00 and changes nothing. -/
def Chip.exchange (c : Config) (b : Byte) (x : Chip) : Byte × Chip :=
  match x.phase with
  | .addr => (0x00, { x with latched := some (b.getLsbD 7, b.extractLsb' 0 7), phase := .data })
  | .data =>
    match x.latched with
    | some (true, a) => (0x00, x.writeReg c a b)
    | some (false, a) => x.readReg c a
    | none => (0x00, x)

/-- `ChipReset` (R60): the reset image, these contents of the packet buffer (which R60 leaves unspecified), `t.phase` back to
`AddrPhase`. -/
def Chip.reset (c : Config) (buffer : Memory) : Chip :=
  { regs := c.resetImage, fifo := buffer, phase := .addr, latched := none, rxNext := none }

/-- `RxDoneEvent(payload)` (R59). -/
def Chip.rxDone (c : Config) (payload : List Byte) (x : Chip) : Chip :=
  let a := match x.rxNext with
    | some p => p
    | none => x.reg c.regFifoRxBase
  let n : Byte := BitVec.ofNat 8 payload.length
  let x1 := { x with fifo := Memory.writeFifo x.fifo a payload, rxNext := some (a + n) }
  let x2 := (x1.setReg c.regFifoRxCurrent a).setReg c.regRxNbBytes n
  x2.setReg c.regIrqFlags (withBit (x2.reg c.regIrqFlags) c.rxDoneBit true)

/-- `TxDoneEvent` (R59). -/
def Chip.txDone (c : Config) (x : Chip) : Chip :=
  x.setReg c.regIrqFlags (withBit (x.reg c.regIrqFlags) c.txDoneBit true)

/-- The 24-bit carrier quantity `Frf` (R49). -/
def Chip.frf (c : Config) (x : Chip) : BitVec 24 := x.reg c.regFrfMsb ++ x.reg c.regFrfMid ++ x.reg c.regFrfLsb

/-- The 16-bit preamble length, the MSB register first (R34). -/
def Chip.preamble (c : Config) (x : Chip) : BitVec 16 := x.reg c.regPreambleMsb ++ x.reg c.regPreambleLsb

/-- `Fcarrier = Fcrystal * Frf / 2^19`, exact (R49). No rule of the RRC computes it. -/
def carrierHz (c : Config) (frf : BitVec 24) : Rat := (c.fxosc * frf.toNat : Nat) / (524288 : Rat)

end Sys2Proof.Machine
end

