-- ==== Sys2Proof/Machine/Ops.lean ====
section
/-! DEFINITION. The shared operations of the RRC: the byte exchange and the frame (R100 to R107), the chip reset pulse
(R123), the edge detector (R160), taking an interrupt and returning from it (R206 to R209), the RRC reset (R230), the
host's ports (R220) and the moves of the chip and the environment (R50, R59). -/

namespace Sys2Proof.Machine

/-! ### Output -/

/-- `emit e` (R31): always succeeds. -/
def emitEvent (e : SinkEvent) (s : State) : State := { s with sink := s.sink ++ [e] }

/-! ### The byte exchange (R100, R101) -/

/-- The first three lines of `XFER(b)` (R100): an exchange is now owed by the transport. -/
def startXfer (b : Byte) (s : State) : State := { s with sdr := b, xferDone := false, xferBusy := true }

/-- The `j`-th byte of the any-answer chip, with these answers listed and `free` free bytes taken before (R50 (b)): a
listed answer, else a free value. -/
def answerByte (answers : List Byte) (free j : Nat) : Byte :=
  match answers[j]? with
  | some b => b
  | none => Config.freeChipByte (free + (j - answers.length))

/-- The `j`-th byte the any-answer chip will return from now on. -/
def State.chipByte (s : State) (j : Nat) : Byte := answerByte s.answers s.freeIdx j

/-- The state after the any-answer chip has returned `n` bytes. -/
def State.dropAnswers (s : State) (n : Nat) : State :=
  { s with answers := s.answers.drop n, freeIdx := s.freeIdx + (n - s.answers.length) }

/-- Drive the pin of the reference target (R58); the any-answer chip's pin is an input. -/
def driveDio (s : State) : State :=
  match s.cfg.target with
  | .anyAnswer => s
  | .reference => { s with pins := { s.pins with dio := s.chip.dioLevel s.cfg } }

/-- The target's part of an exchange: the byte it returns, and the state with the target changed. -/
def targetExchange (s : State) : Byte × State :=
  match s.cfg.target with
  | .anyAnswer => (s.chipByte 0, s.dropAnswers 1)
  | .reference =>
    let r := s.chip.exchange s.cfg s.sdr
    (r.1, driveDio { s with chip := r.2 })

/-- The transport's completion step (R101). -/
def exchange (s : State) : State :=
  let r := targetExchange s
  { r.2 with sdr := r.1, xferBusy := false, xferDone := true, phase := .data }

/-- The transport can complete an exchange: one is in flight, in a frame, on a bus that answers (R65, R101). -/
def canExchange (s : State) : Bool := s.xferBusy && s.cs && s.cfg.busAlive

/-! ### The frame (R102, R103, R107) -/

/-- Open a frame: assert chip-select and send the address byte (R102, R103, R71). -/
def openFrame (rw : Bool) (a : Addr) (s : State) : State :=
  startXfer (addrByte rw a) { s with cs := true, phase := .addr, chip := s.chip.select }

/-- `frame_done(rw, a, d)` (R107). -/
def frameDone (rw : Bool) (a : Addr) (d : Byte) (s : State) : State :=
  let s1 := { s with
    busLog := s.busLog ++ [.frame rw a d]
    irq := if a = s.cfg.regIrqFlags then irqAfter s.irq rw d else s.irq }
  if a = s.cfg.regOpmode ∧ rw = true then trackOpmode d s1 else s1

/-- Close a frame: deassert chip-select, then `frame_done` with the byte sent (write) or received (read). -/
def closeFrame (rw : Bool) (a : Addr) (d : Byte) (s : State) : State :=
  frameDone rw a (if rw then d else s.sdr) { s with cs := false, chip := s.chip.deselect }

/-! ### The chip reset pulse (R123) -/

/-- What the packet buffer of the reference target holds after the next reset pulse: unspecified (R60), so 256 free bytes
of the chip. -/
def State.freeBuffer (s : State) : Memory := Memory.writeFifo [] 0 ((List.range 256).map s.chipByte)

/-- The `ChipReset` event (R60) on the reference target: its registers, its buffer, its pin low. The any-answer chip holds
nothing the model must change. -/
def resetChip (s : State) : State :=
  match s.cfg.target with
  | .anyAnswer => s
  | .reference =>
    { s.dropAnswers 256 with chip := Chip.reset s.cfg s.freeBuffer, pins := { s.pins with dio := false } }

/-- `RSTP()` (R123): the `ChipReset` event, then the session state. The tracker is not consulted. -/
def pulseChipReset (s : State) : State :=
  let s1 := resetChip s
  { s1 with busLog := s.busLog ++ [.chipReset], mode := .sleep, lora := false, irq := 0x00 }

/-! ### Interrupts -/

/-- `detect(pins)` (R160). -/
def detectEdge (s : State) : State :=
  if s.pins = s.pinLatch then s else { s with pinLatch := s.pins, pcPending := true }

/-- The pending bit of a source (R200). -/
def State.pending (s : State) : Source → Bool
  | .pinChange => s.pcPending
  | .tick => s.tickPending
  | .console => s.conPending

/-- A handler of the source can be entered (R206). -/
def accepts (src : Source) (s : State) : Bool :=
  s.ien && decide (s.inHandler = .noHandler) && s.pending src && !s.cs

/-- Clear the pending bit of a source. -/
def clearPending (src : Source) (s : State) : State :=
  match src with
  | .pinChange => { s with pcPending := false }
  | .tick => { s with tickPending := false }
  | .console => { s with conPending := false }

/-- The handler of a source, at its first step (R207). -/
def handlerOf : Source → Handler
  | .pinChange => .inPc [.pcBody]
  | .tick => .inTick
  | .console => .inCon

/-- Taking an interrupt: `enter(X)` (R207). Nothing else is saved; the foreground's control state stops stepping. -/
def enterHandler (src : Source) (s : State) : State :=
  { clearPending src s with savedIen := s.ien, ien := false, inHandler := handlerOf src }

/-- The return from a handler (R209). -/
def returnFromHandler (s : State) : State := { s with inHandler := .noHandler, ien := s.savedIen, woken := true }

/-- The source the default policy serves: the first pending one in the order of `PRIO`, then in a fixed order (R205). -/
def pickSource (s : State) : Option Source :=
  (s.cfg.prio ++ [Source.pinChange, Source.tick, Source.console]).find? (fun src => accepts src s)

/-! ### The RRC reset (R230, R231, R232) -/

/-- The RRC reset: every field of Part A takes its reset value (R38) in one step; the chip is not reset, but forgets a
frame that was cut (R51, R231). The inputs, the table space, the configuration and the schedule stay. -/
def rrcReset (s : State) : State :=
  { State.reset with
    cfg := s.cfg, tab := s.tab, cmdPort := s.cmdPort
    chip := s.chip.deselect, pins := s.pins, pinLatch := s.pins
    answers := s.answers, freeIdx := s.freeIdx, env := s.env, hostSeen := s.hostSeen }

/-! ### The host's ports (R220) -/

/-- A host action. A word presented while `busy = 1`, or while another word waits, is not accepted (R79). -/
def hostAct (op : HostOp) (s : State) : State :=
  match op with
  | .present w => if s.busy = false ∧ s.cmdPort = none then { s with cmdPort := some w } else s
  | .takeRes => { s with res := s.res.tail, hostSeen := s.hostSeen ++ [.res s.res.head?] }
  | .putDat b => { s with dat := s.dat ++ [b] }
  | .readStatus => { s with st := { s.st with conReady := false }, hostSeen := s.hostSeen ++ [.status s.status] }
  | .readErrInfo => { s with hostSeen := s.hostSeen ++ [.errInfo s.errInfo] }
  | .readMode => { s with hostSeen := s.hostSeen ++ [.mode s.mode] }
  | .reset => rrcReset s

/-! ### The environment and the chip's events -/

/-- Set the level of pin `i` of a group. -/
def Pins.set (p : Pins) (i : Nat) (b : Bool) : Pins :=
  match i with
  | 0 => { p with dio := b }
  | n + 1 => { p with others := p.others.set n b }

/-- A pin takes a level (R50 (c)); the reference target drives pin 0 itself. -/
def pinMove (i : Nat) (b : Bool) (s : State) : State :=
  if i = 0 ∧ s.cfg.target = .reference then s else { s with pins := s.pins.set i b }

/-- `RxDoneEvent(payload)` (R59): enabled between frames, in ReceiveContinuous, for at most 255 bytes. -/
def rxDoneEvent (payload : List Byte) (s : State) : State :=
  if s.cfg.target = .reference ∧ s.cs = false ∧ s.chip.modeCode s.cfg = s.cfg.codeRxcont ∧ payload.length ≤ 255 then
    driveDio { s with chip := s.chip.rxDone s.cfg payload }
  else s

/-- `TxDoneEvent` (R59): enabled between frames, in Transmit. -/
def txDoneEvent (s : State) : State :=
  if s.cfg.target = .reference ∧ s.cs = false ∧ s.chip.modeCode s.cfg = s.cfg.codeTx then
    driveDio { s with chip := s.chip.txDone s.cfg }
  else s

end Sys2Proof.Machine
end

