-- ==== Sys2Proof/Machine/Micro.lean ====
section
/-! DEFINITION. One step of each context, one move of any agent, the default policy, and the run of a command to its
end. Every stop of a run is either the end of the command or a hold (R217): no timeout is added. -/

namespace Sys2Proof.Machine

/-! ### One micro-operation -/

/-- What a context does after a micro-operation. -/
inductive After where
  /-- Go on with these micro-operations, then with the rest. -/
  | push (ops : List MicroOp)
  /-- Sleep, then go on with the rest (R180). -/
  | sleep
  /-- The command ends here (R215). -/
  | stop
  deriving DecidableEq, Repr

/-- The result of one micro-operation: the state, the local that holds the last byte read, and what comes next. -/
structure OpResult where
  s     : State
  v     : Byte
  after : After
  deriving DecidableEq, Repr

/-- The micro-operations of one table entry (R120): one write, then the pointer. -/
def entryOps (a : Addr) (v : Byte) : List MicroOp := [.writeFrame a v, .tpAdvance]

/-- What the walker does with the entry at the table pointer (R120, R76). -/
def walkStep (v : Byte) (s : State) : OpResult :=
  match decodeEntry (Memory.tabEntry s.tab s.tp) with
  | .ok (.ent a d) => ⟨s, v, .push (entryOps a d ++ [.walk])⟩
  | .ok _ => ⟨s, v, .push []⟩
  | .error _ => ⟨flagFault .errTable s.tp s, v, .stop⟩

/-- The tail of `TXWAIT` (R167). -/
def txTail (c : Config) : List MicroOp :=
  [.writeFrame c.regIrqFlags c.clearAll, .modeWrite .sleep, .emit (.status .txDone)]

/-- The receive service after the length was read (R165). -/
def rxDrain (c : Config) (a n : Byte) : List MicroOp :=
  [.writeFrame c.regFifoAddrPtr a, .burstRead n.toNat true, .emit .lineEnd,
   .writeFrame c.regIrqFlags c.clearAll]

/-- Perform a micro-operation with the local `v`. Which lines of the pseudocode make up one step is the model's choice, which R15
leaves to it (log entry 10, which lists the lines that are one step together). -/
def opStep (op : MicroOp) (v : Byte) (s : State) : OpResult :=
  match op with
  | .readFrame a => ⟨openFrame false a s, v, .push [.addrPhase false a s.cfg.dummy]⟩
  | .writeFrame a d => ⟨openFrame true a s, v, .push [.addrPhase true a d]⟩
  | .addrPhase rw a d => ⟨startXfer d s, v, .push [.dataPhase rw a d]⟩
  | .dataPhase rw a d => ⟨closeFrame rw a d s, if rw then v else s.sdr, .push []⟩
  | .toRes => ⟨{ s with res := s.res ++ [v] }, v, .push []⟩
  | .toSink => ⟨emitEvent (.byte v) s, v, .push []⟩
  | .updWrite a k n => ⟨s, v, .push [.writeFrame a (updValue v k n)]⟩
  | .burstRead 0 _ => ⟨s, v, .push []⟩
  | .burstRead (n + 1) toSink =>
    ⟨s, v, .push [.readFrame s.cfg.regFifo, if toSink then .toSink else .toRes, .burstRead n toSink]⟩
  | .burstWrite 0 => ⟨s, v, .push []⟩
  | .burstWrite (n + 1) =>
    match s.dat with
    | [] => ⟨s, v, .push [.burstWrite (n + 1)]⟩
    | b :: bs => ⟨{ s with dat := bs }, v, .push [.writeFrame s.cfg.regFifo b, .burstWrite n]⟩
  | .setTp p => ⟨{ s with tp := p }, v, .push []⟩
  | .walk => walkStep v s
  | .tpAdvance => ⟨{ s with tp := s.tp + 2 }, v, .push []⟩
  | .chipReset => ⟨pulseChipReset s, v, .push []⟩
  | .verCheck =>
    ⟨{ s with st := { s.st with verMismatch := s.st.verMismatch || v != s.cfg.versionExpected } }, v, .push []⟩
  | .dumpOut a => ⟨emitEvent (.regDump a v) s, v, .push []⟩
  | .setVariant x => ⟨{ s with variant := some x }, v, .push []⟩
  | .modeWrite m => ⟨s, v, .push [.writeFrame s.cfg.regOpmode (opmodeByte s.cfg s.lora m)]⟩
  | .emit e => ⟨emitEvent e s, v, .push []⟩
  | .sleep => ⟨{ s with woken := false }, v, .sleep⟩
  | .txCheck => ⟨s, v, .push (if s.pins.dio then [.readFrame s.cfg.regIrqFlags, .txConfirm] else [.sleep, .txCheck])⟩
  | .txConfirm => ⟨s, v, .push (if bit v s.cfg.txDoneBit then txTail s.cfg else [.sleep, .txCheck])⟩
  | .setPause c => ⟨{ s with pauseCnt := c }, v, .push []⟩
  | .pauseLoop => ⟨s, v, .push (if s.pauseCnt = 0 then [] else [.sleep, .pauseDec, .pauseLoop])⟩
  | .pauseDec => ⟨{ s with pauseCnt := s.pauseCnt - 1 }, v, .push []⟩
  | .setIen e => ⟨{ s with ien := e }, v, .push []⟩
  | .pcBody => ⟨s, v, .push (if s.variant = some .receiver then [.rxCheck] else [])⟩
  | .rxCheck => ⟨s, v, .push (if s.pins.dio then [.readFrame s.cfg.regIrqFlags, .rxConfirm] else [])⟩
  | .rxConfirm => ⟨s, v, .push (if bit v s.cfg.rxDoneBit then [.readFrame s.cfg.regFifoRxCurrent, .rxAddr] else [])⟩
  | .rxAddr => ⟨s, v, .push [.readFrame s.cfg.regRxNbBytes, .rxLen v]⟩
  | .rxLen a => ⟨s, v, .push (rxDrain s.cfg a v)⟩

/-- A micro-operation holds while this is false (R217): a frame opens only on a free bus (R108), an exchange must have
completed (R100), a burst write needs a byte (R106). -/
def opEnabled (op : MicroOp) (s : State) : Bool :=
  match op with
  | .readFrame _ => !s.cs
  | .writeFrame _ _ => !s.cs
  | .addrPhase _ _ _ => s.xferDone
  | .dataPhase _ _ _ => s.xferDone
  | .burstWrite (_ + 1) => !s.dat.isEmpty
  | _ => true

/-! ### The two contexts -/

/-- A command with these micro-operations to go; with none it has ended (R79). -/
def Fg.resume (c : Instr) : List MicroOp → Fg
  | [] => .ready
  | k => .run c k

/-- The foreground can take a step: no handler runs (R28), and it does not hold. -/
def fgEnabled (s : State) : Bool :=
  match s.inHandler, s.fg with
  | .noHandler, .run _ (op :: _) => opEnabled op s
  | .noHandler, .run _ [] => true
  | .noHandler, .asleep _ _ => s.woken
  | _, _ => false

/-- One step of the foreground (R15). -/
def fgStep (s : State) : State :=
  match s.fg with
  | .ready => s
  | .asleep c k => { s with fg := Fg.resume c k }
  | .run _ [] => { s with fg := .ready }
  | .run c (op :: k) =>
    let r := opStep op s.fgVal s
    match r.after with
    | .push ops => { r.s with fgVal := r.v, fg := Fg.resume c (ops ++ k) }
    | .sleep => { r.s with fgVal := r.v, fg := .asleep c k }
    | .stop => { r.s with fgVal := r.v, fg := .ready }

/-- The running handler can take a step. -/
def handlerEnabled (s : State) : Bool :=
  match s.inHandler with
  | .noHandler => false
  | .inPc (op :: _) => opEnabled op s
  | .inPc [] => true
  | .inTick => true
  | .inCon => true

/-- One step of the running handler (R208): the body of the tick handler is empty (R211), the console handler sets
`con_ready` (R212), the pin-change handler runs its micro-operations (R164, R213). A handler cannot sleep and
raises no fault (R208), so `sleep` and `stop` do not occur in one. -/
def handlerStep (s : State) : State :=
  match s.inHandler with
  | .noHandler => s
  | .inTick => returnFromHandler s
  | .inCon => returnFromHandler { s with st := { s.st with conReady := true } }
  | .inPc [] => returnFromHandler s
  | .inPc (op :: k) =>
    let r := opStep op s.hVal s
    match r.after with
    | .push ops => { r.s with hVal := r.v, inHandler := .inPc (ops ++ k) }
    | .sleep => { r.s with hVal := r.v, inHandler := .inPc k }
    | .stop => { r.s with hVal := r.v, inHandler := .inPc [] }

/-- A step of whichever context runs; none if it holds. -/
def contextStep (s : State) : State :=
  if handlerEnabled s then handlerStep s
  else if fgEnabled s then fgStep s
  else s

/-! ### Moves and the default policy -/

/-- Perform a move; one that its agent cannot take changes nothing. -/
def applyMove (m : Move) (s : State) : State :=
  match m with
  | .run => contextStep s
  | .exchange => if canExchange s then exchange s else s
  | .detect => detectEdge s
  | .enter src => if accepts src s then enterHandler src s else s
  | .pin i b => pinMove i b s
  | .tick => { s with tickPending := true }
  | .con => { s with conPending := true }
  | .rxDone payload => rxDoneEvent payload s
  | .txDone => txDoneEvent s
  | .host op => hostAct op s
  | .settle => s

/-- What moves when no move is scheduled (log entry 8): the edge detector sees a change; the transport completes an exchange;
the handler steps; the foreground steps; a pending interrupt is accepted. `none` is a hold or a machine at rest. -/
def autoMove (s : State) : Option Move :=
  if s.pins ≠ s.pinLatch then some .detect
  else if canExchange s then some .exchange
  else if handlerEnabled s || fgEnabled s then some .run
  else (pickSource s).map Move.enter

/-- One move of the machine: the next scheduled one, else the default policy's; `none` when nothing can move. -/
def micro (s : State) : Option State :=
  match s.env with
  | [] => (autoMove s).map (fun m => applyMove m s)
  | .settle :: rest =>
    match autoMove s with
    | some m => some (applyMove m s)
    | none => some { s with env := rest }
  | m :: rest => some (applyMove m { s with env := rest })

/-- One move if there is one, else the same state: a hang stays where it is (R217). -/
def advance (s : State) : State := (micro s).getD s

/-! ### Running a command -/

/-- How much of the foreground's work is left: 0 exactly in `Ready`. -/
def State.depth (s : State) : Nat :=
  match s.fg with
  | .ready => 0
  | .run _ k => k.length + 1
  | .asleep _ k => k.length + 1

/-- Make moves until the foreground's work is down to `d`, or nothing can move, or `n` moves were made. -/
def runDown (d : Nat) : Nat → State → State
  | 0, s => s
  | n + 1, s =>
    if s.depth ≤ d then s
    else match micro s with
      | none => s
      | some s1 => runDown d n s1

/-- How many moves one run of an instruction may take: more than the longest table walk that ends, and for every scheduled
move more than a full receive service (log entry 9). A run cut here goes on in the next step. -/
def moveBudget (s : State) : Nat := 262144 + 4096 * s.env.length

/-- Run a command (R79): a word is accepted only in `Ready`; then its micro-operations run to their end. -/
def runCommand (c : Instr) (ops : List MicroOp) (s : State) : State :=
  match s.fg with
  | .ready => runDown 0 (moveBudget s) { s with fg := Fg.resume c ops }
  | .run _ _ => s
  | .asleep _ _ => s

/-- Run a bus frame or a table entry: in `Ready` as a command of its own, inside a command in front of the rest of it. -/
def runInner (c : Instr) (ops : List MicroOp) (s : State) : State :=
  match s.fg with
  | .ready => runDown 0 (moveBudget s) { s with fg := Fg.resume c ops }
  | .run c' k => runDown (k.length + 1) (moveBudget s) { s with fg := Fg.resume c' (ops ++ k) }
  | .asleep _ _ => s

end Sys2Proof.Machine
end

