-- ==== Sys2Proof/Machine/Completion.lean ====
section
/-! DEFINITION. The transmit wait (43_completion_signal.md). The receive service is no command: it is the body of the
pin-change handler (`pcBody`, `rxCheck`, … of Micro.lean). -/

namespace Sys2Proof.Machine

/-- `TXWAIT` (R167): the line "transmit"; sleep and check until the completion is confirmed; acknowledge; `MODE Sleep`;
the line "transmit done". -/
def execTxwait (s : State) : Host.Outcome State Fault Refusal :=
  .next (runCommand .txwait [.emit (.status .txStart), .sleep, .txCheck] s)

end Sys2Proof.Machine
end

