-- ==== Sys2Proof/Machine/ModeMachine.lean ====
section
/-! DEFINITION. The mode command (42_mode_state_machine.md); the tracker is `trackOpmode` of Flags.lean. -/

namespace Sys2Proof.Machine

/-- `MODE m` (R140): one write frame of `s.lora ++ OPMODE_MID ++ code(m)` to the mode-control register. -/
def execMode (m : Mode) (s : State) : Host.Outcome State Fault Refusal :=
  .next (runCommand (.mode m) [.modeWrite m] s)

end Sys2Proof.Machine
end

