-- ==== Sys2Proof/Machine/Power.lean ====
section
/-! DEFINITION. The power scheduler (44_power_scheduler.md): `IDLE`, `PAUSE`, `IEN`. -/

namespace Sys2Proof.Machine

/-- `IDLE` (R181): one `SLEEP()`. -/
def execIdle (s : State) : Host.Outcome State Fault Refusal :=
  .next (runCommand .idle [.sleep] s)

/-- `PAUSE c` (R183): sleep for `c` wake cycles. -/
def execPause (c : BitVec 16) (s : State) : Host.Outcome State Fault Refusal :=
  .next (runCommand (.pause c) [.setPause c, .pauseLoop] s)

/-- `IEN e` (R184): set the global interrupt enable. -/
def execIen (e : Bool) (s : State) : Host.Outcome State Fault Refusal :=
  .next (runCommand (.ien e) [.setIen e] s)

end Sys2Proof.Machine
end

