-- ==== Sys2Proof/Machine/RegisterAccess.lean ====
section
/-! DEFINITION. The register access layer (40_register_access.md): `RD`, `WR`, `UPD`, `BRD`, `BWR` and the two bus frames. -/

namespace Sys2Proof.Machine

/-- `RD a` (R102): one read frame; the value is appended to the result port. -/
def execRd (a : Addr) (s : State) : Host.Outcome State Fault Refusal :=
  .next (runCommand (.rd a) [.readFrame a, .toRes] s)

/-- `WR a, v` (R103): one write frame. -/
def execWr (a : Addr) (v : Byte) (s : State) : Host.Outcome State Fault Refusal :=
  .next (runCommand (.wr a v) [.writeFrame a v] s)

/-- `UPD a, k, n` (R104): a read frame, then a write frame of `(old & k) | n`; not atomic (R63). -/
def execUpd (a : Addr) (k n : Byte) (s : State) : Host.Outcome State Fault Refusal :=
  .next (runCommand (.upd a k n) [.readFrame a, .updWrite a k n] s)

/-- `BRD n` (R105): `n` read frames of `REG_FIFO`, each byte appended to the result port. -/
def execBrd (n : Byte) (s : State) : Host.Outcome State Fault Refusal :=
  .next (runCommand (.brd n) [.burstRead n.toNat false] s)

/-- `BWR n` (R106): `n` write frames of `REG_FIFO` with bytes from the data port. -/
def execBwr (n : Byte) (s : State) : Host.Outcome State Fault Refusal :=
  .next (runCommand (.bwr n) [.burstWrite n.toNat] s)

/-- The bus frame `RDF a` (R72, R102). -/
def execRdf (a : Addr) (s : State) : Host.Outcome State Fault Refusal :=
  .next (runInner (.rdf a) [.readFrame a] s)

/-- The bus frame `WRF a, d` (R73, R103). -/
def execWrf (a : Addr) (d : Byte) (s : State) : Host.Outcome State Fault Refusal :=
  .next (runInner (.wrf a d) [.writeFrame a d] s)

end Sys2Proof.Machine
end

