-- ==== Sys2Proof/Machine/Sequencer.lean ====
section
/-! DEFINITION. The configuration sequencer (41_config_sequencer.md): `CFG`, its entries, `RSTP`, `VERRD`, `DUMP`, `INIT`. -/

namespace Sys2Proof.Machine

/-- `CFG p` (R120): apply the table at `p`. -/
def execCfg (p : TabAddr) (s : State) : Host.Outcome State Fault Refusal :=
  .next (runCommand (.cfg p) [.setTp p, .walk] s)

/-- `RSTP` (R123): the chip reset pulse. -/
def execRstp (s : State) : Host.Outcome State Fault Refusal :=
  .next (runCommand .rstp [.chipReset] s)

/-- `VERRD` (R124): read the version register, dump it, set `ver_mismatch` on a mismatch. -/
def execVerrd (s : State) : Host.Outcome State Fault Refusal :=
  .next (runCommand .verrd [.readFrame s.cfg.regVersion, .dumpOut s.cfg.regVersion, .verCheck] s)

/-- `DUMP a` (R125): one read frame; the value goes to the sink. -/
def execDump (a : Addr) (s : State) : Host.Outcome State Fault Refusal :=
  .next (runCommand (.dump a) [.readFrame a, .dumpOut a] s)

/-- `INIT v` (R126): reset pulse, version readback, variant, the variant's table. -/
def initOps (c : Config) (v : Variant) (p : TabAddr) : List MicroOp :=
  [.chipReset, .readFrame c.regVersion, .dumpOut c.regVersion, .verCheck, .setVariant v, .setTp p, .walk]

/-- `INIT Receiver` (R126). -/
def execInitReceiver (s : State) : Host.Outcome State Fault Refusal :=
  .next (runCommand .initReceiver (initOps s.cfg .receiver s.cfg.tabRx) s)

/-- `INIT Transmitter` (R126). -/
def execInitTransmitter (s : State) : Host.Outcome State Fault Refusal :=
  .next (runCommand .initTransmitter (initOps s.cfg .transmitter s.cfg.tabTx) s)

/-- The table entry `ENT a, v` (R74, R120): one write frame, then the table pointer advances by 2. -/
def execEnt (a : Addr) (v : Byte) (s : State) : Host.Outcome State Fault Refusal :=
  .next (runInner (.ent a v) (entryOps a v) s)

/-- The table entry `END` (R75, R120): the walk in progress stops, `s.tp` stays at the sentinel. With no walk in
progress there is nothing to stop. -/
def execEndTable (s : State) : Host.Outcome State Fault Refusal :=
  match s.fg with
  | .run c (.walk :: k) => .next { s with fg := Fg.resume c k }
  | _ => .next s

end Sys2Proof.Machine
end

