-- ==== Sys2Proof/Machine/Dispatch.lean ====
section
/-! DEFINITION. The dispatch: one arm per instruction. -/

namespace Sys2Proof.Machine

def exec (i : Instr) (s : State) : Host.Outcome State Fault Refusal :=
  match i with
  | .rd a => Sys2Proof.Machine.execRd a s
  | .wr a v => Sys2Proof.Machine.execWr a v s
  | .upd a k n => Sys2Proof.Machine.execUpd a k n s
  | .brd n => Sys2Proof.Machine.execBrd n s
  | .bwr n => Sys2Proof.Machine.execBwr n s
  | .cfg p => Sys2Proof.Machine.execCfg p s
  | .rstp => Sys2Proof.Machine.execRstp s
  | .verrd => Sys2Proof.Machine.execVerrd s
  | .initReceiver => Sys2Proof.Machine.execInitReceiver s
  | .initTransmitter => Sys2Proof.Machine.execInitTransmitter s
  | .mode m => Sys2Proof.Machine.execMode m s
  | .dump a => Sys2Proof.Machine.execDump a s
  | .txwait => Sys2Proof.Machine.execTxwait s
  | .idle => Sys2Proof.Machine.execIdle s
  | .pause c => Sys2Proof.Machine.execPause c s
  | .ien e => Sys2Proof.Machine.execIen e s
  | .rdf a => Sys2Proof.Machine.execRdf a s
  | .wrf a d => Sys2Proof.Machine.execWrf a d s
  | .ent a v => Sys2Proof.Machine.execEnt a v s
  | .endTable => Sys2Proof.Machine.execEndTable s

end Sys2Proof.Machine
end

