-- ==== Sys2Proof/WellFormed.lean ====
section
/-! DEFINITION. Well-formedness: of the configuration record (R4, R39) and of a configuration table (R128). An
instruction needs no check: its operand types admit exactly the operands the encodings admit (R78, R70, R74). -/

namespace Sys2Proof

/-- Every instruction term is well formed: an operand outside its range cannot be written down. -/
def Instr.wf (_ : Instr) : Bool := true

namespace Config

/-- The seven register parameters that rules name are pairwise distinct (R4). -/
def regsDistinct (c : Config) : Bool :=
  decide [c.regFifo, c.regOpmode, c.regFifoAddrPtr, c.regFifoRxCurrent, c.regIrqFlags, c.regRxNbBytes,
    c.regVersion].Nodup

/-- The four mode codes are pairwise distinct (R4). -/
def codesDistinct (c : Config) : Bool :=
  decide [c.codeSleep, c.codeStandby, c.codeTx, c.codeRxcont].Nodup

/-- `RXDONE_BIT` and `TXDONE_BIT` differ (R4). -/
def flagBitsDiffer (c : Config) : Bool := decide (c.rxDoneBit ≠ c.txDoneBit)

/-- `LORA_BIT` lies outside the mode field [2:0] (log entry 7). -/
def loraBitOutsideField (c : Config) : Bool := decide (3 ≤ c.loraBit.val)

/-- The byte of the reset image at a register. -/
def imageByte (c : Config) (a : Addr) : Byte := Machine.Memory.read .regs c.resetImage a.toNat

/-- The three constraints on `RESET_IMAGE` (R39). -/
def imageConstraints (c : Config) : Bool :=
  decide (Machine.modeField (c.imageByte c.regOpmode) = c.codeSleep) &&
    !Machine.bit (c.imageByte c.regOpmode) c.loraBit && decide (c.imageByte c.regIrqFlags = 0x00)

/-- `SENTINEL` and `CLEAR_ALL` have the values that the spec fixes (R3, R75); the sentinel's bit 7 is set (R4). -/
def fixedValues (c : Config) : Bool := decide (c.sentinel = sentinelByte) && decide (c.clearAll = 0xFF)

/-- The widths, sizes and field places have the values that R3 gives and that no rule lets a platform override; the types of the
model have them (`Config.wf_widths`). -/
def fixedWidths (c : Config) : Bool :=
  decide (c.addrBits = 7) && (decide (c.addrMax = 0x7F) && (decide (c.valBits = 8) && (decide (c.rwBit = 7) &&
    (decide (c.modeFieldBits = (2, 0)) && (decide (c.fifoSize = 256) && (decide (c.tabBits = 16) &&
      decide (c.pauseBits = 16)))))))

/-- `PC_GROUP` is at least 1, the DIO pin (R3). -/
def hasDioPin (c : Config) : Bool := decide (1 ≤ c.pcGroup)

/-- The reset image is a memory in canonical form. -/
def imageCanonical (c : Config) : Bool := Machine.Memory.wf .regs c.resetImage

/-- The conditions on the configuration record; the model refuses one that breaks any (R3, R4, R39). The cheap conditions stand
first: a kernel that compares the two sides of an equation about `step` evaluates them. -/
def wf (c : Config) : Bool :=
  c.loraBitOutsideField && (c.flagBitsDiffer && (c.codesDistinct && (c.regsDistinct && (c.imageConstraints &&
    (c.imageCanonical && (c.fixedValues && (c.fixedWidths && c.hasDioPin)))))))

end Config

namespace Machine

/-- The entries of the table at `p`, if it ends within `n` entry positions and no entry is illegal (R128 (a)). -/
def tableEntries (tab : Memory) : Nat → TabAddr → Option (List (Addr × Byte))
  | 0, _ => none
  | n + 1, p =>
    match decodeEntry (Memory.tabEntry tab p) with
    | .ok (.ent a v) => (tableEntries tab n (p + 2)).map (fun es => (a, v) :: es)
    | .ok _ => some []
    | .error _ => none

/-- How many entry positions of one parity the table space has (R121 (d)). -/
def entryPositions : Nat := 32768

/-- Walking the entries from a mode and modulation bit raises neither `err_mode` nor `err_seq` (R128 (c)). -/
def tracksClean (c : Config) : Mode → Bool → List (Addr × Byte) → Bool
  | _, _, [] => true
  | m, l, (a, v) :: es =>
    if a = c.regOpmode then
      let t := track c m l v
      !t.errMode && !t.bitFault && !t.edgeFault && tracksClean c t.mode t.lora es
    else tracksClean c m l es

/-- The last entry is a write to `REG_OPMODE` whose bits [2:0] are the code of the target mode (R128 (b)). -/
def endsInMode (c : Config) (m : Mode) (es : List (Addr × Byte)) : Bool :=
  match es.getLast? with
  | some (a, v) => decide (a = c.regOpmode) && decide (modeField v = codeOf c m)
  | none => false

/-- A table at `p` is well formed for target mode `m` (R128). -/
def tableWf (c : Config) (tab : Memory) (p : TabAddr) (m : Mode) : Bool :=
  match tableEntries tab entryPositions p with
  | some es => endsInMode c m es && tracksClean c .sleep false es
  | none => false

end Machine

end Sys2Proof
end

