-- ==== Sys2Proof/Machine/Fetch.lean ====
section
/-! DEFINITION. What a step fetches. The RRC takes its work from three places (R2): a command word at the command port
while it is `Ready` (R79), a table entry at the table pointer while a walk is at an entry (R120), and the bus frame a
command performs next (R70). -/

namespace Sys2Proof.Machine

/-- What was fetched, with the state after the fetch. -/
inductive Fetched where
  /-- An instruction to execute. -/
  | instr (i : Instr) (s : State)
  /-- An illegal command word (R80). -/
  | illegalWord (w : Word) (s : State)
  /-- An illegal table entry (R76). -/
  | illegalEntry (s : State)
  /-- Nothing to fetch: some agent moves. -/
  | nothing
  deriving DecidableEq, Repr

/-- The next move may be the foreground's: it is scheduled, or the default policy moves. Any other scheduled move comes before
a fetch, so a handler can be entered in `Ready` while a word waits, and after another handler's return (R206, R209). -/
def State.fgDue (s : State) : Bool :=
  match s.env with
  | [] => true
  | .run :: _ => true
  | .settle :: _ => true
  | _ => false

/-- The scheduled move of the foreground is used up by the fetch. -/
def State.takeTurn (s : State) : State :=
  match s.env with
  | .run :: rest => { s with env := rest }
  | _ => s

/-- Fetch the command word at the port (R79): it is accepted, so the port is free again. -/
def fetchCommand (w : Word) (s : State) : Fetched :=
  match decodeCmd w with
  | .ok i => .instr i { s.takeTurn with cmdPort := none }
  | .error _ => .illegalWord w { s.takeTurn with cmdPort := none }

/-- Fetch the table entry at the table pointer (R120). -/
def fetchEntry (s : State) : Fetched :=
  match decodeEntry (Memory.tabEntry s.tab s.tp) with
  | .ok i => .instr i s.takeTurn
  | .error _ => .illegalEntry s.takeTurn

/-- What the foreground would fetch. Nothing is fetched while a handler runs: the foreground does not step (R28). A fetched
frame leaves the turn to the micro-operation that opens it. -/
def fetchNow (s : State) : Fetched :=
  match s.inHandler, s.fg with
  | .noHandler, .ready =>
    match s.cmdPort with
    | some w => fetchCommand w s
    | none => .nothing
  | .noHandler, .run _ (.walk :: _) => fetchEntry s
  | .noHandler, .run c (.readFrame a :: k) =>
    .instr (decodeFrame (frameWord false a s.cfg.dummy)) { s with fg := .run c k }
  | .noHandler, .run c (.writeFrame a d :: k) =>
    .instr (decodeFrame (frameWord true a d)) { s with fg := .run c k }
  | _, _ => .nothing

/-- Fetch, when it is the foreground's turn (R206). With no move scheduled the default policy gives it the turn ahead of a
pending interrupt, which is log entry 16. -/
def fetch (s : State) : Fetched := if s.fgDue then fetchNow s else .nothing

/-- The state about to fetch in the foreground: no handler, no frame open, no exchange owed, and the foreground's turn, which
stands in front of the schedule where another move would come first. -/
def atFetchPoint (s : State) : State :=
  { s with
    inHandler := .noHandler, cs := false, xferBusy := false
    env := if s.fgDue then s.env else .run :: s.env }

/-- Place a 16-bit word where the next step fetches it: a legal table entry at the table pointer of a walk in progress,
any other pattern as the next bus frame (log entry 5). -/
def placeHalf (w : Half) (s : State) : State :=
  match decodeEntry w with
  | .ok _ => { atFetchPoint s with tab := Memory.placeEntry s.tab s.tp w, fg := .run (.cfg s.tp) [.walk] }
  | .error _ =>
    match decodeFrame w with
    | .wrf a d => { atFetchPoint s with fg := .run (.wrf a d) [.writeFrame a d] }
    | i => { atFetchPoint s with fg := .run i [.readFrame (w.extractLsb' 8 7)] }

/-- Place a word where the next step fetches it: a 32-bit word at the command port of a ready machine. -/
def placeWord (nbits w : Nat) (s : State) : State :=
  if nbits = 32 then { atFetchPoint s with cmdPort := some (BitVec.ofNat 32 w), fg := .ready }
  else if nbits = 16 then placeHalf (BitVec.ofNat 16 w) s
  else s

/-- An illegal command word (R80): no frame, no other change. -/
def rejectWord (w : Word) (s : State) : State := raiseFault .errIllegal (illegalInfo w) s

/-- An illegal table entry (R76): no frame, the command ends with `s.tp` at the entry. -/
def rejectEntry (s : State) : State := raiseFault .errTable s.tp s

end Sys2Proof.Machine
end

