-- ==== Sys2Proof/Machine/Step.lean ====
section
/-! DEFINITION. One step of the machine. -/

namespace Sys2Proof.Machine

/-- One step: what is fetched is executed, an illegal word or entry raises its fault, and with nothing to fetch one agent
moves. A scheduled move of another agent goes ahead of a fetch (R206, log entry 16). A configuration that breaks `Config.wf` is refused. -/
def step (s : State) : Host.Outcome State Fault Refusal :=
  if s.cfg.wf then
    match fetch s with
    | .instr i s1 => exec i s1
    | .illegalWord w s1 => .next (rejectWord w s1)
    | .illegalEntry s1 => .next (rejectEntry s1)
    | .nothing => .next (advance s)
  else .refused .badConfig

/-- The state with an instruction placed where `step` fetches its next one. -/
def State.withFetchWord (s : State) (nbits w : Nat) : State := placeWord nbits w s

end Sys2Proof.Machine
end

