-- ==== Sys2Proof/Safety.lean ====
section
/-! DEFINITION. The terms the statements use: a good run and its end (R215, R218), an undisturbed machine, what frames
leave behind, and the invariants of the machine. -/

namespace Sys2Proof.Machine

/-! ### Illegal command words -/

/-- The bits below bit 23 that the command of an operation does not use (the operand column of R78). -/
def unusedBits (op : BitVec 4) : Word :=
  match op.toNat with
  | 0x1 => 0x0000FFFF
  | 0x2 => 0x000000FF
  | 0x3 => 0x00000000
  | 0x4 => 0x007FFF00
  | 0x5 => 0x007FFF00
  | 0x6 => 0x007F0000
  | 0x7 => 0x007FFFFF
  | 0x8 => 0x007FFFFF
  | 0x9 => 0x007FFFFC
  | 0xA => 0x007FFFFC
  | 0xB => 0x0000FFFF
  | 0xC => 0x007FFFFF
  | 0xD => 0x007FFFFF
  | 0xE => 0x007F0000
  | 0xF => 0x007FFFFE
  | _ => 0x00000000

/-- A command word is illegal (R80). -/
def IllegalWord (w : Word) : Prop :=
  w.op = 0 ∨ w.z1 ≠ 0 ∨ w.z2 ≠ 0 ∨ w &&& unusedBits w.op ≠ 0 ∨
    (w.op = 9 ∧ (w.fieldC.extractLsb' 0 2 = 0 ∨ w.fieldC.extractLsb' 0 2 = 3))

/-! ### Runs -/

/-- A good state: no fault bit is set (R215). -/
def State.good (s : State) : Bool := s.st.noFault

/-- A move presents a command word. -/
def Move.presents : Move → Bool
  | .host (.present _) => true
  | _ => false

/-- The host's program has no command left: none waits at the command port, none is still to be presented. -/
def State.noCommandLeft (s : State) : Bool := decide (s.cmdPort = none) && s.env.all (fun m => !m.presents)

/-- A run of a host program has ended (R218): the last command has completed and nothing is in flight; pending bits may
still be set. -/
def State.atRest (s : State) : Bool :=
  s.noCommandLeft && decide (s.fg = .ready) && decide (s.inHandler = .noHandler) && !s.cs && !s.xferBusy

/-- No move of the schedule pulses the RRC reset, which alone clears sticky bits (R20, R215). -/
def State.noReset (s : State) : Bool := s.env.all (fun m => decide (m ≠ .host .reset))

/-- Make `n` moves. -/
def advanceN : Nat → State → State
  | 0, s => s
  | n + 1, s => advanceN n (advance s)

/-! ### An undisturbed machine -/

/-- No handler runs, no frame is open, no pin change is still to be detected, the transport answers, and no move is
scheduled from outside. Pending bits, the interrupt enable and every other field are arbitrary. -/
structure State.Free (s : State) : Prop where
  noHandler : s.inHandler = .noHandler
  noFrame   : s.cs = false
  pinsSeen  : s.pins = s.pinLatch
  busAlive  : s.cfg.busAlive = true
  noMoves   : s.env = []

/-- A free machine against the normative chip (R50); the bytes the chip returns are arbitrary. -/
structure State.Undisturbed (s : State) : Prop extends s.Free where
  anyAnswer : s.cfg.target = .anyAnswer

/-! ### What frames leave on the normative chip -/

/-- The value the `j`-th frame from now on returns (j = 0 for the next one): the byte of its data exchange. -/
def State.frameByte (s : State) (j : Nat) : Byte := s.chipByte (2 * j + 1)

/-- What `n ≥ 1` undisturbed frames leave on the bus side: the last byte received in the data register, chip-select
inactive, two answers of the chip used per frame. -/
def State.afterFrames (s : State) (n : Nat) : State :=
  { s with
    sdr := s.frameByte (n - 1), cs := false, xferDone := true, xferBusy := false, phase := .data
    chip := s.chip.select.deselect
    answers := s.answers.drop (2 * n), freeIdx := s.freeIdx + (2 * n - s.answers.length) }

/-- The copy of the flags after a frame (R107). -/
def State.irqWith (s : State) (rw : Bool) (a : Addr) (d : Byte) : Byte :=
  if a = s.cfg.regIrqFlags then irqAfter s.irq rw d else s.irq

/-- What an undisturbed read frame leaves, but for the local of its context (R102, R107). -/
def State.afterReadRaw (s : State) (a : Addr) : State :=
  { s.afterFrames 1 with
    busLog := s.busLog ++ [.frame false a (s.frameByte 0)]
    irq := s.irqWith false a (s.frameByte 0) }

/-- What an undisturbed read frame of the foreground leaves. -/
def State.afterRead (s : State) (a : Addr) : State := { s.afterReadRaw a with fgVal := s.frameByte 0 }

/-- What an undisturbed write frame of the foreground leaves, before the tracker (R103, R107). -/
def State.afterWriteRaw (s : State) (a : Addr) (d : Byte) : State :=
  { s.afterFrames 1 with
    busLog := s.busLog ++ [.frame true a d]
    irq := s.irqWith true a d }

/-- What an undisturbed write frame of the foreground leaves (R103, R107, R141). -/
def State.afterWrite (s : State) (a : Addr) (d : Byte) : State :=
  if a = s.cfg.regOpmode then trackOpmode d (s.afterWriteRaw a d) else s.afterWriteRaw a d

/-- What an undisturbed foreground burst read of `n` bytes leaves (R105). -/
def State.afterBurstRead : Nat → State → State
  | 0, s => s
  | n + 1, s => State.afterBurstRead n { s.afterRead s.cfg.regFifo with res := s.res ++ [s.frameByte 0] }

/-- What an undisturbed burst write of the first `n` bytes of the data port leaves (R106). -/
def State.afterBurstWrite : Nat → State → State
  | 0, s => s
  | n + 1, s =>
    match s.dat with
    | [] => s
    | b :: bs => State.afterBurstWrite n { s.afterWrite s.cfg.regFifo b with dat := bs }

/-- These entries stand in the table space from `p` on, two bytes each (R74, R44 (b)). -/
def EntriesAt (tab : Memory) (p : TabAddr) (es : List (Addr × Byte)) : Prop :=
  ∀ (i : Nat) (h : i < es.length),
    Memory.tabEntry tab (p + BitVec.ofNat 16 (2 * i)) = entryWord (addrByte false es[i].1) es[i].2

/-- The table address after these entries from `p` on (R14: modulo 2^16). -/
def tableEnd (p : TabAddr) (es : List (Addr × Byte)) : TabAddr := p + BitVec.ofNat 16 (2 * es.length)

/-- What an undisturbed walk over these entries leaves (R120). -/
def State.afterEntries : List (Addr × Byte) → State → State
  | [], s => s
  | (a, v) :: es, s => State.afterEntries es { s.afterWrite a v with tp := s.tp + 2 }

/-- What the chip reset pulse leaves against the normative chip (R123). -/
def State.afterPulse (s : State) : State :=
  { s with
    busLog := s.busLog ++ [.chipReset], mode := .sleep, lora := false, irq := 0x00 }

/-- What an undisturbed version readback leaves (R124). -/
def State.afterVerrd (s : State) : State :=
  { s.afterRead s.cfg.regVersion with
    sink := s.sink ++ [.regDump s.cfg.regVersion (s.frameByte 0)]
    st := { s.st with verMismatch := s.st.verMismatch || s.frameByte 0 != s.cfg.versionExpected } }

/-! ### Interrupts and sleeps -/

/-- The next interrupt the default policy takes is that of `x`, and its handler uses no bus: it is not the receive service
with the pin high (R164, R165). -/
def State.QuietWake (s : State) (x : Source) : Prop :=
  pickSource s = some x ∧ (x = .pinChange → s.variant ≠ some .receiver ∨ s.pins.dio = false)

/-- What taking the interrupt of `x` and returning from it leaves when its handler uses no bus (R207, R209, R211, R212). -/
def State.afterWake (s : State) (x : Source) : State :=
  { s with
    pcPending := s.pcPending && x != .pinChange, tickPending := s.tickPending && x != .tick
    conPending := s.conPending && x != .console, savedIen := s.ien, woken := true
    st := { s.st with conReady := s.st.conReady || x == .console } }

/-- No source is pending. -/
def State.nonePending (s : State) : Bool := !s.pcPending && !s.tickPending && !s.conPending

/-- The schedule of `n` timer ticks, each at a moment when the RRC has nothing else to do. -/
def ticks : Nat → List Move
  | 0 => []
  | n + 1 => .settle :: .tick :: ticks n

/-- The bus log of one confirmed receive service (R165): flags `f`, current address `a`, the bytes drained. -/
def serviceLog (c : Config) (f a n : Byte) (bytes : List Byte) : List BusEvent :=
  [.frame false c.regIrqFlags f, .frame false c.regFifoRxCurrent a, .frame false c.regRxNbBytes n,
    .frame true c.regFifoAddrPtr a] ++ bytes.map (.frame false c.regFifo ·) ++
    [.frame true c.regIrqFlags c.clearAll]

/-- The bytes the receive service drains, on the normative chip: those of the frames after the first four. -/
def State.drained (s : State) (n : Nat) : List Byte := (List.range n).map (fun i => s.frameByte (4 + i))

/-! ### Invariants -/

/-- The micro-operations during which a frame is open. -/
def MicroOp.inFrame : MicroOp → Bool
  | .addrPhase _ _ _ => true
  | .dataPhase _ _ _ => true
  | _ => false

/-- The rest of the foreground's command. -/
def State.fgOps (s : State) : List MicroOp :=
  match s.fg with
  | .ready => []
  | .run _ k => k
  | .asleep _ k => k

/-- The micro-operations of the running context; none while the foreground sleeps, is ready, or a handler without
micro-operations runs. -/
def State.running (s : State) : List MicroOp :=
  match s.inHandler, s.fg with
  | .noHandler, .run _ k => k
  | .inPc k, _ => k
  | _, _ => []

/-- What a machine frozen inside a frame is (R100, R248), reached from `s`: chip-select is active, an exchange is owed, nothing
was logged, delivered or emitted since `s`, the interrupt enable and the pending bits are those of `s`, and every step
leaves the machine as it is. -/
structure State.FrozenFrom (s t : State) : Prop where
  selected  : t.cs = true
  owed      : t.xferBusy = true
  log       : t.busLog = s.busLog
  results   : t.res = s.res
  sink      : t.sink = s.sink
  enable    : t.ien = s.ien
  pending   : ∀ x, t.pending x = s.pending x
  stuck     : step t = .next t

/-- The head of a list is inside a frame. -/
def headInFrame : List MicroOp → Bool
  | [] => false
  | op :: _ => op.inFrame

/-- The micro-operations a handler of the RRC is made of (R164, R165). -/
def MicroOp.forHandler : MicroOp → Bool
  | .readFrame _ => true
  | .writeFrame _ _ => true
  | .addrPhase _ _ _ => true
  | .dataPhase _ _ _ => true
  | .toSink => true
  | .burstRead _ b => b
  | .emit _ => true
  | .pcBody => true
  | .rxCheck => true
  | .rxConfirm => true
  | .rxAddr => true
  | .rxLen _ => true
  | _ => false

/-- The micro-operations of the running handler. -/
def State.handlerOps (s : State) : List MicroOp :=
  match s.inHandler with
  | .inPc k => k
  | _ => []

/-- The single bus owner (R108, R46) and the interrupt context (R207, R208): chip-select is active exactly while the running
context is inside a frame; a context that does not run has no frame open; an exchange is owed only inside a frame;
while a handler runs, interrupts are off, the saved enable is on, and the handler does only what handlers do. -/
structure State.BusOwned (s : State) : Prop where
  csRule     : s.cs = headInFrame s.running
  tails      : s.running.tail.all (fun op => !op.inFrame) = true
  fgTail     : s.fgOps.tail.all (fun op => !op.inFrame) = true
  fgStopped  : (s.inHandler ≠ .noHandler ∨ s.asleep = true) → headInFrame s.fgOps = false
  owed       : s.xferBusy = true → s.cs = true ∧ s.xferDone = false
  masked     : s.inHandler ≠ .noHandler → s.ien = false ∧ s.savedIen = true
  handlerSet : s.handlerOps.all MicroOp.forHandler = true

/-- The pin of the reference target shows the flag it is mapped to (R58). Of the normative chip it asks nothing. -/
def State.DioFollows (s : State) : Prop :=
  s.cfg.target = .reference → s.pins.dio = s.chip.dioLevel s.cfg

/-- The pin-change group has `PC_GROUP` pins, and the latch as many bits (R3, R25). -/
def State.PinsSized (s : State) : Prop :=
  s.pins.others.length + 1 = s.cfg.pcGroup ∧ s.pinLatch.others.length + 1 = s.cfg.pcGroup

/-- The events of the bus log that may change the mode (R16): a write frame to the mode-control register, and the chip reset
pulse. -/
def BusEvent.setsMode (c : Config) : BusEvent → Bool
  | .frame rw a _ => rw && decide (a = c.regOpmode)
  | .chipReset => true

/-- Every memory of the machine is in its canonical form. -/
structure State.MemCanonical (s : State) : Prop where
  tab  : Memory.wf .tab s.tab = true
  regs : Memory.wf .regs s.chip.regs = true
  fifo : Memory.wf .fifo s.chip.fifo = true

/-- The tracker describes the reference target (R149). -/
structure State.Agrees (s : State) : Prop where
  mode : modeOf s.cfg (s.chip.modeCode s.cfg) = some s.mode
  lora : bit (s.chip.reg s.cfg.regOpmode) s.cfg.loraBit = s.lora

end Sys2Proof.Machine
end

