-- ==== Sys2Proof/Certificates/Slice0/Obligations.lean ====
section
/-! DEFINITION. The statements for the provers. Every statement about what a command leaves gives the whole next state, so
it says what is unchanged as well. `Undisturbed` is against the normative chip, whose answers are arbitrary: the byte of the
`j`-th frame from a state is `frameByte j`, of which nothing is known (log entry 2). In a state with no move scheduled the
default policy (log entry 8) lets a command go on until it ends or holds before it accepts a pending interrupt, which R206
allows; statements about every state and every step hold for every schedule. -/

open Sys2Proof Sys2Proof.Machine

/-! ### Encodings -/

/-- Decoding the encoding of any instruction gives it back, every operand at every value; and the data byte of a read
frame and the second byte of a sentinel are ignored. -/
def Obligations.DecodeOfEncode : Prop :=
  (∀ i : Instr, decode (encode i) = .ok i) ∧
  (∀ (a : Addr) (d : Byte), decodeFrame (frameWord false a d) = .rdf a) ∧
  (∀ x : Byte, decodeEntry (entryWord sentinelByte x) = .ok .endTable)

/-- A legal command word, a legal entry other than the sentinel, and a write frame are the encoding of what they decode to. -/
def Obligations.LegalWordEncodesBack : Prop :=
  (∀ (w : Word) (i : Instr), decodeCmd w = .ok i → encode i = .cmd w) ∧
  (∀ (w : Half) (i : Instr), decodeEntry w = .ok i → i ≠ .endTable → encode i = .entry w) ∧
  (∀ w : Half, w.getLsbD 15 = true → encode (decodeFrame w) = .frame w)

/-- Words written out from R70, R74 and R78 decode to what they stand for. -/
def Obligations.SpecWordsDecode : Prop :=
  decodeCmd 0x10420000#32 = .ok (.rd 0x42) ∧
  decodeCmd 0x2012FF00#32 = .ok (.wr 0x12 0xFF) ∧
  decodeCmd 0x301D0F90#32 = .ok (.upd 0x1D 0x0F 0x90) ∧
  decodeCmd 0x60000100#32 = .ok (.cfg 0x0100) ∧
  decodeCmd 0x90000001#32 = .ok .initReceiver ∧
  decodeCmd 0xA0000003#32 = .ok (.mode .transmit) ∧
  decodeCmd 0xF0000001#32 = .ok (.ien true) ∧
  decodeFrame 0x4200#16 = .rdf 0x42 ∧
  decodeFrame 0x92FF#16 = .wrf 0x12 0xFF ∧
  decodeEntry 0x0180#16 = .ok (.ent 0x01 0x80) ∧
  decodeEntry 0xFF00#16 = .ok .endTable

/-- A word decodes to a command exactly when the row of that command matches it; the rows are disjoint; a word no row matches
is illegal (R84). The FRAME16 and ENTRY16 rows: a frame by bit 15, an entry by bit 15, the sentinel by its first byte. -/
def Obligations.RowsMatchDecoder : Prop :=
  (∀ (w : Word) (n : String),
    (∃ r ∈ cmdRows, r.fits w = true ∧ r.mnemonic = n) ↔ ∃ i, decodeCmd w = .ok i ∧ i.mnemonic = n) ∧
  (∀ (w : Word), ∀ r ∈ cmdRows, ∀ r' ∈ cmdRows, r.fits w = true → r'.fits w = true → r = r') ∧
  (∀ w : Word, (∀ r ∈ cmdRows, r.fits w = false) → ∃ e, decodeCmd w = .error e) ∧
  (∀ w : Half, (decodeFrame w).mnemonic = if w &&& 0x8000 = 0x8000 then "WRF" else "RDF") ∧
  (∀ w : Half, (∃ i, decodeEntry w = .ok i ∧ i.mnemonic = "ENT") ↔ w &&& 0x8000 = 0) ∧
  (∀ w : Half, (∃ i, decodeEntry w = .ok i ∧ i.mnemonic = "END") ↔ w &&& 0xFF00 = 0xFF00)

/-- The decoder rejects a command word exactly when R80 calls it illegal; and a ready RRC given such a word raises
`err_illegal` with the word's high half, performs nothing, and is ready again (R80), when it is the foreground's turn. That with
no move scheduled the turn is the foreground's, whatever is pending, is the model's choice, log entry 16. -/
def Obligations.IllegalCommandWord : Prop :=
  (∀ w : Word, (∃ e, decodeCmd w = .error e) ↔ IllegalWord w) ∧
  (∀ (s : State) (w : Word), s.cfg.wf = true → s.inHandler = .noHandler → s.fg = .ready → s.cmdPort = some w →
    s.fgDue = true → IllegalWord w →
    step s = .next { s with
      cmdPort := none, env := s.takeTurn.env
      st := { s.st with errIllegal := true }
      errInfo := if s.st.noFault then w.extractLsb' 16 16 else s.errInfo })

/-- The address byte of a frame: the direction in bit 7, the address below it, back on the target side (R71). -/
def Obligations.AddressByte : Prop :=
  ∀ (rw : Bool) (a : Addr) (d : Byte),
    (addrByte rw a).toNat = (if rw then 128 else 0) + a.toNat ∧
    (addrByte rw a).getLsbD 7 = rw ∧ (addrByte rw a).extractLsb' 0 7 = a ∧
    (frameWord rw a d).toNat = 256 * (addrByte rw a).toNat + d.toNat

/-- The entry at a table address by its address byte: at most 0x7F an entry with the byte at the next address as its value,
0xFF the sentinel whatever follows, 0x80 to 0xFE illegal (R74, R75, R76; table addresses modulo 2^16). -/
def Obligations.TableEntryAtAddress : Prop :=
  ∀ (tab : Memory) (p : TabAddr),
    (Memory.tabByte tab p = 0xFF → decodeEntry (Memory.tabEntry tab p) = .ok .endTable) ∧
    (∀ a : Addr, Memory.tabByte tab p = addrByte false a →
      decodeEntry (Memory.tabEntry tab p) = .ok (.ent a (Memory.tabByte tab (p + 1)))) ∧
    (128 ≤ (Memory.tabByte tab p).toNat → Memory.tabByte tab p ≠ 0xFF →
      decodeEntry (Memory.tabEntry tab p) = .error .illegalEntry)

/-! ### Reset -/

/-- The values R38 gives after reset. `s.sdr`, which R38 leaves unspecified, is not among them. -/
def Obligations.StateAfterReset : Prop :=
  State.reset.res = [] ∧ State.reset.dat = [] ∧ State.reset.sink = [] ∧ State.reset.busLog = [] ∧
  State.reset.tp = 0x0000 ∧ State.reset.fg = .ready ∧ State.reset.mode = .sleep ∧ State.reset.lora = false ∧
  State.reset.variant = none ∧ State.reset.irq = 0x00 ∧ State.reset.status = 0x00 ∧ State.reset.errInfo = 0x0000 ∧
  State.reset.cs = false ∧ State.reset.xferDone = false ∧ State.reset.xferBusy = false ∧
  State.reset.phase = .addr ∧ State.reset.pinLatch = State.reset.pins ∧ State.reset.pcPending = false ∧
  State.reset.tickPending = false ∧ State.reset.conPending = false ∧ State.reset.ien = false ∧
  State.reset.inHandler = .noHandler ∧ State.reset.woken = false ∧ State.reset.pauseCnt = 0x0000

/-- The RRC reset from any state, whatever is in progress: every field of Part A takes its reset value in one move, the
latch the present pin levels (R230). The chip's registers and buffer, the pins, the tables and the configuration stay, and a
cut frame is forgotten: the model's choice, log entry 13, with R231, R232, R43 and R51. -/
def Obligations.ResetFromAnyState : Prop :=
  ∀ s : State,
    (let t := applyMove (.host .reset) s
     t.res = [] ∧ t.dat = [] ∧ t.sink = [] ∧ t.busLog = [] ∧ t.tp = 0x0000 ∧ t.fg = .ready ∧ t.mode = .sleep ∧
     t.lora = false ∧ t.variant = none ∧ t.irq = 0x00 ∧ t.status = 0x00 ∧ t.errInfo = 0x0000 ∧ t.cs = false ∧
     t.xferDone = false ∧ t.xferBusy = false ∧ t.phase = .addr ∧ t.pinLatch = s.pins ∧ t.pcPending = false ∧
     t.tickPending = false ∧ t.conPending = false ∧ t.ien = false ∧ t.inHandler = .noHandler ∧ t.woken = false ∧
     t.pauseCnt = 0x0000 ∧ t.pins = s.pins ∧ t.tab = s.tab ∧ t.cfg = s.cfg ∧
     t.chip.regs = s.chip.regs ∧ t.chip.fifo = s.chip.fifo ∧ t.chip.latched = none)

/-! ### Register access -/

/-- `RD a`: one read frame; the byte of its data exchange is appended to the result port, logged, and copied into the flags
copy when `a` is the flags register (R102, R107). Nothing else of the RRC changes. -/
def Obligations.ReadCommand : Prop :=
  ∀ (s : State) (a : Addr), s.Undisturbed → s.fg = .ready →
    exec (.rd a) s = .next { s with
      sdr := s.frameByte 0, fgVal := s.frameByte 0, res := s.res ++ [s.frameByte 0]
      busLog := s.busLog ++ [.frame false a (s.frameByte 0)]
      irq := if a = s.cfg.regIrqFlags then s.frameByte 0 else s.irq
      cs := false, xferDone := true, xferBusy := false, phase := .data, chip := s.chip.select.deselect
      answers := s.answers.drop 2, freeIdx := s.freeIdx + (2 - s.answers.length) }

/-- `WR a, v`: one write frame; logged; the flags copy loses the bits written as 1 when `a` is the flags register, and the
tracker sees the byte when `a` is the mode-control register (R103, R107). Nothing else of the RRC changes. -/
def Obligations.WriteCommand : Prop :=
  ∀ (s : State) (a : Addr) (v : Byte), s.Undisturbed → s.fg = .ready →
    (let t : State := { s with
      sdr := s.frameByte 0
      busLog := s.busLog ++ [.frame true a v]
      irq := if a = s.cfg.regIrqFlags then s.irq &&& ~~~v else s.irq
      cs := false, xferDone := true, xferBusy := false, phase := .data, chip := s.chip.select.deselect
      answers := s.answers.drop 2, freeIdx := s.freeIdx + (2 - s.answers.length) }
     exec (.wr a v) s = .next (if a = s.cfg.regOpmode then trackOpmode v t else t))

/-- `UPD a, k, n`: a read frame, then a write frame of `(old & k) | n` on the same register; no result (R104). -/
def Obligations.UpdateCommand : Prop :=
  ∀ (s : State) (a : Addr) (k n : Byte), s.Undisturbed → s.fg = .ready →
    exec (.upd a k n) s = .next ((s.afterRead a).afterWrite a ((s.frameByte 0 &&& k) ||| n))

/-- `BRD n`: `n` read frames of `REG_FIFO`, each byte appended to the result port in order; `n = 0` changes nothing
(R105). -/
def Obligations.BurstRead : Prop :=
  ∀ (s : State) (n : Byte), s.Undisturbed → s.fg = .ready →
    exec (.brd n) s = .next (s.afterBurstRead n.toNat) ∧
    (s.afterBurstRead n.toNat).res = s.res ++ (List.range n.toNat).map s.frameByte ∧
    (s.afterBurstRead n.toNat).busLog =
      s.busLog ++ (List.range n.toNat).map (fun j => .frame false s.cfg.regFifo (s.frameByte j)) ∧
    (n = 0 → s.afterBurstRead n.toNat = s)

/-- `BWR n` with at least `n` bytes at the data port: `n` write frames of `REG_FIFO` with its first `n` bytes in order; the
rest stay (R106). -/
def Obligations.BurstWrite : Prop :=
  ∀ (s : State) (n : Byte), s.Undisturbed → s.fg = .ready → n.toNat ≤ s.dat.length →
    exec (.bwr n) s = .next (s.afterBurstWrite n.toNat) ∧
    (s.afterBurstWrite n.toNat).dat = s.dat.drop n.toNat ∧
    (s.afterBurstWrite n.toNat).res = s.res ∧
    (s.afterBurstWrite n.toNat).busLog =
      s.busLog ++ (s.dat.take n.toNat).map (fun b => .frame true s.cfg.regFifo b)

/-- `BWR n` with fewer than `n` bytes: the bytes there are written, then the command holds between two frames, busy, with
chip-select inactive, until the host supplies more (R106). A byte supplied ends the hold. -/
def Obligations.BurstWriteHolds : Prop :=
  ∀ (s : State) (n : Byte), s.Undisturbed → s.fg = .ready → s.dat.length < n.toNat →
    pickSource s = none →
    (let t : State := { s.afterBurstWrite s.dat.length with
       fg := .run (.bwr n) [.burstWrite (n.toNat - s.dat.length)] }
     exec (.bwr n) s = .next t ∧ t.cs = false ∧ micro t = none ∧
     ∀ b : Byte, micro { t with dat := [b] } ≠ none)

/-- The bus frames as instructions: a read frame `RDF a` and a write frame `WRF a, d` of a ready machine or of the command in
progress, which then stands at the rest of it (R72, R73, R102, R103; a frame of a ready machine is log entry 5). -/
def Obligations.BusFrames : Prop :=
  ∀ (s : State) (a : Addr) (d : Byte), s.Undisturbed →
    (s.fg = .ready →
      exec (.rdf a) s = .next (s.afterRead a) ∧ exec (.wrf a d) s = .next (s.afterWrite a d)) ∧
    (∀ c k, s.fg = .run c k →
      exec (.rdf a) s = .next { s.afterRead a with fg := Fg.resume c k } ∧
      exec (.wrf a d) s = .next { s.afterWrite a d with fg := Fg.resume c k })

/-! ### Configuration sequencer -/

/-- `CFG p`: the entries from `p` to the sentinel are applied in order, one write frame each; the table pointer ends at the
sentinel (R120). -/
def Obligations.ConfigurationWalk : Prop :=
  ∀ (s : State) (p : TabAddr) (es : List (Addr × Byte)), s.Undisturbed → s.fg = .ready →
    EntriesAt s.tab p es → Memory.tabByte s.tab (tableEnd p es) = sentinelByte → es.length < entryPositions →
    exec (.cfg p) s = .next (State.afterEntries es { s with tp := p }) ∧
    (State.afterEntries es { s with tp := p }).tp = tableEnd p es ∧
    (State.afterEntries es { s with tp := p }).busLog = s.busLog ++ es.map (fun e => .frame true e.1 e.2)

/-- An illegal entry ends the walk: the entries before it stay applied, no frame is sent for it, the table pointer stays at it,
`err_table` is raised with its address, and the machine is ready (R76, R121 (b)). -/
def Obligations.WalkMeetsIllegalEntry : Prop :=
  ∀ (s : State) (p : TabAddr) (es : List (Addr × Byte)), s.Undisturbed → s.fg = .ready →
    EntriesAt s.tab p es → es.length < entryPositions →
    128 ≤ (Memory.tabByte s.tab (tableEnd p es)).toNat → Memory.tabByte s.tab (tableEnd p es) ≠ sentinelByte →
    (let t := State.afterEntries es { s with tp := p }
     exec (.cfg p) s = .next { t with
       st := { t.st with errTable := true }
       errInfo := if t.st.noFault then tableEnd p es else t.errInfo } ∧
     t.tp = tableEnd p es ∧ t.fg = .ready)

/-- The table entries as instructions: `ENT a, v` is one write frame and an advance of the table pointer by 2, in a ready
machine or at an entry of the walk in progress, which goes on; `END` ends the walk in progress with the table pointer where
it is, and in any other place there is no walk for it to end (R74, R75, R120; the two clauses of a ready machine are log
entry 5). -/
def Obligations.TableEntries : Prop :=
  ∀ (s : State) (a : Addr) (v : Byte), s.Undisturbed →
    (s.fg = .ready → exec (.ent a v) s = .next { s.afterWrite a v with tp := s.tp + 2 }) ∧
    (∀ c k, s.fg = .run c (.walk :: k) →
      exec (.ent a v) s = .next { s.afterWrite a v with tp := s.tp + 2 } ∧
      exec .endTable s = .next { s with fg := Fg.resume c k }) ∧
    (s.fg = .ready → exec .endTable s = .next s)

/-- `RSTP`: the pulse is logged, mode Sleep, modulation bit and flags copy 0; the reference target takes its reset image
with a free buffer (log entry 2) and lowers its pin. Nothing else changes: not the status, the fault record, the variant, the enable, the pending bits, the table
pointer (R123). -/
def Obligations.ChipResetPulse : Prop :=
  ∀ s : State, s.Free → s.fg = .ready →
    (s.cfg.target = .anyAnswer →
      exec .rstp s = .next { s with
        busLog := s.busLog ++ [.chipReset], mode := .sleep, lora := false, irq := 0x00 }) ∧
    (s.cfg.target = .reference →
      exec .rstp s = .next { s with
        busLog := s.busLog ++ [.chipReset], mode := .sleep, lora := false, irq := 0x00
        pins := { s.pins with dio := false }
        chip := { regs := s.cfg.resetImage, fifo := s.freeBuffer, phase := .addr, latched := none, rxNext := none }
        answers := s.answers.drop 256, freeIdx := s.freeIdx + (256 - s.answers.length) })

/-- `VERRD`: one read frame of the version register, a dump of the byte, and the sticky warning bit on a mismatch; the command
always completes (R124). -/
def Obligations.VersionReadback : Prop :=
  ∀ s : State, s.Undisturbed → s.fg = .ready →
    exec .verrd s = .next { s.afterRead s.cfg.regVersion with
      sink := s.sink ++ [.regDump s.cfg.regVersion (s.frameByte 0)]
      st := { s.st with
        verMismatch := s.st.verMismatch || decide (s.frameByte 0 ≠ s.cfg.versionExpected) } }

/-- `DUMP a`: one read frame, and the byte goes to the sink (R125). -/
def Obligations.RegisterDump : Prop :=
  ∀ (s : State) (a : Addr), s.Undisturbed → s.fg = .ready →
    exec (.dump a) s = .next { s.afterRead a with sink := s.sink ++ [.regDump a (s.frameByte 0)] }

/-- `INIT v`: the pulse, the version readback, the variant, then the variant's table; the interrupt enable is not touched
(R126). -/
def Obligations.InitForVariant : Prop :=
  ∀ (s : State) (es : List (Addr × Byte)), s.Undisturbed → s.fg = .ready → es.length < entryPositions →
    (EntriesAt s.tab s.cfg.tabRx es → Memory.tabByte s.tab (tableEnd s.cfg.tabRx es) = sentinelByte →
      exec .initReceiver s = .next (State.afterEntries es
        { s.afterPulse.afterVerrd with variant := some .receiver, tp := s.cfg.tabRx })) ∧
    (EntriesAt s.tab s.cfg.tabTx es → Memory.tabByte s.tab (tableEnd s.cfg.tabTx es) = sentinelByte →
      exec .initTransmitter s = .next (State.afterEntries es
        { s.afterPulse.afterVerrd with variant := some .transmitter, tp := s.cfg.tabTx }))

/-- After `INIT` with a well-formed table for the variant the mode is that of the variant, and no fault was added. Of R126's
`s.lora = 1` nothing is said: R128 does not require that a table sets the modulation bit. -/
def Obligations.InitReachesItsMode : Prop :=
  ∀ s : State, s.Undisturbed → s.fg = .ready → s.cfg.wf = true →
    (tableWf s.cfg s.tab s.cfg.tabRx .receiveContinuous = true →
      ∃ t, exec .initReceiver s = .next t ∧ t.fg = .ready ∧ t.mode = .receiveContinuous ∧
        t.variant = some .receiver ∧ t.errInfo = s.errInfo ∧
        { t.st with verMismatch := false } = { s.st with verMismatch := false }) ∧
    (tableWf s.cfg s.tab s.cfg.tabTx .transmit = true →
      ∃ t, exec .initTransmitter s = .next t ∧ t.fg = .ready ∧ t.mode = .transmit ∧
        t.variant = some .transmitter ∧ t.errInfo = s.errInfo ∧
        { t.st with verMismatch := false } = { s.st with verMismatch := false })

/-! ### Modes -/

/-- `MODE m`: one write frame to the mode-control register of the modulation bit in its place, `OPMODE_MID`, and the code of
`m`; then the mode is `m`, the modulation bit is unchanged, `err_mode` is not raised, and `err_seq` is flagged exactly when
the edge is not in `EDGES` (R140, with `LORA_BIT` = 7). -/
def Obligations.ModeCommand : Prop :=
  ∀ (s : State) (m : Mode), s.Undisturbed → s.fg = .ready → s.cfg.wf = true → s.cfg.loraBit = 7 →
    (let d : Byte := BitVec.ofBool s.lora ++ s.cfg.opmodeMid ++ codeOf s.cfg m
     exec (.mode m) s = .next (s.afterWrite s.cfg.regOpmode d) ∧
     (s.afterWrite s.cfg.regOpmode d).mode = m ∧
     (s.afterWrite s.cfg.regOpmode d).lora = s.lora ∧
     (s.afterWrite s.cfg.regOpmode d).busLog = s.busLog ++ [.frame true s.cfg.regOpmode d] ∧
     (s.afterWrite s.cfg.regOpmode d).st = { s.st with errSeq := s.st.errSeq || !inEdges s.mode m })

/-- `MODE m` for any place of the modulation bit: the byte written carries the modulation bit there and the code of `m` below
bit 3, so the same follows (R140; the place of `OPMODE_MID` is log entry 7). -/
def Obligations.ModeCommandAnyLoraBit : Prop :=
  ∀ (s : State) (m : Mode), s.Undisturbed → s.fg = .ready → s.cfg.wf = true →
    ∃ d : Byte, bit d s.cfg.loraBit = s.lora ∧ modeField d = codeOf s.cfg m ∧
      exec (.mode m) s = .next (s.afterWrite s.cfg.regOpmode d) ∧
      (s.afterWrite s.cfg.regOpmode d).mode = m ∧ (s.afterWrite s.cfg.regOpmode d).lora = s.lora

/-- The eight ordered pairs of modes outside the documented graph (R144), and no others. -/
def Obligations.EdgesOutsideGraph : Prop :=
  ∀ m m' : Mode, inEdges m m' = false ↔
    (m, m') ∈ [(Mode.sleep, Mode.receiveContinuous), (.sleep, .transmit), (.standby, .sleep),
      (.receiveContinuous, .sleep), (.receiveContinuous, .standby), (.receiveContinuous, .transmit),
      (.transmit, .standby), (.transmit, .receiveContinuous)]

/-- What a write of `d` to the mode-control register does to mode, modulation bit and fault record (R141 to R145): an
undefined code flags `err_mode` alone and changes neither; otherwise the mode follows the byte, the modulation bit does so
only from Sleep or Standby, and a refused bit or an edge outside the graph is flagged, the bit first. The command ends
normally in every case. -/
def Obligations.TrackerOnWrite : Prop :=
  ∀ (s : State) (d : Byte), s.Undisturbed → s.fg = .ready → s.cfg.wf = true →
    ∃ t, exec (.wr s.cfg.regOpmode d) s = .next t ∧ t.fg = .ready ∧
      ((∀ m, codeOf s.cfg m ≠ modeField d) →
        t.mode = s.mode ∧ t.lora = s.lora ∧ t.st = { s.st with errMode := true } ∧
        t.errInfo = if s.st.noFault then (0x00#8 ++ d) else s.errInfo) ∧
      (∀ m, codeOf s.cfg m = modeField d →
        t.mode = m ∧
        t.lora = (if s.mode = .sleep ∨ s.mode = .standby then bit d s.cfg.loraBit else s.lora) ∧
        (let refused := bit d s.cfg.loraBit ≠ s.lora ∧ s.mode ≠ .sleep ∧ s.mode ≠ .standby
         t.st = { s.st with errSeq := s.st.errSeq || decide refused || !inEdges s.mode m } ∧
         t.errInfo =
           if s.st.noFault = true ∧ refused then 0#11 ++ 1#1 ++ s.mode.number ++ m.number
           else if s.st.noFault = true ∧ inEdges s.mode m = false then 0#11 ++ 0#1 ++ s.mode.number ++ m.number
           else s.errInfo))

/-! ### Sleeping and waiting -/

/-- `IDLE`: one sleep, ended by the return of the first handler, whichever source it served, with no frame of its own (R181,
R180; the source is the one the default policy takes, log entry 8): a handler without bus use leaves only its mark; the receive service has run before the command ends. -/
def Obligations.IdleWoken : Prop :=
  (∀ (s : State) (x : Source), s.Free → s.fg = .ready → s.QuietWake x →
    exec .idle s = .next (s.afterWake x)) ∧
  (∀ s : State, s.Undisturbed → s.fg = .ready → s.cfg.wf = true → pickSource s = some .pinChange →
    s.variant = some .receiver → s.pins.dio = true →
    ∃ t, exec .idle s = .next t ∧ t.fg = .ready ∧ t.inHandler = .noHandler ∧ t.ien = true ∧ t.res = s.res ∧
      t.busLog = s.busLog ++
        (if bit (s.frameByte 0) s.cfg.rxDoneBit = true then
          serviceLog s.cfg (s.frameByte 0) (s.frameByte 1) (s.frameByte 2) (s.drained (s.frameByte 2).toNat)
        else [.frame false s.cfg.regIrqFlags (s.frameByte 0)]))

/-- `PAUSE c` with only the timer firing ends after the `c`-th tick, with the counter at 0; `c = 0` does not sleep (R183).
That each tick of the schedule falls when nothing else can move (`settle`) is log entry 8. -/
def Obligations.PauseCountsWakes : Prop :=
  ∀ (s : State) (c : BitVec 16), s.Free → s.fg = .ready → s.ien = true → s.nonePending = true →
    exec (.pause c) { s with env := ticks c.toNat } = .next { s with
      pauseCnt := 0, woken := if c = 0 then s.woken else true, savedIen := if c = 0 then s.savedIen else true }

/-- Sleeping with interrupts off never ends: `IDLE`, `TXWAIT` and `PAUSE c` with `c > 0` are asleep after their first step,
and every further step leaves them there, whatever is pending (R182). -/
def Obligations.SleepWithInterruptsOff : Prop :=
  ∀ (s : State) (i : Instr), s.Free → s.fg = .ready → s.ien = false → s.cfg.wf = true →
    (i = .idle ∨ i = .txwait ∨ ∃ c, c ≠ 0 ∧ i = .pause c) →
    ∃ t k, exec i s = .next t ∧ t.fg = .asleep i k ∧ step t = .next t ∧ t.busLog = s.busLog ∧
      t.pcPending = s.pcPending ∧ t.tickPending = s.tickPending ∧ t.conPending = s.conPending

/-- `TXWAIT` woken with the pin high and the transmit-done flag set: the line "transmit", the flags read, the clear, the write
of Sleep, the line "transmit done", in this order; the flags copy is 0 and the mode Sleep (R167). Two points are the model's
choice: the layout of the byte written for `LORA_BIT` other than 7 is log entry 7, and that the pending interrupt the
default policy takes ends the sleep before anything else moves is log entry 8. -/
def Obligations.TransmitWaitConfirmed : Prop :=
  ∀ (s : State) (x : Source), s.Undisturbed → s.fg = .ready → s.cfg.wf = true → s.QuietWake x → s.pins.dio = true →
    bit (s.frameByte 0) s.cfg.txDoneBit = true →
    (let w : State := { s.afterWake x with sink := s.sink ++ [.status .txStart] }
     let r := w.afterRead s.cfg.regIrqFlags
     let a := r.afterWrite s.cfg.regIrqFlags s.cfg.clearAll
     let d := opmodeByte s.cfg s.lora .sleep
     let t : State := { a.afterWrite s.cfg.regOpmode d with sink := s.sink ++ [.status .txStart, .status .txDone] }
     exec .txwait s = .next t ∧ t.mode = .sleep ∧ t.irq = 0x00 ∧
     t.busLog = s.busLog ++ [.frame false s.cfg.regIrqFlags (s.frameByte 0),
       .frame true s.cfg.regIrqFlags 0xFF, .frame true s.cfg.regOpmode d])

/-- `TXWAIT` woken without a confirmation sleeps again: with the pin low no frame is made; with the pin high and the flag
clear one read frame is made (R168 (d)). Which interrupt ends the sleep, and that none is taken earlier, is the default policy's
choice, log entry 8. -/
def Obligations.TransmitWaitUnconfirmed : Prop :=
  ∀ (s : State) (x : Source), s.Undisturbed → s.fg = .ready → s.QuietWake x → pickSource (s.afterWake x) = none →
    (let w : State := { s.afterWake x with
       sink := s.sink ++ [.status .txStart], woken := false, fg := .asleep .txwait [.txCheck] }
     (s.pins.dio = false → exec .txwait s = .next w) ∧
     (s.pins.dio = true → bit (s.frameByte 0) s.cfg.txDoneBit = false →
       exec .txwait s = .next (w.afterRead s.cfg.regIrqFlags)))

/-- `IEN e` sets the global interrupt enable and nothing else; pending bits stay (R184). -/
def Obligations.InterruptEnable : Prop :=
  ∀ (s : State) (e : Bool), s.Free → s.fg = .ready → exec (.ien e) s = .next { s with ien := e }

/-! ### Steps -/

/-- A step of a ready machine with a legal word at the command port executes its instruction, and the port is free again
(R79); a configuration that breaks `Config.wf` (R4, R39, the values R3 fixes, log entry 7) is refused. The
step is the foreground's where its turn is the next move scheduled; that it is also where none is scheduled, whatever is
pending, is the model's choice, log entry 16. -/
def Obligations.StepRunsCommand : Prop :=
  (∀ (s : State) (w : Word) (i : Instr), s.cfg.wf = true → s.inHandler = .noHandler → s.fg = .ready →
    s.cmdPort = some w → s.fgDue = true → decodeCmd w = .ok i → step s = exec i { s.takeTurn with cmdPort := none }) ∧
  (∀ s : State, s.cfg.wf = false → step s = .refused .badConfig)

/-- A step of a walk at an entry executes that entry, or raises `err_table` and ends the command (R120, R76); a step of a
command at a frame executes that bus frame and then stands at the rest of the command (R70, R72, R73). The step is
the foreground's as in `StepRunsCommand` (log entry 16). -/
def Obligations.StepRunsEntryAndFrame : Prop :=
  ∀ (s : State) (c : Instr) (k : List MicroOp), s.cfg.wf = true → s.inHandler = .noHandler → s.fgDue = true →
    (s.fg = .run c (.walk :: k) →
      (∀ i, decodeEntry (Memory.tabEntry s.tab s.tp) = .ok i → step s = exec i s.takeTurn) ∧
      (∀ e, decodeEntry (Memory.tabEntry s.tab s.tp) = .error e →
        step s = .next { s with
          fg := .ready, env := s.takeTurn.env, st := { s.st with errTable := true }
          errInfo := if s.st.noFault then s.tp else s.errInfo })) ∧
    (∀ a, s.fg = .run c (.readFrame a :: k) → step s = exec (.rdf a) { s with fg := .run c k }) ∧
    (∀ a d, s.fg = .run c (.writeFrame a d :: k) → step s = exec (.wrf a d) { s with fg := .run c k })

/-- With nothing to fetch a step is one move of an agent, or leaves a machine at rest or in a hold as it is (which move,
when none is scheduled, is log entry 8). There is nothing to fetch exactly while another agent's move is the next one
scheduled, while a handler runs, while a ready machine has no word at its port, during a sleep, and in a command that is
neither at a table entry nor about to open a frame. A scheduled move of an agent other than the foreground is the next
step in every state; so at every acceptance point of R206, also in `Ready` with a legal or an illegal word waiting, and
right after the return of another handler (R209), a handler can be entered before the foreground's next step. -/
def Obligations.StepMovesOtherwise : Prop :=
  (∀ s : State, s.cfg.wf = true → fetch s = .nothing →
    step s = .next (advance s) ∧ (micro s = none → step s = .next s)) ∧
  (∀ s : State, fetch s = .nothing ↔
    s.fgDue = false ∨
    s.inHandler ≠ .noHandler ∨ (s.fg = .ready ∧ s.cmdPort = none) ∨ s.asleep = true ∨
    ∃ c k, s.fg = .run c k ∧ ∀ op ∈ k.head?,
      op ≠ .walk ∧ (∀ a, op ≠ .readFrame a) ∧ (∀ a d, op ≠ .writeFrame a d)) ∧
  (∀ (s : State) (m : Move) (rest : List Move), s.cfg.wf = true → s.env = m :: rest → m ≠ .run → m ≠ .settle →
    step s = .next (applyMove m { s with env := rest })) ∧
  (∀ (s : State) (x : Source) (rest : List Move), s.cfg.wf = true → s.env = .enter x :: rest →
    s.ien = true → s.inHandler = .noHandler → s.pending x = true → s.cs = false →
    step s = .next (enterHandler x { s with env := rest }))

/-! ### Whole-machine rules -/

/-- No step changes the table space or the configuration (R43, R64). -/
def Obligations.TableSpaceConstant : Prop :=
  ∀ s t : State, step s = .next t → t.tab = s.tab ∧ t.cfg = s.cfg

/-- The mode and the modulation bit change only with a write frame to the mode-control register or a chip reset pulse in the
bus log, in any step in which the RRC reset is not pulsed; the log only grows (R16, R32). -/
def Obligations.ModeChangesAreLogged : Prop :=
  ∀ s t : State, s.noReset = true → step s = .next t →
    ∃ l, t.busLog = s.busLog ++ l ∧
      ((∀ e ∈ l, e.setsMode s.cfg = false) → t.mode = s.mode ∧ t.lora = s.lora)

/-- Fault bits and the version warning are sticky, and `s.err_info` is written only while no fault bit is set, in any step in
which the RRC reset is not pulsed (R20, R21, R215). -/
def Obligations.FaultsAreSticky : Prop :=
  ∀ s t : State, s.noReset = true → step s = .next t →
    (∀ f, s.st.get f = true → t.st.get f = true) ∧
    (s.st.verMismatch = true → t.st.verMismatch = true) ∧
    (s.st.noFault = false → t.errInfo = s.errInfo)

/-- A pending bit is cleared by nothing but entry to its own handler and the RRC reset (R161, R200). -/
def Obligations.PendingBitsKept : Prop :=
  ∀ (s t : State) (x : Source), s.noReset = true → micro s = some t → s.pending x = true →
    t.pending x = true ∨
      (s.ien = true ∧ s.inHandler = .noHandler ∧ s.cs = false ∧ t.inHandler = handlerOf x ∧ t.ien = false)

/-- A handler is entered only with interrupts enabled, no handler running, its bit pending and chip-select inactive; entry
saves the enable, clears it and the pending bit, and changes nothing else (R206, R207). -/
def Obligations.HandlerEntry : Prop :=
  ∀ s t : State, micro s = some t → s.inHandler = .noHandler → t.inHandler ≠ .noHandler →
    ∃ x, s.ien = true ∧ s.pending x = true ∧ s.cs = false ∧
      t = { s with
        ien := false, savedIen := true, inHandler := handlerOf x, env := t.env
        pcPending := s.pcPending && x != .pinChange, tickPending := s.tickPending && x != .tick
        conPending := s.conPending && x != .console }

/-- A handler ends by restoring the enable and waking a sleep, and nothing else but what the console handler adds; while one
runs, the foreground's control state does not change (R208, R209, R28, R212). That `con_ready` is set in the same move as the
return is the model's choice, log entry 10. -/
def Obligations.HandlerReturn : Prop :=
  ∀ s t : State, s.noReset = true → micro s = some t → s.inHandler ≠ .noHandler →
    t.fg = s.fg ∧
    (t.inHandler = .noHandler →
      t = { s with
        inHandler := .noHandler, ien := s.savedIen, woken := true, env := t.env
        st := { s.st with conReady := s.st.conReady || decide (s.inHandler = .inCon) } })

/-- The tick handler does nothing but wake; the console handler sets `con_ready`; the pin-change handler of any variant but the
receiver does nothing but wake (R211, R212, R164): from the acceptance of the interrupt the default policy takes next (log
entry 8), the whole effect of each; in how many moves is log entry 10. -/
def Obligations.ShortHandlers : Prop :=
  ∀ (s : State) (x : Source), s.env = [] → s.pins = s.pinLatch → canExchange s = false → fgEnabled s = false →
    pickSource s = some x → (x = .pinChange → s.variant ≠ some .receiver) →
    advanceN (if x = .pinChange then 3 else 2) s = s.afterWake x

/-- The edge detector: in every state, also inside a frame, in a handler and asleep, its step moves the latch to the levels and
sets the one pending bit if they differ, and changes nothing if they do not (R160). With no move scheduled it is the next
step when they differ (log entry 8). -/
def Obligations.EdgeDetected : Prop :=
  ∀ (s : State) (rest : List Move),
    micro { s with env := .detect :: rest } =
      some { s with
        env := rest, pinLatch := s.pins
        pcPending := if s.pins = s.pinLatch then s.pcPending else true } ∧
    (s.env = [] → s.pins ≠ s.pinLatch → micro s = some { s with pinLatch := s.pins, pcPending := true })

/-- The host's reads: `s.status` is returned with the layout of R20 and the read clears `con_ready` and nothing else; a byte is
taken from the front of the result port, and from an empty port nothing; a byte is put at the back of the data port;
`s.err_info` and `s.mode` are returned as they are, and reading them changes nothing (R11, R12, R20, R220; `hostSeen`, what the
host was given, is the model's record, log entry 11). -/
def Obligations.HostPorts : Prop :=
  ∀ (s : State) (b : Byte),
    applyMove (.host .readStatus) s = { s with
      st := { s.st with conReady := false }, hostSeen := s.hostSeen ++ [.status s.status] } ∧
    s.status.getLsbD 0 = decide (s.fg ≠ .ready) ∧ s.status.getLsbD 1 = s.st.conReady ∧
    s.status.getLsbD 2 = s.st.verMismatch ∧ s.status.getLsbD 3 = s.st.errIllegal ∧
    s.status.getLsbD 4 = s.st.errTable ∧ s.status.getLsbD 5 = s.st.errMode ∧ s.status.getLsbD 6 = s.st.errSeq ∧
    s.status.getLsbD 7 = s.asleep ∧
    applyMove (.host .takeRes) s = { s with res := s.res.drop 1, hostSeen := s.hostSeen ++ [.res s.res.head?] } ∧
    applyMove (.host (.putDat b)) s = { s with dat := s.dat ++ [b] } ∧
    applyMove (.host .readErrInfo) s = { s with hostSeen := s.hostSeen ++ [.errInfo s.errInfo] } ∧
    applyMove (.host .readMode) s = { s with hostSeen := s.hostSeen ++ [.mode s.mode] }

/-- A word presented while the RRC is busy is not accepted and has no effect (R79). That executing a command on a busy machine
changes nothing is the model's choice, log entry 5: no step does it. -/
def Obligations.BusyPortRefuses : Prop :=
  ∀ (s : State) (w : Word), s.fg ≠ .ready →
    applyMove (.host (.present w)) s = s ∧ (∀ i, i.mnemonic ∉ ["RDF", "WRF", "ENT", "END"] → exec i s = .next s)

/-- A bus that never answers freezes the machine while no move comes from outside (R65, R100, R208, R248): in either exchange of
a frame of either context a step changes nothing; and a frame opened by a ready machine, by a command in progress, or by
the pin-change handler leads there, so that no handler is entered and a running handler never returns. -/
def Obligations.DeadBusHangs : Prop :=
  ∀ s : State, s.cfg.wf = true → s.cfg.busAlive = false → s.pins = s.pinLatch → s.env = [] →
    (s.cs = true → s.xferDone = false → headInFrame s.running = true → step s = .next s) ∧
    (∀ (rw : Bool) (a : Addr) (d : Byte), s.cs = false →
      (s.inHandler = .noHandler → s.fg = .ready →
        ∃ t, exec (if rw then .wr a d else .rd a) s = .next t ∧ t.busy = true ∧ s.FrozenFrom t) ∧
      (∀ c k, s.inHandler = .noHandler → s.fg = .run c k →
        ∃ t, exec (if rw then .wrf a d else .rdf a) s = .next t ∧ t.busy = true ∧ s.FrozenFrom t) ∧
      (∀ k, s.inHandler = .inPc ((if rw then .writeFrame a d else .readFrame a) :: k) →
        ∃ t, step s = .next t ∧ t.inHandler ≠ .noHandler ∧ t.fg = s.fg ∧ s.FrozenFrom t))

/-! ### The receive service -/

/-- The receive service, confirmed: the frames of R165 in their order, the drained bytes and one line end to the sink, the
flags copy 0; then the handler returns. Mode, modulation bit, fault record, result port and the foreground are unchanged. -/
def Obligations.ReceiveServiceDrains : Prop :=
  ∀ s : State, s.env = [] → s.pins = s.pinLatch → s.cfg.busAlive = true → s.cfg.target = .anyAnswer →
    s.cs = false → s.xferBusy = false → s.cfg.wf = true → s.inHandler = .inPc [.pcBody] →
    s.variant = some .receiver → s.pins.dio = true → bit (s.frameByte 0) s.cfg.rxDoneBit = true →
    ∃ j, (let t := advanceN j s
      let n := s.frameByte 2
      t.inHandler = .noHandler ∧ t.ien = s.savedIen ∧ t.woken = true ∧ t.cs = false ∧
      t.busLog = s.busLog ++ serviceLog s.cfg (s.frameByte 0) (s.frameByte 1) n (s.drained n.toNat) ∧
      t.sink = s.sink ++ (s.drained n.toNat).map .byte ++ [.lineEnd] ∧
      t.irq = 0x00 ∧ t.mode = s.mode ∧ t.lora = s.lora ∧ t.st = s.st ∧ t.errInfo = s.errInfo ∧ t.res = s.res ∧
      t.fg = s.fg ∧ t.fgVal = s.fgVal ∧ t.tp = s.tp)

/-- The receive service, not confirmed: with the pin low it makes no frame at all; with the pin high and the receive-done bit
clear it makes one read frame of the flags and clears nothing (R163, R165, R166 (c)). -/
def Obligations.ReceiveServiceUnconfirmed : Prop :=
  ∀ s : State, s.env = [] → s.pins = s.pinLatch → s.cfg.busAlive = true → s.cfg.target = .anyAnswer →
    s.cs = false → s.xferBusy = false → s.inHandler = .inPc [.pcBody] → s.variant = some .receiver →
    (s.pins.dio = false → ∃ j, advanceN j s = returnFromHandler s) ∧
    (s.pins.dio = true → bit (s.frameByte 0) s.cfg.rxDoneBit = false →
      ∃ j, advanceN j s = returnFromHandler { s.afterReadRaw s.cfg.regIrqFlags with hVal := s.frameByte 0 })

/-! ### Memory -/

/-- One byte of any space: a write to a memory in canonical form keeps the form, the byte written reads back, and every other
address reads as before; and two memories in canonical form that read alike everywhere are equal data. -/
def Obligations.ByteWrittenReadsBack : Prop :=
  ∀ (sp : Space) (m : Memory), Memory.wf sp m = true →
    (∀ (a b : Nat) (v : Byte), a < sp.size →
      Memory.wf sp (Memory.write sp m a v) = true ∧
      Memory.read sp (Memory.write sp m a v) b = if b = a then v else Memory.read sp m b) ∧
    (∀ m', Memory.wf sp m' = true → (∀ a, Memory.read sp m a = Memory.read sp m' a) → m = m')

/-- Every step keeps the memories in canonical form. -/
def Obligations.StepKeepsMemories : Prop :=
  ∀ s t : State, s.MemCanonical → step s = .next t → t.MemCanonical

/-- Every step keeps the single bus owner and the interrupt context: chip-select is active exactly while the running context is
inside a frame, a context that does not run has no frame open, and in a handler interrupts are off with the enable saved. -/
def Obligations.StepKeepsBusOwner : Prop :=
  ∀ s t : State, s.BusOwned → step s = .next t → t.BusOwned

/-- Every step keeps the pin of the reference target at the flag it is mapped to (R58), and the number of pins of the group and
of bits of the latch at `PC_GROUP` (R3, R25). -/
def Obligations.StepKeepsPin : Prop :=
  ∀ s t : State, step s = .next t → (s.DioFollows → t.DioFollows) ∧ (s.PinsSized → t.PinsSized)

/-- The machine right after reset meets the invariants, with a configuration record that R4 allows. -/
def Obligations.ResetMeetsInvariants : Prop :=
  State.reset.MemCanonical ∧ State.reset.BusOwned ∧ State.reset.DioFollows ∧ State.reset.PinsSized ∧
  State.reset.cfg.wf = true

/-! ### The reference target -/

/-- Against the reference target, a register without side effects written and then read returns the byte written, and every
other register reads as before (R52). -/
def Obligations.TargetReadsBack : Prop :=
  ∀ (s : State) (a : Addr) (v : Byte), s.Free → s.fg = .ready → s.cfg.wf = true → s.cfg.target = .reference →
    s.DioFollows → s.MemCanonical →
    a ∉ [s.cfg.regFifo, s.cfg.regOpmode, s.cfg.regIrqFlags, s.cfg.regVersion] →
    ∃ t u, exec (.wr a v) s = .next t ∧ exec (.rd a) t = .next u ∧ u.res = s.res ++ [v] ∧ u.fg = .ready ∧
      (∀ b, u.chip.reg b = if b = a then v else s.chip.reg b) ∧ u.chip.fifo = s.chip.fifo ∧
      u.busLog = s.busLog ++ [.frame true a v, .frame false a v]

/-- Against the reference target, `RD a` of any register returns what the target's read returns, and leaves the registers and
the buffer as that read does: the flags and the version without a side effect, `REG_FIFO` with the pointer advanced modulo
256 (R51, R55, R56, R57). -/
def Obligations.TargetRead : Prop :=
  ∀ (s : State) (a : Addr), s.Free → s.fg = .ready → s.cfg.wf = true → s.cfg.target = .reference → s.DioFollows →
    s.MemCanonical →
    ∃ t, exec (.rd a) s = .next t ∧ t.fg = .ready ∧ t.chip.fifo = s.chip.fifo ∧
      (let p := s.chip.reg s.cfg.regFifoAddrPtr
       let v := if a = s.cfg.regFifo then s.chip.fifoByte p
                else if a = s.cfg.regVersion then s.cfg.chipVersion else s.chip.reg a
       t.res = s.res ++ [v] ∧
       (∀ b, t.chip.reg b = if a = s.cfg.regFifo ∧ b = s.cfg.regFifoAddrPtr then p + 1 else s.chip.reg b))

/-- Against the reference target, `WR a, v` to the registers with side effects: the flags lose the bits written as 1, the
version register ignores the write, `REG_FIFO` stores into the buffer at the pointer and advances it modulo 256, the
mode-control register takes every bit but the modulation bit, which it takes only from Sleep or Standby (R53 to R57). Every
other register and every other buffer byte reads as before, and the pin follows (R58). A write that enters receive mode
starts a new sequence of packets, and no other write changes where the next packet goes (R59; when receive mode is entered
is log entry 15). -/
def Obligations.TargetWrite : Prop :=
  ∀ (s : State) (a : Addr) (v : Byte), s.Free → s.fg = .ready → s.cfg.wf = true → s.cfg.target = .reference →
    s.DioFollows → s.MemCanonical →
    ∃ t, exec (.wr a v) s = .next t ∧ t.fg = .ready ∧ t.pins.dio = t.chip.dioLevel s.cfg ∧
      (let p := s.chip.reg s.cfg.regFifoAddrPtr
       let old := s.chip.reg s.cfg.regOpmode
       let gated := s.chip.modeCode s.cfg ≠ s.cfg.codeSleep ∧ s.chip.modeCode s.cfg ≠ s.cfg.codeStandby
       (∀ b, t.chip.reg b =
         if a = s.cfg.regFifo then (if b = s.cfg.regFifoAddrPtr then p + 1 else s.chip.reg b)
         else if b ≠ a ∨ a = s.cfg.regVersion then s.chip.reg b
         else if a = s.cfg.regIrqFlags then s.chip.reg a &&& ~~~v
         else if a = s.cfg.regOpmode ∧ gated then withBit v s.cfg.loraBit (bit old s.cfg.loraBit)
         else v) ∧
       (∀ q, t.chip.fifoByte q = if a = s.cfg.regFifo ∧ q = p then v else s.chip.fifoByte q) ∧
       t.chip.rxNext =
         if a = s.cfg.regOpmode ∧ modeField v = s.cfg.codeRxcont ∧ s.chip.modeCode s.cfg ≠ s.cfg.codeRxcont then none
         else s.chip.rxNext)

/-- The spec's own inference R149: the tracker and the reference target agree after a write with a defined code to the mode-control register if they agreed
before, and after the chip reset pulse in any case. -/
def Obligations.TrackerAgreesWithTarget : Prop :=
  ∀ s : State, s.Free → s.fg = .ready → s.cfg.wf = true → s.cfg.target = .reference → s.DioFollows →
    s.MemCanonical →
    (∀ d : Byte, s.Agrees → (∃ m, codeOf s.cfg m = modeField d) →
      ∃ t, exec (.wr s.cfg.regOpmode d) s = .next t ∧ t.Agrees) ∧
    (∃ t, exec .rstp s = .next t ∧ t.Agrees)

/-- The events of the reference target (R59, R58), between frames. A packet in receive mode: its bytes stand in the buffer from
the current address on, modulo 256, the length and the address are in their registers, the receive-done flag is set, the
pin is high, and the next packet goes to the position after this one. The first packet after receive mode was entered (log
entry 15) goes to the receive base. A completed transmission in transmit mode: the transmit-done flag is set and the pin is
high. Neither changes another register, another buffer byte, another flag, or anything of the RRC. -/
def Obligations.PacketArrives : Prop :=
  ∀ s : State, s.cfg.wf = true → s.cfg.target = .reference → s.MemCanonical → s.cs = false →
    (∀ payload : List Byte, s.chip.modeCode s.cfg = s.cfg.codeRxcont → payload.length ≤ 255 →
      (let t := applyMove (.rxDone payload) s
       let n : Byte := BitVec.ofNat 8 payload.length
       let a := match s.chip.rxNext with
         | some p => p
         | none => s.chip.reg s.cfg.regFifoRxBase
       (∀ i (h : i < payload.length), t.chip.fifoByte (a + BitVec.ofNat 8 i) = payload[i]) ∧
       (∀ q, (∀ i < payload.length, q ≠ a + BitVec.ofNat 8 i) → t.chip.fifoByte q = s.chip.fifoByte q) ∧
       (∀ b, t.chip.reg b =
         if b = s.cfg.regFifoRxCurrent then a
         else if b = s.cfg.regRxNbBytes then n
         else if b = s.cfg.regIrqFlags then s.chip.reg b ||| (1#8 <<< s.cfg.rxDoneBit.val)
         else s.chip.reg b) ∧
       bit (t.chip.reg s.cfg.regIrqFlags) s.cfg.rxDoneBit = true ∧ t.pins.dio = true ∧
       t.chip.rxNext = some (a + n) ∧ t.chip.phase = s.chip.phase ∧ t.chip.latched = s.chip.latched ∧
       t = { s with chip := t.chip, pins := { s.pins with dio := true } })) ∧
    (s.chip.modeCode s.cfg = s.cfg.codeTx →
      (let t := applyMove .txDone s
       (∀ b, t.chip.reg b =
         if b = s.cfg.regIrqFlags then s.chip.reg b ||| (1#8 <<< s.cfg.txDoneBit.val) else s.chip.reg b) ∧
       bit (t.chip.reg s.cfg.regIrqFlags) s.cfg.txDoneBit = true ∧ t.pins.dio = true ∧
       t.chip.fifo = s.chip.fifo ∧ t.chip.rxNext = s.chip.rxNext ∧ t.chip.phase = s.chip.phase ∧
       t.chip.latched = s.chip.latched ∧
       t = { s with chip := t.chip, pins := { s.pins with dio := true } }))
end

