-- ==== Sys2Proof/Laws/State.lean ====
section
/-! SUPPORT. What each shared operation makes of each field of the state: one lemma per field and operation, so that no
proof unfolds a record update. Fields without a lemma under an operation are those it computes from the chip. -/

namespace Sys2Proof.Machine

variable (s : State)

/-! ### emitEvent -/

@[simp] theorem emitEvent_cfg (e : SinkEvent) : (emitEvent e s).cfg = s.cfg := rfl
@[simp] theorem emitEvent_tab (e : SinkEvent) : (emitEvent e s).tab = s.tab := rfl
@[simp] theorem emitEvent_sdr (e : SinkEvent) : (emitEvent e s).sdr = s.sdr := rfl
@[simp] theorem emitEvent_cmdPort (e : SinkEvent) : (emitEvent e s).cmdPort = s.cmdPort := rfl
@[simp] theorem emitEvent_res (e : SinkEvent) : (emitEvent e s).res = s.res := rfl
@[simp] theorem emitEvent_dat (e : SinkEvent) : (emitEvent e s).dat = s.dat := rfl
@[simp] theorem emitEvent_fgVal (e : SinkEvent) : (emitEvent e s).fgVal = s.fgVal := rfl
@[simp] theorem emitEvent_hVal (e : SinkEvent) : (emitEvent e s).hVal = s.hVal := rfl
@[simp] theorem emitEvent_tp (e : SinkEvent) : (emitEvent e s).tp = s.tp := rfl
@[simp] theorem emitEvent_fg (e : SinkEvent) : (emitEvent e s).fg = s.fg := rfl
@[simp] theorem emitEvent_mode (e : SinkEvent) : (emitEvent e s).mode = s.mode := rfl
@[simp] theorem emitEvent_lora (e : SinkEvent) : (emitEvent e s).lora = s.lora := rfl
@[simp] theorem emitEvent_variant (e : SinkEvent) : (emitEvent e s).variant = s.variant := rfl
@[simp] theorem emitEvent_irq (e : SinkEvent) : (emitEvent e s).irq = s.irq := rfl
@[simp] theorem emitEvent_st (e : SinkEvent) : (emitEvent e s).st = s.st := rfl
@[simp] theorem emitEvent_errInfo (e : SinkEvent) : (emitEvent e s).errInfo = s.errInfo := rfl
@[simp] theorem emitEvent_cs (e : SinkEvent) : (emitEvent e s).cs = s.cs := rfl
@[simp] theorem emitEvent_xferDone (e : SinkEvent) : (emitEvent e s).xferDone = s.xferDone := rfl
@[simp] theorem emitEvent_xferBusy (e : SinkEvent) : (emitEvent e s).xferBusy = s.xferBusy := rfl
@[simp] theorem emitEvent_phase (e : SinkEvent) : (emitEvent e s).phase = s.phase := rfl
@[simp] theorem emitEvent_pinLatch (e : SinkEvent) : (emitEvent e s).pinLatch = s.pinLatch := rfl
@[simp] theorem emitEvent_pcPending (e : SinkEvent) : (emitEvent e s).pcPending = s.pcPending := rfl
@[simp] theorem emitEvent_tickPending (e : SinkEvent) : (emitEvent e s).tickPending = s.tickPending := rfl
@[simp] theorem emitEvent_conPending (e : SinkEvent) : (emitEvent e s).conPending = s.conPending := rfl
@[simp] theorem emitEvent_ien (e : SinkEvent) : (emitEvent e s).ien = s.ien := rfl
@[simp] theorem emitEvent_savedIen (e : SinkEvent) : (emitEvent e s).savedIen = s.savedIen := rfl
@[simp] theorem emitEvent_inHandler (e : SinkEvent) : (emitEvent e s).inHandler = s.inHandler := rfl
@[simp] theorem emitEvent_woken (e : SinkEvent) : (emitEvent e s).woken = s.woken := rfl
@[simp] theorem emitEvent_pauseCnt (e : SinkEvent) : (emitEvent e s).pauseCnt = s.pauseCnt := rfl
@[simp] theorem emitEvent_sink (e : SinkEvent) : (emitEvent e s).sink = s.sink ++ [e] := rfl
@[simp] theorem emitEvent_busLog (e : SinkEvent) : (emitEvent e s).busLog = s.busLog := rfl
@[simp] theorem emitEvent_chip (e : SinkEvent) : (emitEvent e s).chip = s.chip := rfl
@[simp] theorem emitEvent_pins (e : SinkEvent) : (emitEvent e s).pins = s.pins := rfl
@[simp] theorem emitEvent_answers (e : SinkEvent) : (emitEvent e s).answers = s.answers := rfl
@[simp] theorem emitEvent_freeIdx (e : SinkEvent) : (emitEvent e s).freeIdx = s.freeIdx := rfl
@[simp] theorem emitEvent_env (e : SinkEvent) : (emitEvent e s).env = s.env := rfl
@[simp] theorem emitEvent_hostSeen (e : SinkEvent) : (emitEvent e s).hostSeen = s.hostSeen := rfl

/-! ### startXfer -/

@[simp] theorem startXfer_cfg (b : Byte) : (startXfer b s).cfg = s.cfg := rfl
@[simp] theorem startXfer_tab (b : Byte) : (startXfer b s).tab = s.tab := rfl
@[simp] theorem startXfer_sdr (b : Byte) : (startXfer b s).sdr = b := rfl
@[simp] theorem startXfer_cmdPort (b : Byte) : (startXfer b s).cmdPort = s.cmdPort := rfl
@[simp] theorem startXfer_res (b : Byte) : (startXfer b s).res = s.res := rfl
@[simp] theorem startXfer_dat (b : Byte) : (startXfer b s).dat = s.dat := rfl
@[simp] theorem startXfer_fgVal (b : Byte) : (startXfer b s).fgVal = s.fgVal := rfl
@[simp] theorem startXfer_hVal (b : Byte) : (startXfer b s).hVal = s.hVal := rfl
@[simp] theorem startXfer_tp (b : Byte) : (startXfer b s).tp = s.tp := rfl
@[simp] theorem startXfer_fg (b : Byte) : (startXfer b s).fg = s.fg := rfl
@[simp] theorem startXfer_mode (b : Byte) : (startXfer b s).mode = s.mode := rfl
@[simp] theorem startXfer_lora (b : Byte) : (startXfer b s).lora = s.lora := rfl
@[simp] theorem startXfer_variant (b : Byte) : (startXfer b s).variant = s.variant := rfl
@[simp] theorem startXfer_irq (b : Byte) : (startXfer b s).irq = s.irq := rfl
@[simp] theorem startXfer_st (b : Byte) : (startXfer b s).st = s.st := rfl
@[simp] theorem startXfer_errInfo (b : Byte) : (startXfer b s).errInfo = s.errInfo := rfl
@[simp] theorem startXfer_cs (b : Byte) : (startXfer b s).cs = s.cs := rfl
@[simp] theorem startXfer_xferDone (b : Byte) : (startXfer b s).xferDone = false := rfl
@[simp] theorem startXfer_xferBusy (b : Byte) : (startXfer b s).xferBusy = true := rfl
@[simp] theorem startXfer_phase (b : Byte) : (startXfer b s).phase = s.phase := rfl
@[simp] theorem startXfer_pinLatch (b : Byte) : (startXfer b s).pinLatch = s.pinLatch := rfl
@[simp] theorem startXfer_pcPending (b : Byte) : (startXfer b s).pcPending = s.pcPending := rfl
@[simp] theorem startXfer_tickPending (b : Byte) : (startXfer b s).tickPending = s.tickPending := rfl
@[simp] theorem startXfer_conPending (b : Byte) : (startXfer b s).conPending = s.conPending := rfl
@[simp] theorem startXfer_ien (b : Byte) : (startXfer b s).ien = s.ien := rfl
@[simp] theorem startXfer_savedIen (b : Byte) : (startXfer b s).savedIen = s.savedIen := rfl
@[simp] theorem startXfer_inHandler (b : Byte) : (startXfer b s).inHandler = s.inHandler := rfl
@[simp] theorem startXfer_woken (b : Byte) : (startXfer b s).woken = s.woken := rfl
@[simp] theorem startXfer_pauseCnt (b : Byte) : (startXfer b s).pauseCnt = s.pauseCnt := rfl
@[simp] theorem startXfer_sink (b : Byte) : (startXfer b s).sink = s.sink := rfl
@[simp] theorem startXfer_busLog (b : Byte) : (startXfer b s).busLog = s.busLog := rfl
@[simp] theorem startXfer_chip (b : Byte) : (startXfer b s).chip = s.chip := rfl
@[simp] theorem startXfer_pins (b : Byte) : (startXfer b s).pins = s.pins := rfl
@[simp] theorem startXfer_answers (b : Byte) : (startXfer b s).answers = s.answers := rfl
@[simp] theorem startXfer_freeIdx (b : Byte) : (startXfer b s).freeIdx = s.freeIdx := rfl
@[simp] theorem startXfer_env (b : Byte) : (startXfer b s).env = s.env := rfl
@[simp] theorem startXfer_hostSeen (b : Byte) : (startXfer b s).hostSeen = s.hostSeen := rfl

/-! ### openFrame -/

@[simp] theorem openFrame_cfg (rw : Bool) (a : Addr) : (openFrame rw a s).cfg = s.cfg := rfl
@[simp] theorem openFrame_tab (rw : Bool) (a : Addr) : (openFrame rw a s).tab = s.tab := rfl
@[simp] theorem openFrame_sdr (rw : Bool) (a : Addr) : (openFrame rw a s).sdr = addrByte rw a := rfl
@[simp] theorem openFrame_cmdPort (rw : Bool) (a : Addr) : (openFrame rw a s).cmdPort = s.cmdPort := rfl
@[simp] theorem openFrame_res (rw : Bool) (a : Addr) : (openFrame rw a s).res = s.res := rfl
@[simp] theorem openFrame_dat (rw : Bool) (a : Addr) : (openFrame rw a s).dat = s.dat := rfl
@[simp] theorem openFrame_fgVal (rw : Bool) (a : Addr) : (openFrame rw a s).fgVal = s.fgVal := rfl
@[simp] theorem openFrame_hVal (rw : Bool) (a : Addr) : (openFrame rw a s).hVal = s.hVal := rfl
@[simp] theorem openFrame_tp (rw : Bool) (a : Addr) : (openFrame rw a s).tp = s.tp := rfl
@[simp] theorem openFrame_fg (rw : Bool) (a : Addr) : (openFrame rw a s).fg = s.fg := rfl
@[simp] theorem openFrame_mode (rw : Bool) (a : Addr) : (openFrame rw a s).mode = s.mode := rfl
@[simp] theorem openFrame_lora (rw : Bool) (a : Addr) : (openFrame rw a s).lora = s.lora := rfl
@[simp] theorem openFrame_variant (rw : Bool) (a : Addr) : (openFrame rw a s).variant = s.variant := rfl
@[simp] theorem openFrame_irq (rw : Bool) (a : Addr) : (openFrame rw a s).irq = s.irq := rfl
@[simp] theorem openFrame_st (rw : Bool) (a : Addr) : (openFrame rw a s).st = s.st := rfl
@[simp] theorem openFrame_errInfo (rw : Bool) (a : Addr) : (openFrame rw a s).errInfo = s.errInfo := rfl
@[simp] theorem openFrame_cs (rw : Bool) (a : Addr) : (openFrame rw a s).cs = true := rfl
@[simp] theorem openFrame_xferDone (rw : Bool) (a : Addr) : (openFrame rw a s).xferDone = false := rfl
@[simp] theorem openFrame_xferBusy (rw : Bool) (a : Addr) : (openFrame rw a s).xferBusy = true := rfl
@[simp] theorem openFrame_phase (rw : Bool) (a : Addr) : (openFrame rw a s).phase = .addr := rfl
@[simp] theorem openFrame_pinLatch (rw : Bool) (a : Addr) : (openFrame rw a s).pinLatch = s.pinLatch := rfl
@[simp] theorem openFrame_pcPending (rw : Bool) (a : Addr) : (openFrame rw a s).pcPending = s.pcPending := rfl
@[simp] theorem openFrame_tickPending (rw : Bool) (a : Addr) : (openFrame rw a s).tickPending = s.tickPending := rfl
@[simp] theorem openFrame_conPending (rw : Bool) (a : Addr) : (openFrame rw a s).conPending = s.conPending := rfl
@[simp] theorem openFrame_ien (rw : Bool) (a : Addr) : (openFrame rw a s).ien = s.ien := rfl
@[simp] theorem openFrame_savedIen (rw : Bool) (a : Addr) : (openFrame rw a s).savedIen = s.savedIen := rfl
@[simp] theorem openFrame_inHandler (rw : Bool) (a : Addr) : (openFrame rw a s).inHandler = s.inHandler := rfl
@[simp] theorem openFrame_woken (rw : Bool) (a : Addr) : (openFrame rw a s).woken = s.woken := rfl
@[simp] theorem openFrame_pauseCnt (rw : Bool) (a : Addr) : (openFrame rw a s).pauseCnt = s.pauseCnt := rfl
@[simp] theorem openFrame_sink (rw : Bool) (a : Addr) : (openFrame rw a s).sink = s.sink := rfl
@[simp] theorem openFrame_busLog (rw : Bool) (a : Addr) : (openFrame rw a s).busLog = s.busLog := rfl
@[simp] theorem openFrame_chip (rw : Bool) (a : Addr) : (openFrame rw a s).chip = s.chip.select := rfl
@[simp] theorem openFrame_pins (rw : Bool) (a : Addr) : (openFrame rw a s).pins = s.pins := rfl
@[simp] theorem openFrame_answers (rw : Bool) (a : Addr) : (openFrame rw a s).answers = s.answers := rfl
@[simp] theorem openFrame_freeIdx (rw : Bool) (a : Addr) : (openFrame rw a s).freeIdx = s.freeIdx := rfl
@[simp] theorem openFrame_env (rw : Bool) (a : Addr) : (openFrame rw a s).env = s.env := rfl
@[simp] theorem openFrame_hostSeen (rw : Bool) (a : Addr) : (openFrame rw a s).hostSeen = s.hostSeen := rfl

/-! ### returnFromHandler -/

@[simp] theorem returnFromHandler_cfg : (returnFromHandler s).cfg = s.cfg := rfl
@[simp] theorem returnFromHandler_tab : (returnFromHandler s).tab = s.tab := rfl
@[simp] theorem returnFromHandler_sdr : (returnFromHandler s).sdr = s.sdr := rfl
@[simp] theorem returnFromHandler_cmdPort : (returnFromHandler s).cmdPort = s.cmdPort := rfl
@[simp] theorem returnFromHandler_res : (returnFromHandler s).res = s.res := rfl
@[simp] theorem returnFromHandler_dat : (returnFromHandler s).dat = s.dat := rfl
@[simp] theorem returnFromHandler_fgVal : (returnFromHandler s).fgVal = s.fgVal := rfl
@[simp] theorem returnFromHandler_hVal : (returnFromHandler s).hVal = s.hVal := rfl
@[simp] theorem returnFromHandler_tp : (returnFromHandler s).tp = s.tp := rfl
@[simp] theorem returnFromHandler_fg : (returnFromHandler s).fg = s.fg := rfl
@[simp] theorem returnFromHandler_mode : (returnFromHandler s).mode = s.mode := rfl
@[simp] theorem returnFromHandler_lora : (returnFromHandler s).lora = s.lora := rfl
@[simp] theorem returnFromHandler_variant : (returnFromHandler s).variant = s.variant := rfl
@[simp] theorem returnFromHandler_irq : (returnFromHandler s).irq = s.irq := rfl
@[simp] theorem returnFromHandler_st : (returnFromHandler s).st = s.st := rfl
@[simp] theorem returnFromHandler_errInfo : (returnFromHandler s).errInfo = s.errInfo := rfl
@[simp] theorem returnFromHandler_cs : (returnFromHandler s).cs = s.cs := rfl
@[simp] theorem returnFromHandler_xferDone : (returnFromHandler s).xferDone = s.xferDone := rfl
@[simp] theorem returnFromHandler_xferBusy : (returnFromHandler s).xferBusy = s.xferBusy := rfl
@[simp] theorem returnFromHandler_phase : (returnFromHandler s).phase = s.phase := rfl
@[simp] theorem returnFromHandler_pinLatch : (returnFromHandler s).pinLatch = s.pinLatch := rfl
@[simp] theorem returnFromHandler_pcPending : (returnFromHandler s).pcPending = s.pcPending := rfl
@[simp] theorem returnFromHandler_tickPending : (returnFromHandler s).tickPending = s.tickPending := rfl
@[simp] theorem returnFromHandler_conPending : (returnFromHandler s).conPending = s.conPending := rfl
@[simp] theorem returnFromHandler_ien : (returnFromHandler s).ien = s.savedIen := rfl
@[simp] theorem returnFromHandler_savedIen : (returnFromHandler s).savedIen = s.savedIen := rfl
@[simp] theorem returnFromHandler_inHandler : (returnFromHandler s).inHandler = .noHandler := rfl
@[simp] theorem returnFromHandler_woken : (returnFromHandler s).woken = true := rfl
@[simp] theorem returnFromHandler_pauseCnt : (returnFromHandler s).pauseCnt = s.pauseCnt := rfl
@[simp] theorem returnFromHandler_sink : (returnFromHandler s).sink = s.sink := rfl
@[simp] theorem returnFromHandler_busLog : (returnFromHandler s).busLog = s.busLog := rfl
@[simp] theorem returnFromHandler_chip : (returnFromHandler s).chip = s.chip := rfl
@[simp] theorem returnFromHandler_pins : (returnFromHandler s).pins = s.pins := rfl
@[simp] theorem returnFromHandler_answers : (returnFromHandler s).answers = s.answers := rfl
@[simp] theorem returnFromHandler_freeIdx : (returnFromHandler s).freeIdx = s.freeIdx := rfl
@[simp] theorem returnFromHandler_env : (returnFromHandler s).env = s.env := rfl
@[simp] theorem returnFromHandler_hostSeen : (returnFromHandler s).hostSeen = s.hostSeen := rfl

/-! ### enterHandler -/

@[simp] theorem enterHandler_cfg (x : Source) : (enterHandler x s).cfg = s.cfg :=
  by cases x <;> simp [enterHandler, clearPending]
@[simp] theorem enterHandler_tab (x : Source) : (enterHandler x s).tab = s.tab :=
  by cases x <;> simp [enterHandler, clearPending]
@[simp] theorem enterHandler_sdr (x : Source) : (enterHandler x s).sdr = s.sdr :=
  by cases x <;> simp [enterHandler, clearPending]
@[simp] theorem enterHandler_cmdPort (x : Source) : (enterHandler x s).cmdPort = s.cmdPort :=
  by cases x <;> simp [enterHandler, clearPending]
@[simp] theorem enterHandler_res (x : Source) : (enterHandler x s).res = s.res :=
  by cases x <;> simp [enterHandler, clearPending]
@[simp] theorem enterHandler_dat (x : Source) : (enterHandler x s).dat = s.dat :=
  by cases x <;> simp [enterHandler, clearPending]
@[simp] theorem enterHandler_fgVal (x : Source) : (enterHandler x s).fgVal = s.fgVal :=
  by cases x <;> simp [enterHandler, clearPending]
@[simp] theorem enterHandler_hVal (x : Source) : (enterHandler x s).hVal = s.hVal :=
  by cases x <;> simp [enterHandler, clearPending]
@[simp] theorem enterHandler_tp (x : Source) : (enterHandler x s).tp = s.tp :=
  by cases x <;> simp [enterHandler, clearPending]
@[simp] theorem enterHandler_fg (x : Source) : (enterHandler x s).fg = s.fg :=
  by cases x <;> simp [enterHandler, clearPending]
@[simp] theorem enterHandler_mode (x : Source) : (enterHandler x s).mode = s.mode :=
  by cases x <;> simp [enterHandler, clearPending]
@[simp] theorem enterHandler_lora (x : Source) : (enterHandler x s).lora = s.lora :=
  by cases x <;> simp [enterHandler, clearPending]
@[simp] theorem enterHandler_variant (x : Source) : (enterHandler x s).variant = s.variant :=
  by cases x <;> simp [enterHandler, clearPending]
@[simp] theorem enterHandler_irq (x : Source) : (enterHandler x s).irq = s.irq :=
  by cases x <;> simp [enterHandler, clearPending]
@[simp] theorem enterHandler_st (x : Source) : (enterHandler x s).st = s.st :=
  by cases x <;> simp [enterHandler, clearPending]
@[simp] theorem enterHandler_errInfo (x : Source) : (enterHandler x s).errInfo = s.errInfo :=
  by cases x <;> simp [enterHandler, clearPending]
@[simp] theorem enterHandler_cs (x : Source) : (enterHandler x s).cs = s.cs :=
  by cases x <;> simp [enterHandler, clearPending]
@[simp] theorem enterHandler_xferDone (x : Source) : (enterHandler x s).xferDone = s.xferDone :=
  by cases x <;> simp [enterHandler, clearPending]
@[simp] theorem enterHandler_xferBusy (x : Source) : (enterHandler x s).xferBusy = s.xferBusy :=
  by cases x <;> simp [enterHandler, clearPending]
@[simp] theorem enterHandler_phase (x : Source) : (enterHandler x s).phase = s.phase :=
  by cases x <;> simp [enterHandler, clearPending]
@[simp] theorem enterHandler_pinLatch (x : Source) : (enterHandler x s).pinLatch = s.pinLatch :=
  by cases x <;> simp [enterHandler, clearPending]
@[simp] theorem enterHandler_pcPending (x : Source) :
    (enterHandler x s).pcPending = (s.pcPending && x != .pinChange) :=
  by cases x <;> simp [enterHandler, clearPending]
@[simp] theorem enterHandler_tickPending (x : Source) :
    (enterHandler x s).tickPending = (s.tickPending && x != .tick) :=
  by cases x <;> simp [enterHandler, clearPending]
@[simp] theorem enterHandler_conPending (x : Source) :
    (enterHandler x s).conPending = (s.conPending && x != .console) :=
  by cases x <;> simp [enterHandler, clearPending]
@[simp] theorem enterHandler_ien (x : Source) : (enterHandler x s).ien = false :=
  by cases x <;> simp [enterHandler, clearPending]
@[simp] theorem enterHandler_savedIen (x : Source) : (enterHandler x s).savedIen = s.ien :=
  by cases x <;> simp [enterHandler, clearPending]
@[simp] theorem enterHandler_inHandler (x : Source) : (enterHandler x s).inHandler = handlerOf x :=
  by cases x <;> simp [enterHandler, clearPending]
@[simp] theorem enterHandler_woken (x : Source) : (enterHandler x s).woken = s.woken :=
  by cases x <;> simp [enterHandler, clearPending]
@[simp] theorem enterHandler_pauseCnt (x : Source) : (enterHandler x s).pauseCnt = s.pauseCnt :=
  by cases x <;> simp [enterHandler, clearPending]
@[simp] theorem enterHandler_sink (x : Source) : (enterHandler x s).sink = s.sink :=
  by cases x <;> simp [enterHandler, clearPending]
@[simp] theorem enterHandler_busLog (x : Source) : (enterHandler x s).busLog = s.busLog :=
  by cases x <;> simp [enterHandler, clearPending]
@[simp] theorem enterHandler_chip (x : Source) : (enterHandler x s).chip = s.chip :=
  by cases x <;> simp [enterHandler, clearPending]
@[simp] theorem enterHandler_pins (x : Source) : (enterHandler x s).pins = s.pins :=
  by cases x <;> simp [enterHandler, clearPending]
@[simp] theorem enterHandler_answers (x : Source) : (enterHandler x s).answers = s.answers :=
  by cases x <;> simp [enterHandler, clearPending]
@[simp] theorem enterHandler_freeIdx (x : Source) : (enterHandler x s).freeIdx = s.freeIdx :=
  by cases x <;> simp [enterHandler, clearPending]
@[simp] theorem enterHandler_env (x : Source) : (enterHandler x s).env = s.env :=
  by cases x <;> simp [enterHandler, clearPending]
@[simp] theorem enterHandler_hostSeen (x : Source) : (enterHandler x s).hostSeen = s.hostSeen :=
  by cases x <;> simp [enterHandler, clearPending]

/-! ### flagFault -/

@[simp] theorem flagFault_cfg (f : FaultBit) (i : BitVec 16) : (flagFault f i s).cfg = s.cfg := rfl
@[simp] theorem flagFault_tab (f : FaultBit) (i : BitVec 16) : (flagFault f i s).tab = s.tab := rfl
@[simp] theorem flagFault_sdr (f : FaultBit) (i : BitVec 16) : (flagFault f i s).sdr = s.sdr := rfl
@[simp] theorem flagFault_cmdPort (f : FaultBit) (i : BitVec 16) : (flagFault f i s).cmdPort = s.cmdPort := rfl
@[simp] theorem flagFault_res (f : FaultBit) (i : BitVec 16) : (flagFault f i s).res = s.res := rfl
@[simp] theorem flagFault_dat (f : FaultBit) (i : BitVec 16) : (flagFault f i s).dat = s.dat := rfl
@[simp] theorem flagFault_fgVal (f : FaultBit) (i : BitVec 16) : (flagFault f i s).fgVal = s.fgVal := rfl
@[simp] theorem flagFault_hVal (f : FaultBit) (i : BitVec 16) : (flagFault f i s).hVal = s.hVal := rfl
@[simp] theorem flagFault_tp (f : FaultBit) (i : BitVec 16) : (flagFault f i s).tp = s.tp := rfl
@[simp] theorem flagFault_fg (f : FaultBit) (i : BitVec 16) : (flagFault f i s).fg = s.fg := rfl
@[simp] theorem flagFault_mode (f : FaultBit) (i : BitVec 16) : (flagFault f i s).mode = s.mode := rfl
@[simp] theorem flagFault_lora (f : FaultBit) (i : BitVec 16) : (flagFault f i s).lora = s.lora := rfl
@[simp] theorem flagFault_variant (f : FaultBit) (i : BitVec 16) : (flagFault f i s).variant = s.variant := rfl
@[simp] theorem flagFault_irq (f : FaultBit) (i : BitVec 16) : (flagFault f i s).irq = s.irq := rfl
@[simp] theorem flagFault_st (f : FaultBit) (i : BitVec 16) : (flagFault f i s).st = s.st.set f := rfl
@[simp] theorem flagFault_errInfo (f : FaultBit) (i : BitVec 16) :
    (flagFault f i s).errInfo = if s.st.noFault then i else s.errInfo :=
  rfl
@[simp] theorem flagFault_cs (f : FaultBit) (i : BitVec 16) : (flagFault f i s).cs = s.cs := rfl
@[simp] theorem flagFault_xferDone (f : FaultBit) (i : BitVec 16) : (flagFault f i s).xferDone = s.xferDone := rfl
@[simp] theorem flagFault_xferBusy (f : FaultBit) (i : BitVec 16) : (flagFault f i s).xferBusy = s.xferBusy := rfl
@[simp] theorem flagFault_phase (f : FaultBit) (i : BitVec 16) : (flagFault f i s).phase = s.phase := rfl
@[simp] theorem flagFault_pinLatch (f : FaultBit) (i : BitVec 16) : (flagFault f i s).pinLatch = s.pinLatch := rfl
@[simp] theorem flagFault_pcPending (f : FaultBit) (i : BitVec 16) : (flagFault f i s).pcPending = s.pcPending := rfl
@[simp] theorem flagFault_tickPending (f : FaultBit) (i : BitVec 16) :
    (flagFault f i s).tickPending = s.tickPending :=
  rfl
@[simp] theorem flagFault_conPending (f : FaultBit) (i : BitVec 16) : (flagFault f i s).conPending = s.conPending :=
  rfl
@[simp] theorem flagFault_ien (f : FaultBit) (i : BitVec 16) : (flagFault f i s).ien = s.ien := rfl
@[simp] theorem flagFault_savedIen (f : FaultBit) (i : BitVec 16) : (flagFault f i s).savedIen = s.savedIen := rfl
@[simp] theorem flagFault_inHandler (f : FaultBit) (i : BitVec 16) : (flagFault f i s).inHandler = s.inHandler := rfl
@[simp] theorem flagFault_woken (f : FaultBit) (i : BitVec 16) : (flagFault f i s).woken = s.woken := rfl
@[simp] theorem flagFault_pauseCnt (f : FaultBit) (i : BitVec 16) : (flagFault f i s).pauseCnt = s.pauseCnt := rfl
@[simp] theorem flagFault_sink (f : FaultBit) (i : BitVec 16) : (flagFault f i s).sink = s.sink := rfl
@[simp] theorem flagFault_busLog (f : FaultBit) (i : BitVec 16) : (flagFault f i s).busLog = s.busLog := rfl
@[simp] theorem flagFault_chip (f : FaultBit) (i : BitVec 16) : (flagFault f i s).chip = s.chip := rfl
@[simp] theorem flagFault_pins (f : FaultBit) (i : BitVec 16) : (flagFault f i s).pins = s.pins := rfl
@[simp] theorem flagFault_answers (f : FaultBit) (i : BitVec 16) : (flagFault f i s).answers = s.answers := rfl
@[simp] theorem flagFault_freeIdx (f : FaultBit) (i : BitVec 16) : (flagFault f i s).freeIdx = s.freeIdx := rfl
@[simp] theorem flagFault_env (f : FaultBit) (i : BitVec 16) : (flagFault f i s).env = s.env := rfl
@[simp] theorem flagFault_hostSeen (f : FaultBit) (i : BitVec 16) : (flagFault f i s).hostSeen = s.hostSeen := rfl

/-! ### trackOpmode -/

@[simp] theorem trackOpmode_cfg (d : Byte) : (trackOpmode d s).cfg = s.cfg := rfl
@[simp] theorem trackOpmode_tab (d : Byte) : (trackOpmode d s).tab = s.tab := rfl
@[simp] theorem trackOpmode_sdr (d : Byte) : (trackOpmode d s).sdr = s.sdr := rfl
@[simp] theorem trackOpmode_cmdPort (d : Byte) : (trackOpmode d s).cmdPort = s.cmdPort := rfl
@[simp] theorem trackOpmode_res (d : Byte) : (trackOpmode d s).res = s.res := rfl
@[simp] theorem trackOpmode_dat (d : Byte) : (trackOpmode d s).dat = s.dat := rfl
@[simp] theorem trackOpmode_fgVal (d : Byte) : (trackOpmode d s).fgVal = s.fgVal := rfl
@[simp] theorem trackOpmode_hVal (d : Byte) : (trackOpmode d s).hVal = s.hVal := rfl
@[simp] theorem trackOpmode_tp (d : Byte) : (trackOpmode d s).tp = s.tp := rfl
@[simp] theorem trackOpmode_fg (d : Byte) : (trackOpmode d s).fg = s.fg := rfl
@[simp] theorem trackOpmode_mode (d : Byte) : (trackOpmode d s).mode = (track s.cfg s.mode s.lora d).mode := rfl
@[simp] theorem trackOpmode_lora (d : Byte) : (trackOpmode d s).lora = (track s.cfg s.mode s.lora d).lora := rfl
@[simp] theorem trackOpmode_variant (d : Byte) : (trackOpmode d s).variant = s.variant := rfl
@[simp] theorem trackOpmode_irq (d : Byte) : (trackOpmode d s).irq = s.irq := rfl
@[simp] theorem trackOpmode_st (d : Byte) :
    (trackOpmode d s).st = (trackFaults (track s.cfg s.mode s.lora d) s.mode d s.errRecord).st :=
  rfl
@[simp] theorem trackOpmode_errInfo (d : Byte) :
    (trackOpmode d s).errInfo = (trackFaults (track s.cfg s.mode s.lora d) s.mode d s.errRecord).info :=
  rfl
@[simp] theorem trackOpmode_cs (d : Byte) : (trackOpmode d s).cs = s.cs := rfl
@[simp] theorem trackOpmode_xferDone (d : Byte) : (trackOpmode d s).xferDone = s.xferDone := rfl
@[simp] theorem trackOpmode_xferBusy (d : Byte) : (trackOpmode d s).xferBusy = s.xferBusy := rfl
@[simp] theorem trackOpmode_phase (d : Byte) : (trackOpmode d s).phase = s.phase := rfl
@[simp] theorem trackOpmode_pinLatch (d : Byte) : (trackOpmode d s).pinLatch = s.pinLatch := rfl
@[simp] theorem trackOpmode_pcPending (d : Byte) : (trackOpmode d s).pcPending = s.pcPending := rfl
@[simp] theorem trackOpmode_tickPending (d : Byte) : (trackOpmode d s).tickPending = s.tickPending := rfl
@[simp] theorem trackOpmode_conPending (d : Byte) : (trackOpmode d s).conPending = s.conPending := rfl
@[simp] theorem trackOpmode_ien (d : Byte) : (trackOpmode d s).ien = s.ien := rfl
@[simp] theorem trackOpmode_savedIen (d : Byte) : (trackOpmode d s).savedIen = s.savedIen := rfl
@[simp] theorem trackOpmode_inHandler (d : Byte) : (trackOpmode d s).inHandler = s.inHandler := rfl
@[simp] theorem trackOpmode_woken (d : Byte) : (trackOpmode d s).woken = s.woken := rfl
@[simp] theorem trackOpmode_pauseCnt (d : Byte) : (trackOpmode d s).pauseCnt = s.pauseCnt := rfl
@[simp] theorem trackOpmode_sink (d : Byte) : (trackOpmode d s).sink = s.sink := rfl
@[simp] theorem trackOpmode_busLog (d : Byte) : (trackOpmode d s).busLog = s.busLog := rfl
@[simp] theorem trackOpmode_chip (d : Byte) : (trackOpmode d s).chip = s.chip := rfl
@[simp] theorem trackOpmode_pins (d : Byte) : (trackOpmode d s).pins = s.pins := rfl
@[simp] theorem trackOpmode_answers (d : Byte) : (trackOpmode d s).answers = s.answers := rfl
@[simp] theorem trackOpmode_freeIdx (d : Byte) : (trackOpmode d s).freeIdx = s.freeIdx := rfl
@[simp] theorem trackOpmode_env (d : Byte) : (trackOpmode d s).env = s.env := rfl
@[simp] theorem trackOpmode_hostSeen (d : Byte) : (trackOpmode d s).hostSeen = s.hostSeen := rfl

/-! ### closeFrame -/

@[simp] theorem closeFrame_cfg (rw : Bool) (a : Addr) (d : Byte) : (closeFrame rw a d s).cfg = s.cfg :=
  by simp only [closeFrame, frameDone]; split_ifs <;> rfl
@[simp] theorem closeFrame_tab (rw : Bool) (a : Addr) (d : Byte) : (closeFrame rw a d s).tab = s.tab :=
  by simp only [closeFrame, frameDone]; split_ifs <;> rfl
@[simp] theorem closeFrame_sdr (rw : Bool) (a : Addr) (d : Byte) : (closeFrame rw a d s).sdr = s.sdr :=
  by simp only [closeFrame, frameDone]; split_ifs <;> rfl
@[simp] theorem closeFrame_cmdPort (rw : Bool) (a : Addr) (d : Byte) : (closeFrame rw a d s).cmdPort = s.cmdPort :=
  by simp only [closeFrame, frameDone]; split_ifs <;> rfl
@[simp] theorem closeFrame_res (rw : Bool) (a : Addr) (d : Byte) : (closeFrame rw a d s).res = s.res :=
  by simp only [closeFrame, frameDone]; split_ifs <;> rfl
@[simp] theorem closeFrame_dat (rw : Bool) (a : Addr) (d : Byte) : (closeFrame rw a d s).dat = s.dat :=
  by simp only [closeFrame, frameDone]; split_ifs <;> rfl
@[simp] theorem closeFrame_fgVal (rw : Bool) (a : Addr) (d : Byte) : (closeFrame rw a d s).fgVal = s.fgVal :=
  by simp only [closeFrame, frameDone]; split_ifs <;> rfl
@[simp] theorem closeFrame_hVal (rw : Bool) (a : Addr) (d : Byte) : (closeFrame rw a d s).hVal = s.hVal :=
  by simp only [closeFrame, frameDone]; split_ifs <;> rfl
@[simp] theorem closeFrame_tp (rw : Bool) (a : Addr) (d : Byte) : (closeFrame rw a d s).tp = s.tp :=
  by simp only [closeFrame, frameDone]; split_ifs <;> rfl
@[simp] theorem closeFrame_fg (rw : Bool) (a : Addr) (d : Byte) : (closeFrame rw a d s).fg = s.fg :=
  by simp only [closeFrame, frameDone]; split_ifs <;> rfl
@[simp] theorem closeFrame_mode (rw : Bool) (a : Addr) (d : Byte) :
    (closeFrame rw a d s).mode = if a = s.cfg.regOpmode ∧ rw = true then (track s.cfg s.mode s.lora (if rw then d else s.sdr)).mode else s.mode :=
  by simp only [closeFrame, frameDone]; split_ifs <;> rfl
@[simp] theorem closeFrame_lora (rw : Bool) (a : Addr) (d : Byte) :
    (closeFrame rw a d s).lora = if a = s.cfg.regOpmode ∧ rw = true then (track s.cfg s.mode s.lora (if rw then d else s.sdr)).lora else s.lora :=
  by simp only [closeFrame, frameDone]; split_ifs <;> rfl
@[simp] theorem closeFrame_variant (rw : Bool) (a : Addr) (d : Byte) : (closeFrame rw a d s).variant = s.variant :=
  by simp only [closeFrame, frameDone]; split_ifs <;> rfl
@[simp] theorem closeFrame_irq (rw : Bool) (a : Addr) (d : Byte) :
    (closeFrame rw a d s).irq = if a = s.cfg.regIrqFlags then irqAfter s.irq rw (if rw then d else s.sdr) else s.irq :=
  by simp only [closeFrame, frameDone]; split_ifs <;> rfl
@[simp] theorem closeFrame_st (rw : Bool) (a : Addr) (d : Byte) :
    (closeFrame rw a d s).st = if a = s.cfg.regOpmode ∧ rw = true then (trackFaults (track s.cfg s.mode s.lora (if rw then d else s.sdr)) s.mode (if rw then d else s.sdr) s.errRecord).st else s.st :=
  by simp only [closeFrame, frameDone]; split_ifs <;> rfl
@[simp] theorem closeFrame_errInfo (rw : Bool) (a : Addr) (d : Byte) :
    (closeFrame rw a d s).errInfo = if a = s.cfg.regOpmode ∧ rw = true then (trackFaults (track s.cfg s.mode s.lora (if rw then d else s.sdr)) s.mode (if rw then d else s.sdr) s.errRecord).info else s.errInfo :=
  by simp only [closeFrame, frameDone]; split_ifs <;> rfl
@[simp] theorem closeFrame_cs (rw : Bool) (a : Addr) (d : Byte) : (closeFrame rw a d s).cs = false :=
  by simp only [closeFrame, frameDone]; split_ifs <;> rfl
@[simp] theorem closeFrame_xferDone (rw : Bool) (a : Addr) (d : Byte) : (closeFrame rw a d s).xferDone = s.xferDone :=
  by simp only [closeFrame, frameDone]; split_ifs <;> rfl
@[simp] theorem closeFrame_xferBusy (rw : Bool) (a : Addr) (d : Byte) : (closeFrame rw a d s).xferBusy = s.xferBusy :=
  by simp only [closeFrame, frameDone]; split_ifs <;> rfl
@[simp] theorem closeFrame_phase (rw : Bool) (a : Addr) (d : Byte) : (closeFrame rw a d s).phase = s.phase :=
  by simp only [closeFrame, frameDone]; split_ifs <;> rfl
@[simp] theorem closeFrame_pinLatch (rw : Bool) (a : Addr) (d : Byte) : (closeFrame rw a d s).pinLatch = s.pinLatch :=
  by simp only [closeFrame, frameDone]; split_ifs <;> rfl
@[simp] theorem closeFrame_pcPending (rw : Bool) (a : Addr) (d : Byte) :
    (closeFrame rw a d s).pcPending = s.pcPending :=
  by simp only [closeFrame, frameDone]; split_ifs <;> rfl
@[simp] theorem closeFrame_tickPending (rw : Bool) (a : Addr) (d : Byte) :
    (closeFrame rw a d s).tickPending = s.tickPending :=
  by simp only [closeFrame, frameDone]; split_ifs <;> rfl
@[simp] theorem closeFrame_conPending (rw : Bool) (a : Addr) (d : Byte) :
    (closeFrame rw a d s).conPending = s.conPending :=
  by simp only [closeFrame, frameDone]; split_ifs <;> rfl
@[simp] theorem closeFrame_ien (rw : Bool) (a : Addr) (d : Byte) : (closeFrame rw a d s).ien = s.ien :=
  by simp only [closeFrame, frameDone]; split_ifs <;> rfl
@[simp] theorem closeFrame_savedIen (rw : Bool) (a : Addr) (d : Byte) : (closeFrame rw a d s).savedIen = s.savedIen :=
  by simp only [closeFrame, frameDone]; split_ifs <;> rfl
@[simp] theorem closeFrame_inHandler (rw : Bool) (a : Addr) (d : Byte) :
    (closeFrame rw a d s).inHandler = s.inHandler :=
  by simp only [closeFrame, frameDone]; split_ifs <;> rfl
@[simp] theorem closeFrame_woken (rw : Bool) (a : Addr) (d : Byte) : (closeFrame rw a d s).woken = s.woken :=
  by simp only [closeFrame, frameDone]; split_ifs <;> rfl
@[simp] theorem closeFrame_pauseCnt (rw : Bool) (a : Addr) (d : Byte) : (closeFrame rw a d s).pauseCnt = s.pauseCnt :=
  by simp only [closeFrame, frameDone]; split_ifs <;> rfl
@[simp] theorem closeFrame_sink (rw : Bool) (a : Addr) (d : Byte) : (closeFrame rw a d s).sink = s.sink :=
  by simp only [closeFrame, frameDone]; split_ifs <;> rfl
@[simp] theorem closeFrame_busLog (rw : Bool) (a : Addr) (d : Byte) :
    (closeFrame rw a d s).busLog = s.busLog ++ [.frame rw a (if rw then d else s.sdr)] :=
  by simp only [closeFrame, frameDone]; split_ifs <;> rfl
@[simp] theorem closeFrame_chip (rw : Bool) (a : Addr) (d : Byte) : (closeFrame rw a d s).chip = s.chip.deselect :=
  by simp only [closeFrame, frameDone]; split_ifs <;> rfl
@[simp] theorem closeFrame_pins (rw : Bool) (a : Addr) (d : Byte) : (closeFrame rw a d s).pins = s.pins :=
  by simp only [closeFrame, frameDone]; split_ifs <;> rfl
@[simp] theorem closeFrame_answers (rw : Bool) (a : Addr) (d : Byte) : (closeFrame rw a d s).answers = s.answers :=
  by simp only [closeFrame, frameDone]; split_ifs <;> rfl
@[simp] theorem closeFrame_freeIdx (rw : Bool) (a : Addr) (d : Byte) : (closeFrame rw a d s).freeIdx = s.freeIdx :=
  by simp only [closeFrame, frameDone]; split_ifs <;> rfl
@[simp] theorem closeFrame_env (rw : Bool) (a : Addr) (d : Byte) : (closeFrame rw a d s).env = s.env :=
  by simp only [closeFrame, frameDone]; split_ifs <;> rfl
@[simp] theorem closeFrame_hostSeen (rw : Bool) (a : Addr) (d : Byte) : (closeFrame rw a d s).hostSeen = s.hostSeen :=
  by simp only [closeFrame, frameDone]; split_ifs <;> rfl

/-! ### driveDio -/

@[simp] theorem driveDio_cfg : (driveDio s).cfg = s.cfg := by unfold driveDio; split <;> rfl
@[simp] theorem driveDio_tab : (driveDio s).tab = s.tab := by unfold driveDio; split <;> rfl
@[simp] theorem driveDio_sdr : (driveDio s).sdr = s.sdr := by unfold driveDio; split <;> rfl
@[simp] theorem driveDio_cmdPort : (driveDio s).cmdPort = s.cmdPort := by unfold driveDio; split <;> rfl
@[simp] theorem driveDio_res : (driveDio s).res = s.res := by unfold driveDio; split <;> rfl
@[simp] theorem driveDio_dat : (driveDio s).dat = s.dat := by unfold driveDio; split <;> rfl
@[simp] theorem driveDio_fgVal : (driveDio s).fgVal = s.fgVal := by unfold driveDio; split <;> rfl
@[simp] theorem driveDio_hVal : (driveDio s).hVal = s.hVal := by unfold driveDio; split <;> rfl
@[simp] theorem driveDio_tp : (driveDio s).tp = s.tp := by unfold driveDio; split <;> rfl
@[simp] theorem driveDio_fg : (driveDio s).fg = s.fg := by unfold driveDio; split <;> rfl
@[simp] theorem driveDio_mode : (driveDio s).mode = s.mode := by unfold driveDio; split <;> rfl
@[simp] theorem driveDio_lora : (driveDio s).lora = s.lora := by unfold driveDio; split <;> rfl
@[simp] theorem driveDio_variant : (driveDio s).variant = s.variant := by unfold driveDio; split <;> rfl
@[simp] theorem driveDio_irq : (driveDio s).irq = s.irq := by unfold driveDio; split <;> rfl
@[simp] theorem driveDio_st : (driveDio s).st = s.st := by unfold driveDio; split <;> rfl
@[simp] theorem driveDio_errInfo : (driveDio s).errInfo = s.errInfo := by unfold driveDio; split <;> rfl
@[simp] theorem driveDio_cs : (driveDio s).cs = s.cs := by unfold driveDio; split <;> rfl
@[simp] theorem driveDio_xferDone : (driveDio s).xferDone = s.xferDone := by unfold driveDio; split <;> rfl
@[simp] theorem driveDio_xferBusy : (driveDio s).xferBusy = s.xferBusy := by unfold driveDio; split <;> rfl
@[simp] theorem driveDio_phase : (driveDio s).phase = s.phase := by unfold driveDio; split <;> rfl
@[simp] theorem driveDio_pinLatch : (driveDio s).pinLatch = s.pinLatch := by unfold driveDio; split <;> rfl
@[simp] theorem driveDio_pcPending : (driveDio s).pcPending = s.pcPending := by unfold driveDio; split <;> rfl
@[simp] theorem driveDio_tickPending : (driveDio s).tickPending = s.tickPending := by unfold driveDio; split <;> rfl
@[simp] theorem driveDio_conPending : (driveDio s).conPending = s.conPending := by unfold driveDio; split <;> rfl
@[simp] theorem driveDio_ien : (driveDio s).ien = s.ien := by unfold driveDio; split <;> rfl
@[simp] theorem driveDio_savedIen : (driveDio s).savedIen = s.savedIen := by unfold driveDio; split <;> rfl
@[simp] theorem driveDio_inHandler : (driveDio s).inHandler = s.inHandler := by unfold driveDio; split <;> rfl
@[simp] theorem driveDio_woken : (driveDio s).woken = s.woken := by unfold driveDio; split <;> rfl
@[simp] theorem driveDio_pauseCnt : (driveDio s).pauseCnt = s.pauseCnt := by unfold driveDio; split <;> rfl
@[simp] theorem driveDio_sink : (driveDio s).sink = s.sink := by unfold driveDio; split <;> rfl
@[simp] theorem driveDio_busLog : (driveDio s).busLog = s.busLog := by unfold driveDio; split <;> rfl
@[simp] theorem driveDio_chip : (driveDio s).chip = s.chip := by unfold driveDio; split <;> rfl
@[simp] theorem driveDio_answers : (driveDio s).answers = s.answers := by unfold driveDio; split <;> rfl
@[simp] theorem driveDio_freeIdx : (driveDio s).freeIdx = s.freeIdx := by unfold driveDio; split <;> rfl
@[simp] theorem driveDio_env : (driveDio s).env = s.env := by unfold driveDio; split <;> rfl
@[simp] theorem driveDio_hostSeen : (driveDio s).hostSeen = s.hostSeen := by unfold driveDio; split <;> rfl

/-! ### exchange -/

@[simp] theorem exchange_cfg : (exchange s).cfg = s.cfg :=
  by cases h : s.cfg.target <;> simp [exchange, targetExchange, h, State.dropAnswers, driveDio]
@[simp] theorem exchange_tab : (exchange s).tab = s.tab :=
  by cases h : s.cfg.target <;> simp [exchange, targetExchange, h, State.dropAnswers, driveDio]
@[simp] theorem exchange_cmdPort : (exchange s).cmdPort = s.cmdPort :=
  by cases h : s.cfg.target <;> simp [exchange, targetExchange, h, State.dropAnswers, driveDio]
@[simp] theorem exchange_res : (exchange s).res = s.res :=
  by cases h : s.cfg.target <;> simp [exchange, targetExchange, h, State.dropAnswers, driveDio]
@[simp] theorem exchange_dat : (exchange s).dat = s.dat :=
  by cases h : s.cfg.target <;> simp [exchange, targetExchange, h, State.dropAnswers, driveDio]
@[simp] theorem exchange_fgVal : (exchange s).fgVal = s.fgVal :=
  by cases h : s.cfg.target <;> simp [exchange, targetExchange, h, State.dropAnswers, driveDio]
@[simp] theorem exchange_hVal : (exchange s).hVal = s.hVal :=
  by cases h : s.cfg.target <;> simp [exchange, targetExchange, h, State.dropAnswers, driveDio]
@[simp] theorem exchange_tp : (exchange s).tp = s.tp :=
  by cases h : s.cfg.target <;> simp [exchange, targetExchange, h, State.dropAnswers, driveDio]
@[simp] theorem exchange_fg : (exchange s).fg = s.fg :=
  by cases h : s.cfg.target <;> simp [exchange, targetExchange, h, State.dropAnswers, driveDio]
@[simp] theorem exchange_mode : (exchange s).mode = s.mode :=
  by cases h : s.cfg.target <;> simp [exchange, targetExchange, h, State.dropAnswers, driveDio]
@[simp] theorem exchange_lora : (exchange s).lora = s.lora :=
  by cases h : s.cfg.target <;> simp [exchange, targetExchange, h, State.dropAnswers, driveDio]
@[simp] theorem exchange_variant : (exchange s).variant = s.variant :=
  by cases h : s.cfg.target <;> simp [exchange, targetExchange, h, State.dropAnswers, driveDio]
@[simp] theorem exchange_irq : (exchange s).irq = s.irq :=
  by cases h : s.cfg.target <;> simp [exchange, targetExchange, h, State.dropAnswers, driveDio]
@[simp] theorem exchange_st : (exchange s).st = s.st :=
  by cases h : s.cfg.target <;> simp [exchange, targetExchange, h, State.dropAnswers, driveDio]
@[simp] theorem exchange_errInfo : (exchange s).errInfo = s.errInfo :=
  by cases h : s.cfg.target <;> simp [exchange, targetExchange, h, State.dropAnswers, driveDio]
@[simp] theorem exchange_cs : (exchange s).cs = s.cs :=
  by cases h : s.cfg.target <;> simp [exchange, targetExchange, h, State.dropAnswers, driveDio]
@[simp] theorem exchange_xferDone : (exchange s).xferDone = true :=
  by cases h : s.cfg.target <;> simp [exchange, targetExchange, h, State.dropAnswers, driveDio]
@[simp] theorem exchange_xferBusy : (exchange s).xferBusy = false :=
  by cases h : s.cfg.target <;> simp [exchange, targetExchange, h, State.dropAnswers, driveDio]
@[simp] theorem exchange_phase : (exchange s).phase = .data :=
  by cases h : s.cfg.target <;> simp [exchange, targetExchange, h, State.dropAnswers, driveDio]
@[simp] theorem exchange_pinLatch : (exchange s).pinLatch = s.pinLatch :=
  by cases h : s.cfg.target <;> simp [exchange, targetExchange, h, State.dropAnswers, driveDio]
@[simp] theorem exchange_pcPending : (exchange s).pcPending = s.pcPending :=
  by cases h : s.cfg.target <;> simp [exchange, targetExchange, h, State.dropAnswers, driveDio]
@[simp] theorem exchange_tickPending : (exchange s).tickPending = s.tickPending :=
  by cases h : s.cfg.target <;> simp [exchange, targetExchange, h, State.dropAnswers, driveDio]
@[simp] theorem exchange_conPending : (exchange s).conPending = s.conPending :=
  by cases h : s.cfg.target <;> simp [exchange, targetExchange, h, State.dropAnswers, driveDio]
@[simp] theorem exchange_ien : (exchange s).ien = s.ien :=
  by cases h : s.cfg.target <;> simp [exchange, targetExchange, h, State.dropAnswers, driveDio]
@[simp] theorem exchange_savedIen : (exchange s).savedIen = s.savedIen :=
  by cases h : s.cfg.target <;> simp [exchange, targetExchange, h, State.dropAnswers, driveDio]
@[simp] theorem exchange_inHandler : (exchange s).inHandler = s.inHandler :=
  by cases h : s.cfg.target <;> simp [exchange, targetExchange, h, State.dropAnswers, driveDio]
@[simp] theorem exchange_woken : (exchange s).woken = s.woken :=
  by cases h : s.cfg.target <;> simp [exchange, targetExchange, h, State.dropAnswers, driveDio]
@[simp] theorem exchange_pauseCnt : (exchange s).pauseCnt = s.pauseCnt :=
  by cases h : s.cfg.target <;> simp [exchange, targetExchange, h, State.dropAnswers, driveDio]
@[simp] theorem exchange_sink : (exchange s).sink = s.sink :=
  by cases h : s.cfg.target <;> simp [exchange, targetExchange, h, State.dropAnswers, driveDio]
@[simp] theorem exchange_busLog : (exchange s).busLog = s.busLog :=
  by cases h : s.cfg.target <;> simp [exchange, targetExchange, h, State.dropAnswers, driveDio]
@[simp] theorem exchange_env : (exchange s).env = s.env :=
  by cases h : s.cfg.target <;> simp [exchange, targetExchange, h, State.dropAnswers, driveDio]
@[simp] theorem exchange_hostSeen : (exchange s).hostSeen = s.hostSeen :=
  by cases h : s.cfg.target <;> simp [exchange, targetExchange, h, State.dropAnswers, driveDio]

/-! ### pulseChipReset -/

@[simp] theorem pulseChipReset_cfg : (pulseChipReset s).cfg = s.cfg :=
  by cases h : s.cfg.target <;> simp [pulseChipReset, resetChip, State.dropAnswers, h]
@[simp] theorem pulseChipReset_tab : (pulseChipReset s).tab = s.tab :=
  by cases h : s.cfg.target <;> simp [pulseChipReset, resetChip, State.dropAnswers, h]
@[simp] theorem pulseChipReset_sdr : (pulseChipReset s).sdr = s.sdr :=
  by cases h : s.cfg.target <;> simp [pulseChipReset, resetChip, State.dropAnswers, h]
@[simp] theorem pulseChipReset_cmdPort : (pulseChipReset s).cmdPort = s.cmdPort :=
  by cases h : s.cfg.target <;> simp [pulseChipReset, resetChip, State.dropAnswers, h]
@[simp] theorem pulseChipReset_res : (pulseChipReset s).res = s.res :=
  by cases h : s.cfg.target <;> simp [pulseChipReset, resetChip, State.dropAnswers, h]
@[simp] theorem pulseChipReset_dat : (pulseChipReset s).dat = s.dat :=
  by cases h : s.cfg.target <;> simp [pulseChipReset, resetChip, State.dropAnswers, h]
@[simp] theorem pulseChipReset_fgVal : (pulseChipReset s).fgVal = s.fgVal :=
  by cases h : s.cfg.target <;> simp [pulseChipReset, resetChip, State.dropAnswers, h]
@[simp] theorem pulseChipReset_hVal : (pulseChipReset s).hVal = s.hVal :=
  by cases h : s.cfg.target <;> simp [pulseChipReset, resetChip, State.dropAnswers, h]
@[simp] theorem pulseChipReset_tp : (pulseChipReset s).tp = s.tp :=
  by cases h : s.cfg.target <;> simp [pulseChipReset, resetChip, State.dropAnswers, h]
@[simp] theorem pulseChipReset_fg : (pulseChipReset s).fg = s.fg :=
  by cases h : s.cfg.target <;> simp [pulseChipReset, resetChip, State.dropAnswers, h]
@[simp] theorem pulseChipReset_mode : (pulseChipReset s).mode = .sleep :=
  by cases h : s.cfg.target <;> simp [pulseChipReset, resetChip, State.dropAnswers, h]
@[simp] theorem pulseChipReset_lora : (pulseChipReset s).lora = false :=
  by cases h : s.cfg.target <;> simp [pulseChipReset, resetChip, State.dropAnswers, h]
@[simp] theorem pulseChipReset_variant : (pulseChipReset s).variant = s.variant :=
  by cases h : s.cfg.target <;> simp [pulseChipReset, resetChip, State.dropAnswers, h]
@[simp] theorem pulseChipReset_irq : (pulseChipReset s).irq = 0x00 :=
  by cases h : s.cfg.target <;> simp [pulseChipReset, resetChip, State.dropAnswers, h]
@[simp] theorem pulseChipReset_st : (pulseChipReset s).st = s.st :=
  by cases h : s.cfg.target <;> simp [pulseChipReset, resetChip, State.dropAnswers, h]
@[simp] theorem pulseChipReset_errInfo : (pulseChipReset s).errInfo = s.errInfo :=
  by cases h : s.cfg.target <;> simp [pulseChipReset, resetChip, State.dropAnswers, h]
@[simp] theorem pulseChipReset_cs : (pulseChipReset s).cs = s.cs :=
  by cases h : s.cfg.target <;> simp [pulseChipReset, resetChip, State.dropAnswers, h]
@[simp] theorem pulseChipReset_xferDone : (pulseChipReset s).xferDone = s.xferDone :=
  by cases h : s.cfg.target <;> simp [pulseChipReset, resetChip, State.dropAnswers, h]
@[simp] theorem pulseChipReset_xferBusy : (pulseChipReset s).xferBusy = s.xferBusy :=
  by cases h : s.cfg.target <;> simp [pulseChipReset, resetChip, State.dropAnswers, h]
@[simp] theorem pulseChipReset_phase : (pulseChipReset s).phase = s.phase :=
  by cases h : s.cfg.target <;> simp [pulseChipReset, resetChip, State.dropAnswers, h]
@[simp] theorem pulseChipReset_pinLatch : (pulseChipReset s).pinLatch = s.pinLatch :=
  by cases h : s.cfg.target <;> simp [pulseChipReset, resetChip, State.dropAnswers, h]
@[simp] theorem pulseChipReset_pcPending : (pulseChipReset s).pcPending = s.pcPending :=
  by cases h : s.cfg.target <;> simp [pulseChipReset, resetChip, State.dropAnswers, h]
@[simp] theorem pulseChipReset_tickPending : (pulseChipReset s).tickPending = s.tickPending :=
  by cases h : s.cfg.target <;> simp [pulseChipReset, resetChip, State.dropAnswers, h]
@[simp] theorem pulseChipReset_conPending : (pulseChipReset s).conPending = s.conPending :=
  by cases h : s.cfg.target <;> simp [pulseChipReset, resetChip, State.dropAnswers, h]
@[simp] theorem pulseChipReset_ien : (pulseChipReset s).ien = s.ien :=
  by cases h : s.cfg.target <;> simp [pulseChipReset, resetChip, State.dropAnswers, h]
@[simp] theorem pulseChipReset_savedIen : (pulseChipReset s).savedIen = s.savedIen :=
  by cases h : s.cfg.target <;> simp [pulseChipReset, resetChip, State.dropAnswers, h]
@[simp] theorem pulseChipReset_inHandler : (pulseChipReset s).inHandler = s.inHandler :=
  by cases h : s.cfg.target <;> simp [pulseChipReset, resetChip, State.dropAnswers, h]
@[simp] theorem pulseChipReset_woken : (pulseChipReset s).woken = s.woken :=
  by cases h : s.cfg.target <;> simp [pulseChipReset, resetChip, State.dropAnswers, h]
@[simp] theorem pulseChipReset_pauseCnt : (pulseChipReset s).pauseCnt = s.pauseCnt :=
  by cases h : s.cfg.target <;> simp [pulseChipReset, resetChip, State.dropAnswers, h]
@[simp] theorem pulseChipReset_sink : (pulseChipReset s).sink = s.sink :=
  by cases h : s.cfg.target <;> simp [pulseChipReset, resetChip, State.dropAnswers, h]
@[simp] theorem pulseChipReset_busLog : (pulseChipReset s).busLog = s.busLog ++ [.chipReset] :=
  by cases h : s.cfg.target <;> simp [pulseChipReset, resetChip, State.dropAnswers, h]
@[simp] theorem pulseChipReset_env : (pulseChipReset s).env = s.env :=
  by cases h : s.cfg.target <;> simp [pulseChipReset, resetChip, State.dropAnswers, h]
@[simp] theorem pulseChipReset_hostSeen : (pulseChipReset s).hostSeen = s.hostSeen :=
  by cases h : s.cfg.target <;> simp [pulseChipReset, resetChip, State.dropAnswers, h]

/-! ### detectEdge -/

@[simp] theorem detectEdge_cfg : (detectEdge s).cfg = s.cfg :=
  by by_cases h : s.pins = s.pinLatch <;> simp [detectEdge, h]
@[simp] theorem detectEdge_tab : (detectEdge s).tab = s.tab :=
  by by_cases h : s.pins = s.pinLatch <;> simp [detectEdge, h]
@[simp] theorem detectEdge_sdr : (detectEdge s).sdr = s.sdr :=
  by by_cases h : s.pins = s.pinLatch <;> simp [detectEdge, h]
@[simp] theorem detectEdge_cmdPort : (detectEdge s).cmdPort = s.cmdPort :=
  by by_cases h : s.pins = s.pinLatch <;> simp [detectEdge, h]
@[simp] theorem detectEdge_res : (detectEdge s).res = s.res :=
  by by_cases h : s.pins = s.pinLatch <;> simp [detectEdge, h]
@[simp] theorem detectEdge_dat : (detectEdge s).dat = s.dat :=
  by by_cases h : s.pins = s.pinLatch <;> simp [detectEdge, h]
@[simp] theorem detectEdge_fgVal : (detectEdge s).fgVal = s.fgVal :=
  by by_cases h : s.pins = s.pinLatch <;> simp [detectEdge, h]
@[simp] theorem detectEdge_hVal : (detectEdge s).hVal = s.hVal :=
  by by_cases h : s.pins = s.pinLatch <;> simp [detectEdge, h]
@[simp] theorem detectEdge_tp : (detectEdge s).tp = s.tp :=
  by by_cases h : s.pins = s.pinLatch <;> simp [detectEdge, h]
@[simp] theorem detectEdge_fg : (detectEdge s).fg = s.fg :=
  by by_cases h : s.pins = s.pinLatch <;> simp [detectEdge, h]
@[simp] theorem detectEdge_mode : (detectEdge s).mode = s.mode :=
  by by_cases h : s.pins = s.pinLatch <;> simp [detectEdge, h]
@[simp] theorem detectEdge_lora : (detectEdge s).lora = s.lora :=
  by by_cases h : s.pins = s.pinLatch <;> simp [detectEdge, h]
@[simp] theorem detectEdge_variant : (detectEdge s).variant = s.variant :=
  by by_cases h : s.pins = s.pinLatch <;> simp [detectEdge, h]
@[simp] theorem detectEdge_irq : (detectEdge s).irq = s.irq :=
  by by_cases h : s.pins = s.pinLatch <;> simp [detectEdge, h]
@[simp] theorem detectEdge_st : (detectEdge s).st = s.st :=
  by by_cases h : s.pins = s.pinLatch <;> simp [detectEdge, h]
@[simp] theorem detectEdge_errInfo : (detectEdge s).errInfo = s.errInfo :=
  by by_cases h : s.pins = s.pinLatch <;> simp [detectEdge, h]
@[simp] theorem detectEdge_cs : (detectEdge s).cs = s.cs :=
  by by_cases h : s.pins = s.pinLatch <;> simp [detectEdge, h]
@[simp] theorem detectEdge_xferDone : (detectEdge s).xferDone = s.xferDone :=
  by by_cases h : s.pins = s.pinLatch <;> simp [detectEdge, h]
@[simp] theorem detectEdge_xferBusy : (detectEdge s).xferBusy = s.xferBusy :=
  by by_cases h : s.pins = s.pinLatch <;> simp [detectEdge, h]
@[simp] theorem detectEdge_phase : (detectEdge s).phase = s.phase :=
  by by_cases h : s.pins = s.pinLatch <;> simp [detectEdge, h]
@[simp] theorem detectEdge_pinLatch : (detectEdge s).pinLatch = s.pins :=
  by by_cases h : s.pins = s.pinLatch <;> simp [detectEdge, h]
@[simp] theorem detectEdge_pcPending : (detectEdge s).pcPending = (s.pcPending || s.pins != s.pinLatch) :=
  by by_cases h : s.pins = s.pinLatch <;> simp [detectEdge, h]
@[simp] theorem detectEdge_tickPending : (detectEdge s).tickPending = s.tickPending :=
  by by_cases h : s.pins = s.pinLatch <;> simp [detectEdge, h]
@[simp] theorem detectEdge_conPending : (detectEdge s).conPending = s.conPending :=
  by by_cases h : s.pins = s.pinLatch <;> simp [detectEdge, h]
@[simp] theorem detectEdge_ien : (detectEdge s).ien = s.ien :=
  by by_cases h : s.pins = s.pinLatch <;> simp [detectEdge, h]
@[simp] theorem detectEdge_savedIen : (detectEdge s).savedIen = s.savedIen :=
  by by_cases h : s.pins = s.pinLatch <;> simp [detectEdge, h]
@[simp] theorem detectEdge_inHandler : (detectEdge s).inHandler = s.inHandler :=
  by by_cases h : s.pins = s.pinLatch <;> simp [detectEdge, h]
@[simp] theorem detectEdge_woken : (detectEdge s).woken = s.woken :=
  by by_cases h : s.pins = s.pinLatch <;> simp [detectEdge, h]
@[simp] theorem detectEdge_pauseCnt : (detectEdge s).pauseCnt = s.pauseCnt :=
  by by_cases h : s.pins = s.pinLatch <;> simp [detectEdge, h]
@[simp] theorem detectEdge_sink : (detectEdge s).sink = s.sink :=
  by by_cases h : s.pins = s.pinLatch <;> simp [detectEdge, h]
@[simp] theorem detectEdge_busLog : (detectEdge s).busLog = s.busLog :=
  by by_cases h : s.pins = s.pinLatch <;> simp [detectEdge, h]
@[simp] theorem detectEdge_chip : (detectEdge s).chip = s.chip :=
  by by_cases h : s.pins = s.pinLatch <;> simp [detectEdge, h]
@[simp] theorem detectEdge_pins : (detectEdge s).pins = s.pins :=
  by by_cases h : s.pins = s.pinLatch <;> simp [detectEdge, h]
@[simp] theorem detectEdge_answers : (detectEdge s).answers = s.answers :=
  by by_cases h : s.pins = s.pinLatch <;> simp [detectEdge, h]
@[simp] theorem detectEdge_freeIdx : (detectEdge s).freeIdx = s.freeIdx :=
  by by_cases h : s.pins = s.pinLatch <;> simp [detectEdge, h]
@[simp] theorem detectEdge_env : (detectEdge s).env = s.env :=
  by by_cases h : s.pins = s.pinLatch <;> simp [detectEdge, h]
@[simp] theorem detectEdge_hostSeen : (detectEdge s).hostSeen = s.hostSeen :=
  by by_cases h : s.pins = s.pinLatch <;> simp [detectEdge, h]

/-! ### rrcReset -/

@[simp] theorem rrcReset_cfg : (rrcReset s).cfg = s.cfg := rfl
@[simp] theorem rrcReset_tab : (rrcReset s).tab = s.tab := rfl
@[simp] theorem rrcReset_cmdPort : (rrcReset s).cmdPort = s.cmdPort := rfl
@[simp] theorem rrcReset_pins : (rrcReset s).pins = s.pins := rfl
@[simp] theorem rrcReset_answers : (rrcReset s).answers = s.answers := rfl
@[simp] theorem rrcReset_freeIdx : (rrcReset s).freeIdx = s.freeIdx := rfl
@[simp] theorem rrcReset_env : (rrcReset s).env = s.env := rfl
@[simp] theorem rrcReset_hostSeen : (rrcReset s).hostSeen = s.hostSeen := rfl

end Sys2Proof.Machine
end

