-- ==== Sys2Proof/Laws/Step.lean ====
section
/-! SUPPORT. What one move, one run and one step can do, said once: every invariant of the machine is proved from these
inversion lemmas. -/

namespace Sys2Proof.Machine

/-! ### One move -/

/-- The default policy never pulses the RRC reset, and moves only the RRC and the transport. -/
theorem autoMove_cases {s : State} {m : Move} (h : autoMove s = some m) :
    (m = .detect ∧ s.pins ≠ s.pinLatch) ∨ (m = .exchange ∧ canExchange s = true) ∨
    (m = .run ∧ (handlerEnabled s = true ∨ fgEnabled s = true)) ∨ (∃ x, m = .enter x ∧ pickSource s = some x) := by
  unfold autoMove at h
  split_ifs at h with h1 h2 h3
  · cases h; exact .inl ⟨rfl, h1⟩
  · cases h; exact .inr (.inl ⟨rfl, h2⟩)
  · cases h
    refine .inr (.inr (.inl ⟨rfl, ?_⟩))
    simpa [Bool.or_eq_true] using h3
  · obtain ⟨x, hx, rfl⟩ := Option.map_eq_some_iff.mp h
    exact .inr (.inr (.inr ⟨x, rfl, hx⟩))

theorem pickSource_accepts {s : State} {x : Source} (h : pickSource s = some x) : accepts x s = true := by
  simpa using List.find?_some h

/-- A move is a scheduled one, or one of the default policy; the schedule left is a part of the old one. -/
theorem micro_cases {s t : State} (h : micro s = some t) :
    ∃ m e, t = applyMove m { s with env := e } ∧ e ⊆ s.env ∧ (m ∈ s.env ∨ autoMove s = some m) := by
  unfold micro at h
  split at h
  · rename_i he
    obtain ⟨m, hm, rfl⟩ := Option.map_eq_some_iff.mp h
    exact ⟨m, s.env, rfl, fun _ h => h, .inr hm⟩
  · rename_i rest he
    split at h
    · rename_i m hm
      cases h
      exact ⟨m, s.env, rfl, fun _ h => h, .inr hm⟩
    · cases h
      exact ⟨.settle, rest, rfl, by rw [he]; exact List.subset_cons_self _ _, .inl (by rw [he]; exact List.mem_cons_self)⟩
  · rename_i m rest _ he
    cases h
    exact ⟨m, rest, rfl, by rw [he]; exact List.subset_cons_self _ _, .inl (by rw [he]; exact List.mem_cons_self)⟩

/-- What every move of a property's holder keeps, a run keeps. -/
theorem runDown_keeps {P : State → Prop} (hm : ∀ s t, P s → micro s = some t → P t) (d n : Nat) (s : State)
    (h : P s) : P (runDown d n s) := by
  induction n generalizing s with
  | zero => exact h
  | succ n ih =>
    rw [runDown]
    split_ifs
    · exact h
    · split
      · exact h
      · rename_i t ht
        exact ih t (hm s t h ht)

theorem advance_keeps {P : State → Prop} (hm : ∀ s t, P s → micro s = some t → P t) (s : State) (h : P s) :
    P (advance s) := by
  unfold advance
  cases ht : micro s with
  | none => exact h
  | some t => exact hm s t h ht

/-! ### One step of a context -/

/-- The foreground's control state after a micro-operation, with these to go. -/
def fgAfter (c : Instr) (k : List MicroOp) : After → Fg
  | .push ops => Fg.resume c (ops ++ k)
  | .sleep => .asleep c k
  | .stop => .ready

/-- The handler's micro-operations after one of them, with these to go. -/
def handlerAfter (k : List MicroOp) : After → List MicroOp
  | .push ops => ops ++ k
  | .sleep => k
  | .stop => []

/-- What one step of the running context can be: nothing, a foreground that wakes or ends, a micro-operation of the foreground
or of the pin-change handler, or the end of a handler. -/
inductive Stepped (s : State) : State → Prop where
  | still : Stepped s s
  | woke (c : Instr) (k : List MicroOp) :
      s.inHandler = .noHandler → s.fg = .asleep c k → s.woken = true → Stepped s { s with fg := Fg.resume c k }
  | ended (c : Instr) : s.inHandler = .noHandler → s.fg = .run c [] → Stepped s { s with fg := .ready }
  | fgOp (c : Instr) (op : MicroOp) (k : List MicroOp) :
      s.inHandler = .noHandler → s.fg = .run c (op :: k) → opEnabled op s = true →
      Stepped s { (opStep op s.fgVal s).s with
        fgVal := (opStep op s.fgVal s).v, fg := fgAfter c k (opStep op s.fgVal s).after }
  | handlerOp (op : MicroOp) (k : List MicroOp) :
      s.inHandler = .inPc (op :: k) → opEnabled op s = true →
      Stepped s { (opStep op s.hVal s).s with
        hVal := (opStep op s.hVal s).v, inHandler := .inPc (handlerAfter k (opStep op s.hVal s).after) }
  | back : s.inHandler = .inTick ∨ s.inHandler = .inPc [] → Stepped s (returnFromHandler s)
  | console : s.inHandler = .inCon → Stepped s (returnFromHandler { s with st := { s.st with conReady := true } })

/-- Everything a step of a context can do. -/
theorem contextStep_cases (s : State) : Stepped s (contextStep s) := by
  unfold contextStep
  split_ifs with h1 h2
  · unfold handlerStep
    split
    · exact .still
    · rename_i h; exact .back (.inl h)
    · rename_i h; exact .console h
    · rename_i h; exact .back (.inr h)
    · rename_i op k h
      have he : opEnabled op s = true := by simpa [handlerEnabled, h] using h1
      have := Stepped.handlerOp op k h he
      dsimp only
      split <;> rename_i ha <;> rw [ha] at this <;> exact this
  · have hh : s.inHandler = .noHandler := by
      unfold fgEnabled at h2
      split at h2 <;> first | assumption | exact absurd h2 Bool.false_ne_true
    unfold fgStep
    split
    · exact .still
    · rename_i c k h
      exact .woke c k hh h (by simpa [fgEnabled, hh, h] using h2)
    · rename_i h; exact .ended _ hh h
    · rename_i c op k h
      have he : opEnabled op s = true := by simpa [fgEnabled, hh, h] using h2
      have := Stepped.fgOp c op k hh h he
      dsimp only
      split <;> rename_i ha <;> rw [ha] at this <;> exact this
  · exact .still

/-- A micro-operation leaves the configuration record and the table space alone. -/
theorem opStep_cfg (op : MicroOp) (v : Byte) (s : State) : (opStep op v s).s.cfg = s.cfg ∧ (opStep op v s).s.tab = s.tab := by
  cases op <;> simp [opStep, walkStep]
  case burstRead n b => cases n <;> simp
  case burstWrite n => cases n <;> simp; split <;> simp
  case walk => split <;> simp

theorem contextStep_cfg (s : State) : (contextStep s).cfg = s.cfg ∧ (contextStep s).tab = s.tab := by
  unfold contextStep
  split_ifs
  · unfold handlerStep; split
    · simp
    · simp
    · simp
    · simp
    · rename_i op k _
      have := opStep_cfg op s.hVal s
      dsimp only
      split <;> simpa using this
  · unfold fgStep; split
    · simp
    · simp
    · simp
    · rename_i op k _
      have := opStep_cfg op s.fgVal s
      dsimp only
      split <;> simpa using this
  · simp

/-- So does every move (R43). -/
theorem applyMove_cfg (m : Move) (s : State) : (applyMove m s).cfg = s.cfg ∧ (applyMove m s).tab = s.tab := by
  cases m <;> simp only [applyMove]
  case run => exact contextStep_cfg s
  case exchange => split <;> simp
  case enter => split <;> simp
  case pin => unfold pinMove; split <;> simp
  case rxDone => unfold rxDoneEvent; split <;> simp
  case txDone => unfold txDoneEvent; split <;> simp
  case host op => cases op <;> simp [hostAct]; split <;> simp
  all_goals simp [detectEdge]
  split <;> simp

/-! ### One instruction -/

/-- The operations of a list are none of the two inside a frame. -/
def outsideFrame (ops : List MicroOp) : Bool := ops.all (fun op => !op.inFrame)

/-- How an instruction enters the foreground: not at all, as a command of a ready machine, or in front of the rest of the
command in progress. -/
inductive Entered (s : State) : Fg → Prop where
  | same : Entered s s.fg
  | fresh (c : Instr) (ops : List MicroOp) : s.fg = .ready → outsideFrame ops = true → Entered s (Fg.resume c ops)
  | inner (c : Instr) (ops k : List MicroOp) :
      s.fg = .run c k → outsideFrame ops = true → Entered s (Fg.resume c (ops ++ k))
  | walked (c : Instr) (k : List MicroOp) : s.fg = .run c (.walk :: k) → Entered s (Fg.resume c k)

theorem runCommand_cases (c : Instr) (ops : List MicroOp) (s : State) (ho : outsideFrame ops = true) :
    ∃ g d n, Entered s g ∧ runCommand c ops s = runDown d n { s with fg := g } := by
  unfold runCommand
  split
  · rename_i h
    exact ⟨_, _, _, .fresh c ops h ho, rfl⟩
  · exact ⟨_, 0, 0, .same, rfl⟩
  · exact ⟨_, 0, 0, .same, rfl⟩

theorem runInner_cases (c : Instr) (ops : List MicroOp) (s : State) (ho : outsideFrame ops = true) :
    ∃ g d n, Entered s g ∧ runInner c ops s = runDown d n { s with fg := g } := by
  unfold runInner
  split
  · rename_i h
    exact ⟨_, _, _, .fresh c ops h ho, rfl⟩
  · rename_i c' k h
    exact ⟨_, _, _, .inner c' ops k h ho, rfl⟩
  · exact ⟨_, 0, 0, .same, rfl⟩

/-- Everything executing an instruction can do: enter the foreground, then move. -/
theorem exec_cases (i : Instr) (s : State) :
    ∃ g d n, Entered s g ∧ exec i s = .next (runDown d n { s with fg := g }) := by
  cases i with
  | endTable =>
    simp only [exec, execEndTable]
    split
    · rename_i c k h
      exact ⟨_, 0, 0, .walked c k h, rfl⟩
    · exact ⟨_, 0, 0, .same, rfl⟩
  | rdf a =>
    obtain ⟨g, d, n, hg, he⟩ := runInner_cases (.rdf a) [.readFrame a] s rfl
    exact ⟨g, d, n, hg, congrArg Host.Outcome.next he⟩
  | wrf a v =>
    obtain ⟨g, d, n, hg, he⟩ := runInner_cases (.wrf a v) [.writeFrame a v] s rfl
    exact ⟨g, d, n, hg, congrArg Host.Outcome.next he⟩
  | ent a v =>
    obtain ⟨g, d, n, hg, he⟩ := runInner_cases (.ent a v) (entryOps a v) s rfl
    exact ⟨g, d, n, hg, congrArg Host.Outcome.next he⟩
  | rd a =>
    obtain ⟨g, d, n, hg, he⟩ := runCommand_cases (.rd a) [.readFrame a, .toRes] s rfl
    exact ⟨g, d, n, hg, congrArg Host.Outcome.next he⟩
  | wr a v =>
    obtain ⟨g, d, n, hg, he⟩ := runCommand_cases (.wr a v) [.writeFrame a v] s rfl
    exact ⟨g, d, n, hg, congrArg Host.Outcome.next he⟩
  | upd a k m =>
    obtain ⟨g, d, n, hg, he⟩ := runCommand_cases (.upd a k m) [.readFrame a, .updWrite a k m] s rfl
    exact ⟨g, d, n, hg, congrArg Host.Outcome.next he⟩
  | brd c =>
    obtain ⟨g, d, n, hg, he⟩ := runCommand_cases (.brd c) [.burstRead c.toNat false] s rfl
    exact ⟨g, d, n, hg, congrArg Host.Outcome.next he⟩
  | bwr c =>
    obtain ⟨g, d, n, hg, he⟩ := runCommand_cases (.bwr c) [.burstWrite c.toNat] s rfl
    exact ⟨g, d, n, hg, congrArg Host.Outcome.next he⟩
  | cfg p =>
    obtain ⟨g, d, n, hg, he⟩ := runCommand_cases (.cfg p) [.setTp p, .walk] s rfl
    exact ⟨g, d, n, hg, congrArg Host.Outcome.next he⟩
  | rstp =>
    obtain ⟨g, d, n, hg, he⟩ := runCommand_cases .rstp [.chipReset] s rfl
    exact ⟨g, d, n, hg, congrArg Host.Outcome.next he⟩
  | verrd =>
    obtain ⟨g, d, n, hg, he⟩ := runCommand_cases .verrd [.readFrame s.cfg.regVersion, .dumpOut s.cfg.regVersion, .verCheck] s rfl
    exact ⟨g, d, n, hg, congrArg Host.Outcome.next he⟩
  | initReceiver =>
    obtain ⟨g, d, n, hg, he⟩ := runCommand_cases .initReceiver (initOps s.cfg .receiver s.cfg.tabRx) s rfl
    exact ⟨g, d, n, hg, congrArg Host.Outcome.next he⟩
  | initTransmitter =>
    obtain ⟨g, d, n, hg, he⟩ := runCommand_cases .initTransmitter (initOps s.cfg .transmitter s.cfg.tabTx) s rfl
    exact ⟨g, d, n, hg, congrArg Host.Outcome.next he⟩
  | mode m =>
    obtain ⟨g, d, n, hg, he⟩ := runCommand_cases (.mode m) [.modeWrite m] s rfl
    exact ⟨g, d, n, hg, congrArg Host.Outcome.next he⟩
  | dump a =>
    obtain ⟨g, d, n, hg, he⟩ := runCommand_cases (.dump a) [.readFrame a, .dumpOut a] s rfl
    exact ⟨g, d, n, hg, congrArg Host.Outcome.next he⟩
  | txwait =>
    obtain ⟨g, d, n, hg, he⟩ := runCommand_cases .txwait [.emit (.status .txStart), .sleep, .txCheck] s rfl
    exact ⟨g, d, n, hg, congrArg Host.Outcome.next he⟩
  | idle =>
    obtain ⟨g, d, n, hg, he⟩ := runCommand_cases .idle [.sleep] s rfl
    exact ⟨g, d, n, hg, congrArg Host.Outcome.next he⟩
  | pause c =>
    obtain ⟨g, d, n, hg, he⟩ := runCommand_cases (.pause c) [.setPause c, .pauseLoop] s rfl
    exact ⟨g, d, n, hg, congrArg Host.Outcome.next he⟩
  | ien e =>
    obtain ⟨g, d, n, hg, he⟩ := runCommand_cases (.ien e) [.setIen e] s rfl
    exact ⟨g, d, n, hg, congrArg Host.Outcome.next he⟩

/-- A property that moves keep and that does not read the foreground's control state is kept by every instruction. -/
theorem exec_keeps {P : State → Prop} (hm : ∀ s t, P s → micro s = some t → P t)
    (hf : ∀ s g, P s → P { s with fg := g }) {i : Instr} {s t : State} (h : P s) (he : exec i s = .next t) : P t := by
  obtain ⟨g, d, n, -, e⟩ := exec_cases i s
  rw [e] at he
  cases he
  exact runDown_keeps hm d n _ (hf s g h)

/-! ### One step -/

/-- The use of a turn changes the schedule alone. -/
theorem takeTurn_eq (s : State) : s.takeTurn = { s with env := s.takeTurn.env } := by
  unfold State.takeTurn
  split <;> rfl

/-- What the use of a turn does: the schedule left is a part of the old one. -/
theorem takeTurn_cases (s : State) : ∃ e, e ⊆ s.env ∧ s.takeTurn = { s with env := e } := by
  unfold State.takeTurn
  split
  · rename_i rest he
    exact ⟨rest, by rw [he]; exact List.subset_cons_self _ _, rfl⟩
  · exact ⟨s.env, fun _ h => h, rfl⟩

/-- How a fetch changes the state before the instruction is executed: the command port is emptied, or the foreground is left
without the frame that was fetched; a part of the schedule is left. -/
inductive FetchedFrom (s : State) : State → Prop where
  | entry (c : Instr) (k : List MicroOp) (e : List Move) :
      s.fg = .run c (.walk :: k) → e ⊆ s.env → FetchedFrom s { s with env := e }
  | port (e : List Move) : s.fg = .ready → e ⊆ s.env → FetchedFrom s { s with cmdPort := none, env := e }
  | frame (c : Instr) (op : MicroOp) (k : List MicroOp) :
      s.fg = .run c (op :: k) → op.inFrame = false → FetchedFrom s { s with fg := .run c k }

/-- Everything a fetch can give. -/
inductive FetchCase (s : State) : Fetched → Prop where
  | nothing : FetchCase s .nothing
  | instr (i : Instr) (s1 : State) : s.inHandler = .noHandler → FetchedFrom s s1 → FetchCase s (.instr i s1)
  | illegalWord (w : Word) (e : List Move) : s.inHandler = .noHandler → s.fg = .ready → e ⊆ s.env →
      FetchCase s (.illegalWord w { s with cmdPort := none, env := e })
  | illegalEntry (e : List Move) : s.inHandler = .noHandler → (∃ c k, s.fg = .run c (.walk :: k)) → e ⊆ s.env →
      FetchCase s (.illegalEntry { s with env := e })

theorem fetch_cases (s : State) : FetchCase s (fetch s) := by
  obtain ⟨e, he, ht⟩ := takeTurn_cases s
  unfold fetch
  split_ifs
  · unfold fetchNow
    split
    · rename_i hh hg
      split
      · unfold fetchCommand
        rw [ht]
        split
        · exact .instr _ _ hh (.port e hg he)
        · exact .illegalWord _ e hh hg he
      · exact .nothing
    · rename_i hh hg
      unfold fetchEntry
      rw [ht]
      split
      · exact .instr _ _ hh (.entry _ _ e hg he)
      · exact .illegalEntry e hh ⟨_, _, hg⟩ he
    · rename_i hh hg; exact .instr _ _ hh (.frame _ _ _ hg rfl)
    · rename_i hh hg; exact .instr _ _ hh (.frame _ _ _ hg rfl)
    · exact .nothing
  · exact .nothing

/-- Everything a step that goes on can do. -/
theorem step_cases {s t : State} (h : step s = .next t) :
    s.cfg.wf = true ∧
      ((t = advance s) ∨
       (∃ i s1, s.inHandler = .noHandler ∧ FetchedFrom s s1 ∧ exec i s1 = .next t) ∨
       (∃ w e, s.inHandler = .noHandler ∧ s.fg = .ready ∧ e ⊆ s.env ∧
         t = rejectWord w { s with cmdPort := none, env := e }) ∨
       (∃ e, s.inHandler = .noHandler ∧ (∃ c k, s.fg = .run c (.walk :: k)) ∧ e ⊆ s.env ∧
         t = rejectEntry { s with env := e })) := by
  unfold step at h
  split_ifs at h with hw
  refine ⟨hw, ?_⟩
  have hf := fetch_cases s
  revert hf h
  generalize fetch s = r
  rintro h (_ | ⟨i, s1, hh, h1⟩ | ⟨w, e, hh, hg, he⟩ | ⟨e, hh, hg, he⟩)
  · cases h; exact .inl rfl
  · exact .inr (.inl ⟨i, s1, hh, h1, h⟩)
  · cases h; exact .inr (.inr (.inl ⟨w, e, hh, hg, he, rfl⟩))
  · cases h; exact .inr (.inr (.inr ⟨e, hh, hg, he, rfl⟩))

/-- A scheduled move of an agent other than the foreground is the next step, whatever waits to be fetched (R206). -/
theorem step_scheduled {s : State} {m : Move} {rest : List Move} (hw : s.cfg.wf = true) (he : s.env = m :: rest)
    (hr : m ≠ .run) (hs : m ≠ .settle) : step s = .next (applyMove m { s with env := rest }) := by
  have hf : fetch s = .nothing := by
    have : s.fgDue = false := by
      unfold State.fgDue
      rw [he]
      cases m <;> first | rfl | exact absurd rfl hr | exact absurd rfl hs
    simp [fetch, this]
  have hm : micro s = some (applyMove m { s with env := rest }) := by
    unfold micro
    rw [he]
    cases m <;> first | rfl | exact absurd rfl hs
  simp [step, hw, hf, advance, hm]

/-- A property that moves keep and that reads neither the foreground's control state, nor the command port, nor more of the
schedule than what is in it, is kept by every step, if a fault that ends a command keeps it. -/
theorem step_keeps {P : State → Prop} (hm : ∀ s t, s.cfg.wf = true → P s → micro s = some t → P t ∧ t.cfg = s.cfg)
    (hf : ∀ s g, P s → P { s with fg := g }) (hc : ∀ s, P s → P { s with cmdPort := none })
    (hr : ∀ f i s, P s → P (flagFault f i s)) (he : ∀ s e, e ⊆ s.env → P s → P { s with env := e })
    {s t : State} (h : P s) (hs : step s = .next t) : P t := by
  obtain ⟨hw, h1⟩ := step_cases hs
  have hm' : ∀ s t, (P s ∧ s.cfg.wf = true) → micro s = some t → P t ∧ t.cfg.wf = true := by
    intro s t hp ht
    obtain ⟨h2, h3⟩ := hm s t hp.2 hp.1 ht
    exact ⟨h2, by rw [h3]; exact hp.2⟩
  rcases h1 with rfl | ⟨i, s1, -, h2, h3⟩ | ⟨w, e, -, -, hl, rfl⟩ | ⟨e, -, -, hl, rfl⟩
  · exact (advance_keeps (P := fun s => P s ∧ s.cfg.wf = true) hm' s ⟨h, hw⟩).1
  · have hp : P s1 ∧ s1.cfg.wf = true := by
      cases h2 with
      | entry _ _ e _ hs => exact ⟨he s e hs h, hw⟩
      | port e _ hs => exact ⟨hc _ (he s e hs h), hw⟩
      | frame c op k _ _ => exact ⟨hf s _ h, hw⟩
    exact (exec_keeps (P := fun s => P s ∧ s.cfg.wf = true) hm' (fun s g hp => ⟨hf s g hp.1, hp.2⟩) hp h3).1
  · exact hf _ _ (hr _ _ _ (hc _ (he s e hl h)))
  · exact hf _ _ (hr _ _ _ (he s e hl h))

end Sys2Proof.Machine
end

