-- ==== Sys2Proof/Laws/Bus.lean ====
section
/-! SUPPORT. The bus owner (R108): what each micro-operation and each move does to chip-select, to the exchange owed, and to the
interrupt context. -/

namespace Sys2Proof.Machine

/-- A micro-operation leaves the control states to its context. -/
theorem op_fg (op : MicroOp) (v : Byte) (s : State) :
   (opStep op v s).s.inHandler = s.inHandler ∧ (opStep op v s).s.fg = s.fg  ∧ (opStep op v s).s.savedIen = s.savedIen := by
  cases op <;> simp [opStep, walkStep]
  case burstRead n b => cases n <;> simp
  case burstWrite n => cases n <;> simp; split <;> simp
  case walk => split <;> simp

/-- Neither head nor tail of such a list is inside a frame. -/
theorem outside_tail {k : List MicroOp} (h : outsideFrame k = true) : headInFrame k = false ∧ outsideFrame k.tail = true := by
  cases k with
  | nil => exact ⟨rfl, rfl⟩
  | cons a k => simpa [outsideFrame, headInFrame] using h

/-- Appending keeps outside frames. -/
theorem outside_append {a b : List MicroOp} (h : outsideFrame a = true) (h' : outsideFrame b = true) : outsideFrame (a ++ b) = true := by
  simp_all [outsideFrame]

/-- The micro-operations that open a frame. -/
def opens : MicroOp → Bool
  | .readFrame _ => true
  | .writeFrame _ _ => true
  | _ => false

/-- A micro-operation of no frame leaves the bus alone and pushes no frame half done. -/
theorem op_plain (op : MicroOp) (v : Byte) (s : State) (h1 : op.inFrame = false) (h2 : opens op = false) :
   (opStep op v s).s.cs = s.cs ∧ (opStep op v s).s.xferBusy = s.xferBusy ∧ (opStep op v s).s.xferDone = s.xferDone ∧
   ∀ ops, (opStep op v s).after = .push ops → outsideFrame ops = true := by
  cases op with
  | readFrame a => simp [opens] at h2
  | writeFrame a => simp [opens] at h2
  | addrPhase rw a d => simp [MicroOp.inFrame] at h1
  | dataPhase rw a d => simp [MicroOp.inFrame] at h1
  | burstRead n b => cases n <;> simp [opStep]; rfl; cases b <;> rfl
  | burstWrite n => cases n <;> simp only [opStep] <;> (try split) <;> simp [outsideFrame, MicroOp.inFrame]
  | walk => simp only [opStep, walkStep]; split <;> simp [outsideFrame, entryOps, MicroOp.inFrame]
  | chipReset => simp [opStep, outsideFrame]
  | txCheck => refine ⟨rfl, rfl, rfl, ?_⟩; intro ops h; simp only [opStep, After.push.injEq] at h; subst h; split <;> rfl
  | txConfirm => refine ⟨rfl, rfl, rfl, ?_⟩; intro ops h; simp only [opStep, After.push.injEq] at h; subst h; split <;> rfl
  | pauseLoop => refine ⟨rfl, rfl, rfl, ?_⟩; intro ops h; simp only [opStep, After.push.injEq] at h; subst h; split <;> rfl
  | pcBody => refine ⟨rfl, rfl, rfl, ?_⟩; intro ops h; simp only [opStep, After.push.injEq] at h; subst h; split <;> rfl
  | rxCheck => refine ⟨rfl, rfl, rfl, ?_⟩; intro ops h; simp only [opStep, After.push.injEq] at h; subst h; split <;> rfl
  | rxConfirm => refine ⟨rfl, rfl, rfl, ?_⟩; intro ops h; simp only [opStep, After.push.injEq] at h; subst h; split <;> rfl
  | _ => refine ⟨rfl, rfl, rfl, ?_⟩; intro ops h; first | (cases h; rfl) | cases h

/-- What an enabled micro-operation does to the bus (R100, R102, R103). -/
theorem op_bus {op : MicroOp} {v : Byte} {s : State} {k : List MicroOp} (he : opEnabled op s = true)
   (hc : s.cs = op.inFrame) (ho : s.xferBusy = true → s.cs = true ∧ s.xferDone = false) (hk : outsideFrame k = true) :
   (∀ ops, (opStep op v s).after = .push ops → (opStep op v s).s.cs = headInFrame (ops ++ k) ∧ outsideFrame (ops ++ k).tail = true) ∧
   ((opStep op v s).after = .sleep ∨ (opStep op v s).after = .stop → (opStep op v s).s.cs = false) ∧
   ((opStep op v s).s.xferBusy = true → (opStep op v s).s.cs = true ∧ (opStep op v s).s.xferDone = false) := by
  by_cases h1 : op.inFrame = false
  · by_cases h2 : opens op = false
    · obtain ⟨a, b, c, d⟩ := op_plain op v s h1 h2
      rw [a, b, c]
      rw [h1] at hc
      refine ⟨fun ops h => ?_, fun _ => hc, ho⟩
      have := outside_tail (outside_append (d ops h) hk)
      exact ⟨by rw [this.1, hc], this.2⟩
    · cases op <;> simp [opens] at h2 <;> simp [opStep, headInFrame, MicroOp.inFrame, hk]
  · cases op <;> simp [MicroOp.inFrame] at h1 hc
    · simp [opStep, headInFrame, MicroOp.inFrame, hk, hc]
    · simp [opEnabled] at he
      have : s.xferBusy = false := by
        by_contra h
        have := ho (by simpa using h)
        simp_all
      have ⟨a, b⟩ := outside_tail hk
      simp [opStep, this, a, b]

/-- What handlers do stays what handlers do, and leaves the enable alone (R208, R210). -/
theorem op_handlerSet (op : MicroOp) (v : Byte) (s : State) (h : op.forHandler = true) : 
    (opStep op v s).s.ien = s.ien ∧ 
   ∃ ops, (opStep op v s).after = .push ops ∧ ops.all MicroOp.forHandler = true := by
  cases op with
  | burstRead n b =>
    cases b
    · cases h
    · cases n <;> exact ⟨rfl, _, rfl, rfl⟩
  | pcBody => refine ⟨rfl, _, rfl, ?_⟩; split <;> rfl
  | rxCheck => refine ⟨rfl, _, rfl, ?_⟩; split <;> rfl
  | rxConfirm => refine ⟨rfl, _, rfl, ?_⟩; split <;> rfl
  | _ => first | (cases h; done) | (exact ⟨by simp [opStep], _, rfl, rfl⟩)

/-- The two shapes of a resumed command. -/
theorem resume_ops (c : Instr) (k : List MicroOp) : (Fg.resume c k = .ready ∧ k = []) ∨ Fg.resume c k = .run c k := by
  cases k
  · exact .inl ⟨rfl, rfl⟩
  · exact .inr rfl

/-- A foreground set to go on outside a frame, or inside one that is open, keeps the bus owner. -/
theorem owned_resume {s : State} (h : s.BusOwned) (c : Instr) (k : List MicroOp) (hh : s.inHandler = .noHandler) (hc : s.cs = headInFrame k)
    (hk : outsideFrame k.tail = true) : State.BusOwned { s with fg := Fg.resume c k } := by
  obtain ⟨h1,h2,h3,h4,h5,h6,h7⟩ := h
  have hr : State.running { s with fg := Fg.resume c k } = k := by
    rcases resume_ops c k with ⟨e, rfl⟩ | e <;> simp [State.running, hh, e]
  have hf : State.fgOps { s with fg := Fg.resume c k } = k := by
    rcases resume_ops c k with ⟨e, rfl⟩ | e <;> simp [State.fgOps, e]
  have ha : State.asleep { s with fg := Fg.resume c k } = false := by
    rcases resume_ops c k with ⟨e, rfl⟩ | e <;> simp [State.asleep, e]
  refine ⟨by rw [hr]; exact hc, by rw [hr]; exact hk, by rw [hf]; exact hk, ?_, h5, h6, h7⟩
  intro h; rw [ha] at h; simp [hh] at h

/-- With chip-select inactive the foreground is outside a frame. -/
theorem owned_fg_outside {s : State} (h : s.BusOwned) (hc : s.cs = false) : headInFrame s.fgOps = false := by
  by_cases hh : s.inHandler ≠ .noHandler ∨ s.asleep = true
  · exact h.fgStopped hh
  · push Not at hh
    have := h.csRule
    rw [hc] at this
    unfold State.running at this
    unfold State.fgOps
    unfold State.asleep at hh
    split <;> simp_all

/-- The bus owner depends on these fields only. -/
theorem owned_congr {s t : State} (h : s.BusOwned) (h1 : t.fg = s.fg) (h2 : t.inHandler = s.inHandler) (h3 : t.cs = s.cs) (h4 : t.xferBusy = s.xferBusy) (h5 : t.xferDone = s.xferDone) (h6 : t.ien = s.ien) (h7 : t.savedIen = s.savedIen) : t.BusOwned := by
  obtain ⟨g1,g2,g3,g4,g5,g6,g7⟩ := h
  constructor <;> simp_all [State.running, State.fgOps, State.handlerOps, State.asleep]

/-- The RRC reset leaves no frame open (R230). -/
theorem owned_rrc (s : State) : (rrcReset s).BusOwned := by
  constructor <;> simp [rrcReset, State.reset, State.running, State.fgOps, State.handlerOps, State.asleep, headInFrame]

/-- A handler's return keeps the bus owner (R209). -/
theorem owned_return {s : State} (h : s.BusOwned) (hh : s.inHandler = .inTick ∨ s.inHandler = .inCon ∨ s.inHandler = .inPc []) : (returnFromHandler s).BusOwned := by
  have hc : s.cs = false := by
    rw [h.csRule]
    rcases hh with e | e | e <;> simp [State.running, e, headInFrame]
  have hn : s.inHandler ≠ .noHandler := by rcases hh with e | e | e <;> simp [e]
  have h1 := h.fgStopped (.inl hn)
  obtain ⟨g1,g2,g3,g4,g5,g6,g7⟩ := h
  constructor
  · simp only [State.running, returnFromHandler_inHandler, returnFromHandler_fg, returnFromHandler_cs, hc]
    unfold State.fgOps at h1
    split <;> simp_all [headInFrame]
  · unfold State.fgOps at g3
    simp only [State.running, returnFromHandler_inHandler, returnFromHandler_fg]
    split <;> simp_all
  · exact g3
  · intro _; exact h1
  · exact g5
  · intro h; simp at h
  · simp [State.handlerOps]

/-- Taking an interrupt keeps the bus owner (R206, R207). -/
theorem owned_enter {s : State} (h : s.BusOwned) (x : Source) (hx : accepts x s = true) : (enterHandler x s).BusOwned := by
  simp [accepts] at hx
  obtain ⟨⟨⟨a, b⟩, c⟩, d⟩ := hx
  have hf := owned_fg_outside h d
  obtain ⟨g1,g2,g3,g4,g5,g6,g7⟩ := h
  have hr : (enterHandler x s).running = if x = .pinChange then [.pcBody] else [] := by
    cases x <;> simp [State.running, handlerOf]
  constructor
  · rw [hr]; split <;> simp [d, headInFrame, MicroOp.inFrame]
  · rw [hr]; split <;> simp
  · simpa [State.fgOps] using g3
  · intro _; simpa [State.fgOps] using hf
  · simpa using g5
  · intro _; simp [a]
  · cases x <;> simp only [State.handlerOps, enterHandler_inHandler, handlerOf] <;> rfl

/-- A step of a context keeps the bus owner (R108). -/
theorem owned_context {s : State} (h : s.BusOwned) : (contextStep s).BusOwned := by
  have := contextStep_cases s
  revert this
  generalize contextStep s = t
  intro hst
  cases hst with
  | still => exact h
  | woke c k hh hg hw =>
    have hc : s.cs = false := by rw [h.csRule]; simp [State.running, hh, hg, headInFrame]
    have := h.fgStopped (.inr (by simp [State.asleep, hg]))
    have h3 := h.fgTail
    simp only [State.fgOps, hg] at this h3
    exact owned_resume h c k hh (by rw [hc, this]) h3
  | ended c hh hg =>
    have := owned_resume h c [] hh (by rw [h.csRule]; simp [State.running, hh, hg]) rfl
    exact this
  | fgOp c op k hh hg he =>
    have hr : s.running = op :: k := by simp [State.running, hh, hg]
    have hk : outsideFrame k = true := by have := h.tails; rw [hr] at this; exact this
    have hc : s.cs = op.inFrame := by rw [h.csRule, hr]; rfl
    obtain ⟨p1, p2, p3⟩ := op_bus (v := s.fgVal) he hc h.owed hk
    obtain ⟨q1, q2, q3⟩ := op_fg op s.fgVal s
    have hb : ∀ g, (opStep op s.fgVal s).s.cs = headInFrame (State.running { (opStep op s.fgVal s).s with fg := g }) → 
       outsideFrame (State.fgOps { s with fg := g }).tail = true → 
       (State.asleep { s with fg := g } = true → headInFrame (State.fgOps { s with fg := g }) = false) → 
        State.BusOwned { (opStep op s.fgVal s).s with fgVal := (opStep op s.fgVal s).v, fg := g } := by
      intro g a1 a2 a3
      refine ⟨a1, ?_, a2, ?_, p3, ?_, ?_⟩
      · cases g <;> simp_all [State.running, State.fgOps, outsideFrame]
      · intro hx
        rcases hx with hx | hx
        · exact absurd (q1.trans hh) hx
        · exact a3 hx
      · intro hx; exact absurd (q1.trans hh) hx
      · simp [State.handlerOps, q1, hh]
    cases ha : (opStep op s.fgVal s).after with
    | push ops =>
      obtain ⟨r1, r2⟩ := p1 ops ha
      apply hb
      · simp only [fgAfter, State.running, q1, hh]
        rcases resume_ops c (ops ++ k) with ⟨e, e'⟩ | e
        · rw [e, r1, e']
        · rw [e, r1]
      · simp only [fgAfter, State.fgOps]
        rcases resume_ops c (ops ++ k) with ⟨e, e'⟩ | e <;> rw [e]
        · rfl
        · exact r2
      · simp only [fgAfter, State.asleep]
        rcases resume_ops c (ops ++ k) with ⟨e, e'⟩ | e <;> simp [e]
    | sleep =>
      apply hb
      · simp [fgAfter, State.running, q1, hh, p2 (.inl ha), headInFrame]
      · exact (outside_tail hk).2
      · intro _; exact (outside_tail hk).1
    | stop =>
      apply hb
      · simp [fgAfter, State.running, q1, hh, p2 (.inr ha), headInFrame]
      · rfl
      · intro _; rfl
  | handlerOp op k hg he =>
    have hr : s.running = op :: k := by simp [State.running, hg]
    have hk : outsideFrame k = true := by have := h.tails; rw [hr] at this; exact this
    have hc : s.cs = op.inFrame := by rw [h.csRule, hr]; rfl
    obtain ⟨p1, p2, p3⟩ := op_bus (v := s.hVal) he hc h.owed hk
    obtain ⟨q1, q2, q3⟩ := op_fg op s.hVal s
    have hs := h.handlerSet
    simp only [State.handlerOps, hg, List.all_cons, Bool.and_eq_true] at hs
    obtain ⟨i1, ops, i2, i3⟩ := op_handlerSet op s.hVal s hs.1
    obtain ⟨r1, r2⟩ := p1 ops i2
    have hn : s.inHandler ≠ .noHandler := by simp [hg]
    rw [i2]
    refine ⟨?_, ?_, ?_, ?_, p3, ?_, ?_⟩
    · simpa [handlerAfter, State.running] using r1
    · exact r2
    · simpa [State.fgOps, q2] using h.fgTail
    · intro _; simpa [State.fgOps, q2] using h.fgStopped (.inl hn)
    · intro _
      have := h.masked hn
      exact ⟨i1.trans this.1, q3.trans this.2⟩
    · simp [handlerAfter, State.handlerOps, i3, hs.2]
  | back hh => exact owned_return h (by tauto)
  | console hh => exact owned_return (owned_congr h rfl rfl rfl rfl rfl rfl rfl) (by simp [hh])

/-- Every move keeps the bus owner. -/
theorem owned_move {s : State} (h : s.BusOwned) (m : Move) : (applyMove m s).BusOwned := by
  cases m with
  | run => exact owned_context h
  | enter x => simp only [applyMove]; split; exact owned_enter h x ‹_›; exact h
  | exchange =>
    simp only [applyMove]; split
    · obtain ⟨g1,g2,g3,g4,g5,g6,g7⟩ := h
      constructor <;> simp_all [State.running, State.fgOps, State.handlerOps, State.asleep]
    · exact h
  | detect => exact owned_congr h (by simp [applyMove]) (by simp [applyMove]) (by simp [applyMove]) (by simp [applyMove]) (by simp [applyMove]) (by simp [applyMove]) (by simp [applyMove])
  | pin i b => simp only [applyMove, pinMove]; split <;> exact owned_congr h rfl rfl rfl rfl rfl rfl rfl
  | rxDone p => simp only [applyMove, rxDoneEvent]; split; apply owned_congr h <;> simp; exact h
  | txDone => simp only [applyMove, txDoneEvent]; split; apply owned_congr h <;> simp; exact h
  | host op =>
    cases op with
    | reset => exact owned_rrc s
    | present w => simp only [applyMove, hostAct]; split <;> exact owned_congr h rfl rfl rfl rfl rfl rfl rfl
    | _ => exact owned_congr h rfl rfl rfl rfl rfl rfl rfl
  | _ => exact owned_congr h rfl rfl rfl rfl rfl rfl rfl

/-- So does the next move of the machine. -/
theorem owned_micro (s t : State) (h : s.BusOwned) (hm : micro s = some t) : t.BusOwned := by
  obtain ⟨m, e, rfl, -, -⟩ := micro_cases hm
  have h' : State.BusOwned { s with env := e } := owned_congr h rfl rfl rfl rfl rfl rfl rfl
  exact owned_move h' m

/-- Inside an exchange of a bus that does not answer nothing can move and nothing can be fetched (R100, R208, R248). -/
theorem frozen {s : State} (hb : s.cfg.busAlive = false) (hp : s.pins = s.pinLatch) (he : s.env = []) (hc : s.cs = true)
    (hx : s.xferDone = false) (hi : headInFrame s.running = true) : micro s = none ∧ fetch s = .nothing := by
  have hpick : pickSource s = none := by simp [pickSource, accepts, hc]
  unfold State.running at hi
  cases hh : s.inHandler with
  | noHandler =>
    cases hf : s.fg with
    | ready => simp [hh, hf, headInFrame] at hi
    | asleep c k => simp [hh, hf, headInFrame] at hi
    | run c k =>
      cases k with
      | nil => simp [hh, hf, headInFrame] at hi
      | cons op k =>
        cases op <;> simp [hh, hf, headInFrame, MicroOp.inFrame] at hi <;>
          simp [micro, he, autoMove, hp, canExchange, hb, handlerEnabled, hh, fgEnabled, hf, opEnabled, hx, hpick, fetch, fetchNow]
  | inPc k =>
    cases k with
    | nil => simp [hh, headInFrame] at hi
    | cons op k =>
      cases op <;> simp [hh, headInFrame, MicroOp.inFrame] at hi <;>
        simp [micro, he, autoMove, hp, canExchange, hb, handlerEnabled, hh, fgEnabled, opEnabled, hx, hpick, fetch, fetchNow]
  | inTick => simp [hh, headInFrame] at hi
  | inCon => simp [hh, headInFrame] at hi

end Sys2Proof.Machine
end

