-- ==== Sys2Proof/Laws/Mem.lean ====
section
/-! SUPPORT. Memory: reading after writing, and the canonical form. -/

namespace Sys2Proof.Machine

/-- A memory whose addresses start above an address lists nothing there. -/
theorem Memory.read_below {sp : Space} {m : Memory} {lo a : Nat} (h : Memory.wfFrom sp lo m = true) (ha : a < lo) :
    Memory.read sp m a = sp.blank := by
  induction m generalizing lo with
  | nil => rfl
  | cons c m ih =>
    obtain ⟨k, v⟩ := c
    simp only [Memory.wfFrom, Bool.and_eq_true, decide_eq_true_eq] at h
    rw [Memory.read, if_neg (by omega)]
    exact ih h.2 (by omega)

theorem Memory.wfFrom_mono {sp : Space} {m : Memory} {lo lo' : Nat} (h : Memory.wfFrom sp lo m = true)
    (hl : lo' ≤ lo) : Memory.wfFrom sp lo' m = true := by
  cases m with
  | nil => rfl
  | cons c m =>
    obtain ⟨k, v⟩ := c
    simp only [Memory.wfFrom, Bool.and_eq_true, decide_eq_true_eq] at h ⊢
    exact ⟨⟨⟨by omega, h.1.1.2⟩, h.1.2⟩, h.2⟩

theorem Memory.wfFrom_cell {sp : Space} {m : Memory} {lo a : Nat} {v : Byte}
    (h : Memory.wfFrom sp (a + 1) m = true) (hl : lo ≤ a) (ha : a < sp.size) :
    Memory.wfFrom sp lo (Memory.cell sp a v m) = true := by
  unfold Memory.cell
  split_ifs with hv
  · exact Memory.wfFrom_mono h (by omega)
  · simp [Memory.wfFrom, hl, ha, hv, h]

theorem Memory.read_cell {sp : Space} {m : Memory} {a b : Nat} {v : Byte}
    (h : Memory.wfFrom sp (a + 1) m = true) :
    Memory.read sp (Memory.cell sp a v m) b = if b = a then v else Memory.read sp m b := by
  unfold Memory.cell
  by_cases hv : v = sp.blank
  · rw [if_pos hv]
    split_ifs with hb
    · subst hb
      rw [Memory.read_below h (by omega), hv]
    · rfl
  · rw [if_neg hv, Memory.read]
    by_cases hb : b = a
    · simp [hb]
    · rw [if_neg (fun h' => hb h'.symm), if_neg hb]

/-- A write keeps the canonical form. -/
theorem Memory.wfFrom_write {sp : Space} {m : Memory} {lo a : Nat} {v : Byte} (h : Memory.wfFrom sp lo m = true)
    (hl : lo ≤ a) (ha : a < sp.size) : Memory.wfFrom sp lo (Memory.write sp m a v) = true := by
  induction m generalizing lo with
  | nil => exact Memory.wfFrom_cell rfl hl ha
  | cons c m ih =>
    obtain ⟨k, w⟩ := c
    have h' := h
    simp only [Memory.wfFrom, Bool.and_eq_true, decide_eq_true_eq] at h'
    obtain ⟨⟨⟨hk, hs⟩, hw⟩, ht⟩ := h'
    rw [Memory.write]
    split_ifs with h1 h2
    · exact Memory.wfFrom_cell (by simp only [Memory.wfFrom, Bool.and_eq_true, decide_eq_true_eq]; exact ⟨⟨⟨by omega, hs⟩, hw⟩, ht⟩) hl ha
    · subst h2; exact Memory.wfFrom_cell ht hl ha
    · simp only [Memory.wfFrom, Bool.and_eq_true, decide_eq_true_eq]
      exact ⟨⟨⟨hk, hs⟩, hw⟩, ih ht (by omega)⟩

/-- A read after a write: the byte written at its address, every other byte as before. -/
theorem Memory.read_write {sp : Space} {m : Memory} {lo a b : Nat} {v : Byte} (h : Memory.wfFrom sp lo m = true) :
    Memory.read sp (Memory.write sp m a v) b = if b = a then v else Memory.read sp m b := by
  induction m generalizing lo with
  | nil => exact Memory.read_cell (m := []) rfl
  | cons c m ih =>
    obtain ⟨k, w⟩ := c
    have h' := h
    simp only [Memory.wfFrom, Bool.and_eq_true, decide_eq_true_eq] at h'
    obtain ⟨⟨⟨hk, hs⟩, hw⟩, ht⟩ := h'
    have hc : ∀ lo', lo' ≤ k → Memory.wfFrom sp lo' ((k, w) :: m) = true := fun lo' hlo => by
      simp only [Memory.wfFrom, Bool.and_eq_true, decide_eq_true_eq]
      exact ⟨⟨⟨hlo, hs⟩, hw⟩, ht⟩
    rw [Memory.write]
    by_cases h1 : a < k
    · rw [if_pos h1, Memory.read_cell (hc _ (by omega))]
    · rw [if_neg h1]
      by_cases h2 : a = k
      · subst h2
        rw [if_pos rfl, Memory.read_cell ht]
        by_cases h3 : b = a
        · rw [if_pos h3, if_pos h3]
        · rw [if_neg h3, if_neg h3, Memory.read, if_neg (fun h' => h3 h'.symm)]
      · rw [if_neg h2, Memory.read, Memory.read, ih ht]
        by_cases h3 : b = a
        · rw [if_neg (by omega), if_pos h3, if_pos h3]
        · rw [if_neg h3, if_neg h3]

theorem Memory.wf_write {sp : Space} {m : Memory} {a : Nat} {v : Byte} (h : Memory.wf sp m = true)
    (ha : a < sp.size) : Memory.wf sp (Memory.write sp m a v) = true :=
  Memory.wfFrom_write h (Nat.zero_le a) ha

theorem Memory.read_write_same {sp : Space} {m : Memory} {a : Nat} {v : Byte} (h : Memory.wf sp m = true) :
    Memory.read sp (Memory.write sp m a v) a = v := by
  rw [Memory.read_write h, if_pos rfl]

theorem Memory.read_write_other {sp : Space} {m : Memory} {a b : Nat} {v : Byte} (h : Memory.wf sp m = true)
    (hb : b ≠ a) : Memory.read sp (Memory.write sp m a v) b = Memory.read sp m b := by
  rw [Memory.read_write h, if_neg hb]

theorem Memory.wf_nil (sp : Space) : Memory.wf sp [] = true := rfl

theorem Memory.wf_writeFifo {m : Memory} {p : Byte} {bs : List Byte} (h : Memory.wf .fifo m = true) :
    Memory.wf .fifo (Memory.writeFifo m p bs) = true := by
  induction bs generalizing m p with
  | nil => exact h
  | cons b bs ih => exact ih (Memory.wf_write h p.isLt)

/-- The packet buffer after one byte was written: that byte at its position, the others as before. -/
theorem Memory.read_fifo_write {m : Memory} (h : Memory.wf .fifo m = true) (p q v : Byte) :
    Memory.read .fifo (Memory.write .fifo m p.toNat v) q.toNat = if q = p then v else Memory.read .fifo m q.toNat := by
  simp only [Memory.read_write h, BitVec.toNat_inj]

/-- The positions of a list of bytes, one after the first. -/
theorem fifo_succ (p : Byte) (i : Nat) : p + BitVec.ofNat 8 (i + 1) = p + 1 + BitVec.ofNat 8 i := by
  rw [BitVec.add_assoc, BitVec.add_comm 1]
  simp [BitVec.ofNat_add]

/-- A position outside a list of bytes reads as before. -/
theorem Memory.read_writeFifo_other {bs : List Byte} {m : Memory} {p q : Byte} (h : Memory.wf .fifo m = true)
    (hq : ∀ i < bs.length, q ≠ p + BitVec.ofNat 8 i) :
    Memory.read .fifo (Memory.writeFifo m p bs) q.toNat = Memory.read .fifo m q.toNat := by
  induction bs generalizing m p with
  | nil => rfl
  | cons b bs ih =>
    rw [Memory.writeFifo, ih (Memory.wf_write h p.isLt), Memory.read_fifo_write h, if_neg (by simpa using hq 0 (by simp))]
    exact fun i hi => fifo_succ p i ▸ hq (i + 1) (by simpa using hi)

/-- A list of at most 255 bytes reads back from its positions, modulo 256 (R42, R59). -/
theorem Memory.read_writeFifo {bs : List Byte} {m : Memory} {p : Byte} (h : Memory.wf .fifo m = true)
    (hl : bs.length ≤ 255) (i : Nat) (hi : i < bs.length) :
    Memory.read .fifo (Memory.writeFifo m p bs) (p + BitVec.ofNat 8 i).toNat = bs[i] := by
  induction bs generalizing m p i with
  | nil => exact absurd hi (by simp)
  | cons b bs ih =>
    have hl : bs.length + 1 ≤ 255 := hl
    have hw : Memory.wf .fifo (Memory.write .fifo m p.toNat b) = true := Memory.wf_write h p.isLt
    rw [Memory.writeFifo]
    cases i with
    | zero =>
      rw [Memory.read_writeFifo_other hw, Memory.read_fifo_write h, if_pos (by simp)]
      · rfl
      · intro i hi hh
        have := congrArg BitVec.toNat hh
        simp at this
        have := p.isLt
        omega
    | succ i =>
      rw [fifo_succ]
      exact ih hw (by omega) i (by simpa using hi)

/-- The buffer after a reset pulse is in canonical form. -/
theorem State.wf_freeBuffer (s : State) : Memory.wf .fifo s.freeBuffer = true := Memory.wf_writeFifo (Memory.wf_nil .fifo)

/-- The buffer after a reset pulse depends on the answers of the chip alone. -/
theorem State.freeBuffer_congr {s t : State} (ha : t.answers = s.answers) (hi : t.freeIdx = s.freeIdx) :
    t.freeBuffer = s.freeBuffer := by
  have : t.chipByte = s.chipByte := by funext j; simp only [State.chipByte, ha, hi]
  simp only [State.freeBuffer, this]

theorem Memory.wf_placeEntry {m : Memory} {p : TabAddr} {w : Half} (h : Memory.wf .tab m = true) :
    Memory.wf .tab (Memory.placeEntry m p w) = true :=
  Memory.wf_write (Memory.wf_write h p.isLt) (p + 1).isLt

theorem Memory.wf_placeBytes {m : Memory} {p : TabAddr} {bs : List Byte} (h : Memory.wf .tab m = true) :
    Memory.wf .tab (Memory.placeBytes m p bs) = true := by
  induction bs generalizing m p with
  | nil => exact h
  | cons b bs ih => exact ih (Memory.wf_write h p.isLt)

/-- A register of the reference target after it was set: the new byte there, the others as before. -/
theorem Chip.reg_setReg {x : Chip} {a b : Addr} {v : Byte} (h : Memory.wf .regs x.regs = true) :
    (x.setReg a v).reg b = if b = a then v else x.reg b := by
  simp only [Chip.reg, Chip.setReg, Memory.read_write h, BitVec.toNat_inj]

theorem Chip.wf_setReg {x : Chip} {a : Addr} {v : Byte} (h : Memory.wf .regs x.regs = true) :
    Memory.wf .regs (x.setReg a v).regs = true :=
  Memory.wf_write h a.isLt

@[simp] theorem Chip.setReg_fifo (x : Chip) (a : Addr) (v : Byte) : (x.setReg a v).fifo = x.fifo := rfl
@[simp] theorem Chip.setReg_phase (x : Chip) (a : Addr) (v : Byte) : (x.setReg a v).phase = x.phase := rfl
@[simp] theorem Chip.setReg_latched (x : Chip) (a : Addr) (v : Byte) : (x.setReg a v).latched = x.latched := rfl
@[simp] theorem Chip.setReg_rxNext (x : Chip) (a : Addr) (v : Byte) : (x.setReg a v).rxNext = x.rxNext := rfl
@[simp] theorem Chip.select_regs (x : Chip) : x.select.regs = x.regs := rfl
@[simp] theorem Chip.select_fifo (x : Chip) : x.select.fifo = x.fifo := rfl
@[simp] theorem Chip.deselect_regs (x : Chip) : x.deselect.regs = x.regs := rfl
@[simp] theorem Chip.deselect_fifo (x : Chip) : x.deselect.fifo = x.fifo := rfl

/-- The chip's two memories are in canonical form. -/
def Chip.Canonical (x : Chip) : Prop := Memory.wf .regs x.regs = true ∧ Memory.wf .fifo x.fifo = true

theorem Chip.Canonical.setReg {x : Chip} (h : x.Canonical) (a : Addr) (v : Byte) : (x.setReg a v).Canonical :=
  ⟨Chip.wf_setReg h.1, h.2⟩

theorem Chip.Canonical.readReg {x : Chip} (h : x.Canonical) (c : Config) (a : Addr) :
    (x.readReg c a).2.Canonical := by
  unfold Chip.readReg
  split_ifs
  · exact h.setReg _ _
  · exact h
  · exact h

theorem Chip.Canonical.writeReg {x : Chip} (h : x.Canonical) (c : Config) (a : Addr) (v : Byte) :
    (x.writeReg c a v).Canonical := by
  unfold Chip.writeReg
  split_ifs
  · exact Chip.Canonical.setReg (x := { x with fifo := Memory.write .fifo x.fifo (x.pointer c).toNat v })
      ⟨h.1, Memory.wf_write h.2 (Chip.pointer c x).isLt⟩ _ _
  · exact h.setReg c.regOpmode _
  · exact h.setReg _ _
  · exact h
  · exact h.setReg _ _

theorem Chip.Canonical.exchange {x : Chip} (h : x.Canonical) (c : Config) (b : Byte) :
    (x.exchange c b).2.Canonical := by
  unfold Chip.exchange
  split
  · exact h
  · split
    · exact h.writeReg _ _ _
    · exact h.readReg _ _
    · exact h

theorem Chip.Canonical.rxDone {x : Chip} (h : x.Canonical) (c : Config) (p : List Byte) :
    (x.rxDone c p).Canonical := by
  unfold Chip.rxDone
  have hx : ∀ a n, Chip.Canonical { x with fifo := Memory.writeFifo x.fifo a p, rxNext := n } :=
    fun a n => ⟨h.1, Memory.wf_writeFifo h.2⟩
  exact (((hx _ _).setReg _ _).setReg _ _).setReg _ _

theorem Chip.Canonical.txDone {x : Chip} (h : x.Canonical) (c : Config) : (x.txDone c).Canonical :=
  h.setReg _ _

end Sys2Proof.Machine
end

