-- ==== Sys2Proof/Laws/Chip.lean ====
section
/-! SUPPORT. What each micro-operation and each move does to the memories of the chip and to the reference target's pin (R58). -/

namespace Sys2Proof.Machine

/-- A micro-operation keeps the memories canonical. -/
theorem opStep_canonical {s : State} (hw : s.cfg.wf = true) (h : s.MemCanonical) (op : MicroOp) (v : Byte) :
    (opStep op v s).s.MemCanonical := by
  obtain ⟨h1,h2,h3⟩ := h
  have hi : Memory.wf .regs s.cfg.resetImage = true := by
    simp only [Config.wf, Config.imageCanonical, Bool.and_eq_true] at hw
    exact hw.2.2.2.2.2.1
  cases op with
  | burstRead n b => cases n <;> exact ⟨h1,h2,h3⟩
  | burstWrite n => cases n <;> simp only [opStep] <;> (try split) <;> exact ⟨h1,h2,h3⟩
  | walk => simp only [opStep, walkStep]; split <;> exact ⟨h1,h2,h3⟩
  | dataPhase rw a d => constructor <;> simp only [opStep, closeFrame_tab, closeFrame_chip, Chip.deselect_regs, Chip.deselect_fifo] <;> assumption
  | chipReset =>
    simp only [opStep, pulseChipReset, resetChip]
    cases s.cfg.target
    · exact ⟨h1,h2,h3⟩
    · refine ⟨h1, hi, ?_⟩
      simp only [Chip.reset]
      exact s.wf_freeBuffer
  | _ => exact ⟨h1,h2,h3⟩

/-- An exchange keeps the memories canonical. -/
theorem exchange_canon (s : State) (h : s.MemCanonical) : (exchange s).MemCanonical := by
  obtain ⟨h1,h2,h3⟩ := h
  cases ht : s.cfg.target with
  | anyAnswer => constructor <;> simpa [exchange, targetExchange, ht, State.dropAnswers]
  | reference =>
    have := Chip.Canonical.exchange ⟨h2,h3⟩ s.cfg s.sdr
    constructor
    · simpa
    · simpa [exchange, targetExchange, ht, State.dropAnswers] using this.1
    · simpa [exchange, targetExchange, ht, State.dropAnswers] using this.2

/-- Every move keeps the memories canonical. -/
theorem applyMove_canonical {s : State} (hw : s.cfg.wf = true) (h : s.MemCanonical) (m : Move) :
    (applyMove m s).MemCanonical := by
  have ⟨h1,h2,h3⟩ := h
  cases m with
  | run =>
    simp only [applyMove]
    have := contextStep_cases s
    revert this
    generalize contextStep s = t
    rintro (_ | _ | _ | ⟨_, op, _⟩ | ⟨op, _⟩ | _ | _)
    · exact h
    · exact ⟨h1,h2,h3⟩
    · exact ⟨h1,h2,h3⟩
    · have ⟨a,b,c⟩ := opStep_canonical hw h op s.fgVal; exact ⟨a,b,c⟩
    · have ⟨a,b,c⟩ := opStep_canonical hw h op s.hVal; exact ⟨a,b,c⟩
    · exact ⟨h1,h2,h3⟩
    · exact ⟨h1,h2,h3⟩
  | exchange => simp only [applyMove]; split; exact exchange_canon s h; exact h
  | detect => constructor <;> simpa [applyMove]
  | enter x => simp only [applyMove]; split; (constructor <;> simpa); exact h
  | pin i b => simp only [applyMove, pinMove]; split <;> exact ⟨h1,h2,h3⟩
  | rxDone p => 
    simp only [applyMove, rxDoneEvent]; split
    · have := Chip.Canonical.rxDone ⟨h2,h3⟩ s.cfg p
      constructor <;> simp [h1, this.1, this.2]
    · exact h
  | txDone =>
    simp only [applyMove, txDoneEvent]; split
    · have := Chip.Canonical.txDone ⟨h2,h3⟩ s.cfg
      constructor <;> simp [h1, this.1, this.2]
    · exact h
  | host op => cases op <;> simp only [applyMove, hostAct] <;> (try split) <;> exact ⟨h1,h2,h3⟩
  | _ => exact ⟨h1,h2,h3⟩

/-- After the chip reset the pin is low (R39, R60). -/
theorem wf_regs_dio (c : Config) (b : Memory) (h : c.wf = true) : (Chip.reset c b).dioLevel c = false := by
  simp only [Config.wf, Config.imageConstraints, Bool.and_eq_true, decide_eq_true_eq] at h
  have h0 : (Chip.reset c b).reg c.regIrqFlags = 0 := h.2.2.2.2.1.2
  unfold Chip.dioLevel
  simp only [h0, bit]
  split_ifs <;> simp
  split <;> simp

/-- A micro-operation keeps the pin at its flag. -/
theorem opStep_dio {s : State} (hw : s.cfg.wf = true) (h : s.DioFollows) (op : MicroOp) (v : Byte) :
    (opStep op v s).s.DioFollows := by
  cases op with
  | burstRead n b => cases n <;> exact h
  | burstWrite n => cases n <;> simp only [opStep] <;> (try split) <;> exact h
  | walk => simp only [opStep, walkStep]; split <;> exact h
  | dataPhase rw a d => 
     intro ht
     simp only [opStep, closeFrame_cfg] at ht
     simp only [opStep, closeFrame_pins, closeFrame_chip, closeFrame_cfg]
     exact h ht
  | chipReset =>
    simp only [opStep, pulseChipReset, resetChip]
    cases ht : s.cfg.target
    · intro h; simp [ht] at h
    · intro _; exact (wf_regs_dio s.cfg _ hw).symm
  | _ => exact h

/-- A driven pin follows its flag. -/
theorem driveDio_follows (s : State) : (driveDio s).DioFollows := by
  unfold driveDio; split
  · rename_i h; intro h'; simp [h] at h'
  · intro _; rfl

/-- Every move keeps the pin at its flag (R58). -/
theorem applyMove_dio {s : State} (hw : s.cfg.wf = true) (h : s.DioFollows) (m : Move) :
    (applyMove m s).DioFollows := by
  cases m with
  | run =>
    simp only [applyMove]
    have := contextStep_cases s
    revert this
    generalize contextStep s = t
    rintro (_ | _ | _ | ⟨_, op, _⟩ | ⟨op, _⟩ | _ | _)
    · exact h
    · exact h
    · exact h
    · exact opStep_dio hw h op s.fgVal
    · exact opStep_dio hw h op s.hVal
    · exact h
    · exact h
  | exchange =>
    simp only [applyMove]; split
    · cases ht : s.cfg.target with
      | anyAnswer => intro h; simp [ht] at h
      | reference =>
        have := driveDio_follows { s with chip := (s.chip.exchange s.cfg s.sdr).2 }
        simp only [exchange, targetExchange, ht]
        exact this
    · exact h
  | detect => intro ht; simp [applyMove] at ht ⊢; exact h ht
  | enter x => simp only [applyMove]; split; (intro ht; simp at ht ⊢; exact h ht); exact h
  | pin i b =>
    simp only [applyMove, pinMove]; split
    · exact h
    · rename_i hh; intro ht
      have : i ≠ 0 := fun h => hh ⟨h, ht⟩
      obtain ⟨j, rfl⟩ := Nat.exists_eq_succ_of_ne_zero this
      exact h ht
  | rxDone p => 
    simp only [applyMove, rxDoneEvent]; split
    · exact driveDio_follows _
    · exact h
  | txDone =>
    simp only [applyMove, txDoneEvent]; split
    · exact driveDio_follows _
    · exact h
  | host op => cases op <;> simp only [applyMove, hostAct] <;> (try split) <;> exact h
  | _ => exact h

/-! ### The events of the reference target -/

/-- Setting one bit of a byte. -/
theorem withBit_true (v : Byte) (i : Fin 8) : withBit v i true = v ||| (1#8 <<< i.val) ∧ bit (withBit v i true) i = true := by
  revert v i; decide +kernel

/-- Where a packet goes (R59). -/
def Chip.packetAt (c : Config) (x : Chip) : Byte :=
  match x.rxNext with
  | some p => p
  | none => x.reg c.regFifoRxBase

/-- Every register after a packet arrived (R59). -/
theorem Chip.rxDone_reg {c : Config} {x : Chip} (h : Memory.wf .regs x.regs = true) (hn : c.regsDistinct = true)
    (payload : List Byte) (b : Addr) :
    (x.rxDone c payload).reg b =
      if b = c.regFifoRxCurrent then x.packetAt c
      else if b = c.regRxNbBytes then BitVec.ofNat 8 payload.length
      else if b = c.regIrqFlags then x.reg b ||| (1#8 <<< c.rxDoneBit.val)
      else x.reg b := by
  simp [Config.regsDistinct] at hn
  have key : ∀ y : Chip, y.regs = x.regs → ∀ (a n : Byte),
      (((y.setReg c.regFifoRxCurrent a).setReg c.regRxNbBytes n).setReg c.regIrqFlags
        (withBit (((y.setReg c.regFifoRxCurrent a).setReg c.regRxNbBytes n).reg c.regIrqFlags) c.rxDoneBit true)).reg b =
      if b = c.regFifoRxCurrent then a
      else if b = c.regRxNbBytes then n
      else if b = c.regIrqFlags then x.reg b ||| (1#8 <<< c.rxDoneBit.val)
      else x.reg b := by
    intro y hy a n
    have hw : Memory.wf .regs y.regs = true := hy ▸ h
    have hr : ∀ b, y.reg b = x.reg b := fun b => by simp only [Chip.reg, hy]
    rw [Chip.reg_setReg (x := (y.setReg c.regFifoRxCurrent a).setReg c.regRxNbBytes n) (Chip.wf_setReg (Chip.wf_setReg hw))]
    simp only [Chip.reg_setReg (x := y.setReg c.regFifoRxCurrent a) (Chip.wf_setReg hw), Chip.reg_setReg hw, hr,
      (withBit_true _ _).1]
    by_cases hb : b = c.regIrqFlags
    · subst hb
      have h1 : c.regIrqFlags ≠ c.regFifoRxCurrent := fun h => by simp_all
      have h2 : c.regIrqFlags ≠ c.regRxNbBytes := fun h => by simp_all
      simp [h1, h2]
    · by_cases hb2 : b = c.regRxNbBytes
      · subst hb2
        have h1 : c.regRxNbBytes ≠ c.regFifoRxCurrent := fun h => by simp_all
        simp [hb, h1]
      · simp [hb, hb2]
  exact key _ rfl _ _

/-- Every register after a transmission completed (R59). -/
theorem Chip.txDone_reg {c : Config} {x : Chip} (h : Memory.wf .regs x.regs = true) (b : Addr) :
    (x.txDone c).reg b = if b = c.regIrqFlags then x.reg b ||| (1#8 <<< c.txDoneBit.val) else x.reg b := by
  simp only [Chip.txDone, Chip.reg_setReg h, (withBit_true _ _).1]
  split_ifs with hb <;> simp [hb]

/-- Driving the pin when the flag it shows is set. -/
theorem driveDio_high {s : State} (ht : s.cfg.target = .reference) (h : s.chip.dioLevel s.cfg = true) :
    driveDio s = { s with pins := { s.pins with dio := true } } := by
  simp only [driveDio, ht, h]

/-! ### The number of pins -/

/-- The pins and the latch have the same numbers of bits as before, under the same configuration record. -/
def SameSize (s t : State) : Prop :=
  t.cfg = s.cfg ∧ t.pins.others.length = s.pins.others.length ∧
    (t.pinLatch.others.length = s.pinLatch.others.length ∨ t.pinLatch.others.length = s.pins.others.length)

/-- Neither pins nor latch changed. -/
theorem SameSize.of_same {s t : State} (h : t.cfg = s.cfg) (h1 : t.pins.others = s.pins.others) (h2 : t.pinLatch = s.pinLatch) :
    SameSize s t := ⟨h, by rw [h1], .inl (by rw [h2])⟩

/-- The number of pins stays. -/
theorem State.PinsSized.keep {s t : State} (h : s.PinsSized) (hs : SameSize s t) : t.PinsSized := by
  obtain ⟨h1, h2⟩ := h
  obtain ⟨a, b, c⟩ := hs
  refine ⟨by rw [a, b]; exact h1, ?_⟩
  rcases c with c | c <;> rw [a, c] <;> assumption

/-- No micro-operation adds or removes a pin. -/
theorem size_op (op : MicroOp) (v : Byte) (s : State) : SameSize s (opStep op v s).s := by
  refine .of_same (opStep_cfg op v s).1 ?_ ?_
  · cases op with
    | burstRead n b => cases n <;> rfl
    | burstWrite n => cases n with
      | zero => rfl
      | succ n => simp only [opStep]; split <;> rfl
    | walk => simp only [opStep, walkStep]; split <;> rfl
    | dataPhase rw a d => simp [opStep]
    | chipReset => simp only [opStep, pulseChipReset, resetChip]; split <;> rfl
    | _ => rfl
  · cases op with
    | burstRead n b => cases n <;> rfl
    | burstWrite n => cases n with
      | zero => rfl
      | succ n => simp only [opStep]; split <;> rfl
    | walk => simp only [opStep, walkStep]; split <;> rfl
    | dataPhase rw a d => simp [opStep]
    | chipReset => simp only [opStep, pulseChipReset, resetChip]; split <;> rfl
    | _ => rfl

/-- Driving the pin adds and removes none. -/
theorem driveDio_others (s : State) : (driveDio s).pins.others = s.pins.others := by
  unfold driveDio; split <;> rfl

/-- No move adds or removes a pin. -/
theorem size_move (m : Move) (s : State) : SameSize s (applyMove m s) := by
  refine ⟨(applyMove_cfg m s).1, ?_⟩
  cases m with
  | run =>
    simp only [applyMove]
    have := contextStep_cases s
    revert this
    generalize contextStep s = t
    rintro (_ | _ | _ | ⟨_, op, _⟩ | ⟨op, _⟩ | _ | _)
    · exact ⟨rfl, .inl rfl⟩
    · exact ⟨rfl, .inl rfl⟩
    · exact ⟨rfl, .inl rfl⟩
    · exact (size_op op s.fgVal s).2
    · exact (size_op op s.hVal s).2
    · exact ⟨rfl, .inl rfl⟩
    · exact ⟨rfl, .inl rfl⟩
  | exchange =>
    simp only [applyMove]
    split
    · refine ⟨?_, .inl (by simp)⟩
      cases ht : s.cfg.target with
      | anyAnswer => simp [exchange, targetExchange, ht, State.dropAnswers]
      | reference => simp [exchange, targetExchange, ht, driveDio_others]
    · exact ⟨rfl, .inl rfl⟩
  | detect =>
    simp only [applyMove, detectEdge]
    split
    · exact ⟨rfl, .inl rfl⟩
    · exact ⟨rfl, .inr rfl⟩
  | enter x => simp only [applyMove]; split <;> exact ⟨by simp, .inl (by simp)⟩
  | pin i b =>
    simp only [applyMove, pinMove]
    split
    · exact ⟨rfl, .inl rfl⟩
    · cases i <;> exact ⟨by simp [Pins.set], .inl rfl⟩
  | rxDone p =>
    simp only [applyMove, rxDoneEvent]
    split
    · exact ⟨by rw [driveDio_others], .inl (by simp)⟩
    · exact ⟨rfl, .inl rfl⟩
  | txDone =>
    simp only [applyMove, txDoneEvent]
    split
    · exact ⟨by rw [driveDio_others], .inl (by simp)⟩
    · exact ⟨rfl, .inl rfl⟩
  | host op =>
    cases op with
    | reset => exact ⟨rfl, .inr rfl⟩
    | present w => simp only [applyMove, hostAct]; split <;> exact ⟨rfl, .inl rfl⟩
    | _ => exact ⟨rfl, .inl rfl⟩
  | _ => exact ⟨rfl, .inl rfl⟩

end Sys2Proof.Machine
end

