-- ==== Sys2Proof/Laws/Config.lean ====
section
/-! SUPPORT. The configuration record: the widths, sizes and field places of R3 are those of the model's types. -/

namespace Sys2Proof

open Sys2Proof.Machine

/-- In an allowed configuration `ADDR_BITS`, `ADDR_MAX`, `VAL_BITS`, `RW_BIT`, `MODE_FIELD`, `FIFO_SIZE`, `TAB_BITS` and
`PAUSE_BITS` say what the register space, a value, the address byte, the mode field, the packet buffer, the table space
and the pause counter of the model are. -/
theorem Config.wf_widths {c : Config} (h : c.wf = true) :
    Space.size .regs = 2 ^ c.addrBits ∧ Space.size .regs = c.addrMax + 1 ∧
    (∀ a : Addr, a.toNat < 2 ^ c.addrBits ∧ a.toNat ≤ c.addrMax) ∧
    (∀ v : Byte, v.toNat < 2 ^ c.valBits) ∧
    (∀ (rw : Bool) (a : Addr), (addrByte rw a).getLsbD c.rwBit = rw) ∧
    (∀ v : Byte, (modeField v).toNat =
      v.toNat / 2 ^ c.modeFieldBits.2 % 2 ^ (c.modeFieldBits.1 - c.modeFieldBits.2 + 1)) ∧
    Space.size .fifo = c.fifoSize ∧ Space.size .tab = 2 ^ c.tabBits ∧
    (∀ p : TabAddr, p.toNat < 2 ^ c.tabBits) ∧
    (∀ s : State, s.pauseCnt.toNat < 2 ^ c.pauseBits) := by
  simp only [Config.wf, Config.fixedWidths, Bool.and_eq_true, decide_eq_true_eq] at h
  obtain ⟨-, -, -, -, -, -, -, ⟨h1, h2, h3, h4, h5, h6, h7, h8⟩, -⟩ := h
  rw [h1, h2, h3, h4, h5, h6, h7, h8]
  refine ⟨rfl, rfl, fun a => ⟨a.isLt, by have := a.isLt; omega⟩, fun v => v.isLt, ?_, ?_, rfl, rfl, fun p => p.isLt,
    fun s => s.pauseCnt.isLt⟩
  · decide
  · decide

end Sys2Proof
end

