-- ==== Sys2Proof/Laws/Decode.lean ====
section
/-! SUPPORT. The fields of an assembled command word, frame and entry, bit by bit: what the decoder's correctness rests on. -/

namespace Sys2Proof

/-- Every bit of an assembled command word (R78). -/
theorem cmdWord_getLsbD (op : BitVec 4) (a : Addr) (b c : Byte) (i : Nat) :
    (cmdWord op a b c).getLsbD i =
      (if i < 8 then c.getLsbD i else if i < 16 then b.getLsbD (i - 8) else if i < 23 then a.getLsbD (i - 16)
       else if i < 28 then false else op.getLsbD (i - 28)) := by
  show BitVec.getLsbD (w := 4 + 5 + 7 + 8 + 8) (op ++ (0 : BitVec 5) ++ a ++ b ++ c) i = _
  have h : ∀ j, BitVec.getLsbD (0 : BitVec 5) j = false := by simp
  simp only [BitVec.getLsbD_append, h, Nat.sub_sub]
  split_ifs <;> first | rfl | omega

/-- Every bit of an assembled command word with a 16-bit operand (R78). -/
theorem cmdWordW_getLsbD (op : BitVec 4) (w : BitVec 16) (i : Nat) :
    (cmdWordW op w).getLsbD i =
      (if i < 16 then w.getLsbD i else if i < 28 then false else op.getLsbD (i - 28)) := by
  show BitVec.getLsbD (w := 4 + 5 + 7 + 16) (op ++ (0 : BitVec 5) ++ (0 : Addr) ++ w) i = _
  have h : ∀ j, BitVec.getLsbD (0 : BitVec 5) j = false := by simp
  have h7 : ∀ j, BitVec.getLsbD (0 : Addr) j = false := by simp
  simp only [BitVec.getLsbD_append, h, h7, Nat.sub_sub]
  split_ifs <;> first | rfl | omega

@[simp] theorem cmdWord_op (op : BitVec 4) (a : Addr) (b c : Byte) : (cmdWord op a b c).op = op := by
  ext i hi
  simp only [Word.op, BitVec.getElem_extractLsb', cmdWord_getLsbD]
  split_ifs <;> first | omega | (rw [BitVec.getLsbD_eq_getElem (by omega)]; congr 1; omega)

@[simp] theorem cmdWord_z1 (op : BitVec 4) (a : Addr) (b c : Byte) : (cmdWord op a b c).z1 = 0 := by
  ext i hi
  simp only [Word.z1, BitVec.getElem_extractLsb', cmdWord_getLsbD]
  split_ifs <;> first | omega | simp

@[simp] theorem cmdWord_z2 (op : BitVec 4) (a : Addr) (b c : Byte) : (cmdWord op a b c).z2 = 0 := by
  ext i hi
  simp only [Word.z2, BitVec.getElem_extractLsb', cmdWord_getLsbD]
  split_ifs <;> first | omega | simp

@[simp] theorem cmdWord_fieldA (op : BitVec 4) (a : Addr) (b c : Byte) : (cmdWord op a b c).fieldA = a := by
  ext i hi
  simp only [Word.fieldA, BitVec.getElem_extractLsb', cmdWord_getLsbD]
  split_ifs <;> first | omega | (rw [BitVec.getLsbD_eq_getElem (by omega)]; congr 1; omega)

@[simp] theorem cmdWord_fieldB (op : BitVec 4) (a : Addr) (b c : Byte) : (cmdWord op a b c).fieldB = b := by
  ext i hi
  simp only [Word.fieldB, BitVec.getElem_extractLsb', cmdWord_getLsbD]
  split_ifs <;> first | omega | (rw [BitVec.getLsbD_eq_getElem (by omega)]; congr 1; omega)

@[simp] theorem cmdWord_fieldC (op : BitVec 4) (a : Addr) (b c : Byte) : (cmdWord op a b c).fieldC = c := by
  ext i hi
  simp only [Word.fieldC, BitVec.getElem_extractLsb', cmdWord_getLsbD]
  split_ifs <;> first | omega | (rw [BitVec.getLsbD_eq_getElem (by omega)]; congr 1; omega)

@[simp] theorem cmdWord_fieldW_zero (op : BitVec 4) (a : Addr) : (cmdWord op a 0#8 0#8).fieldW = 0#16 := by
  ext i hi
  simp only [Word.fieldW, BitVec.getElem_extractLsb', cmdWord_getLsbD]
  split_ifs <;> first | omega | simp

@[simp] theorem cmdWordW_op (op : BitVec 4) (w : BitVec 16) : (cmdWordW op w).op = op := by
  ext i hi
  simp only [Word.op, BitVec.getElem_extractLsb', cmdWordW_getLsbD]
  split_ifs <;> first | omega | (rw [BitVec.getLsbD_eq_getElem (by omega)]; congr 1; omega)

@[simp] theorem cmdWordW_z1 (op : BitVec 4) (w : BitVec 16) : (cmdWordW op w).z1 = 0 := by
  ext i hi
  simp only [Word.z1, BitVec.getElem_extractLsb', cmdWordW_getLsbD]
  split_ifs <;> first | omega | simp

@[simp] theorem cmdWordW_z2 (op : BitVec 4) (w : BitVec 16) : (cmdWordW op w).z2 = 0 := by
  ext i hi
  simp only [Word.z2, BitVec.getElem_extractLsb', cmdWordW_getLsbD]
  split_ifs <;> first | omega | simp

@[simp] theorem cmdWordW_fieldA (op : BitVec 4) (w : BitVec 16) : (cmdWordW op w).fieldA = 0 := by
  ext i hi
  simp only [Word.fieldA, BitVec.getElem_extractLsb', cmdWordW_getLsbD]
  split_ifs <;> first | omega | simp

@[simp] theorem cmdWordW_fieldW (op : BitVec 4) (w : BitVec 16) : (cmdWordW op w).fieldW = w := by
  ext i hi
  simp only [Word.fieldW, BitVec.getElem_extractLsb', cmdWordW_getLsbD]
  split_ifs <;> first | omega | (rw [BitVec.getLsbD_eq_getElem (by omega)]; congr 1; omega)

/-- Every bit of a two-byte pattern (R70, R74). -/
theorem entryWord_getLsbD (ab v : Byte) (i : Nat) :
    (entryWord ab v).getLsbD i = (if i < 8 then v.getLsbD i else ab.getLsbD (i - 8)) := by
  show BitVec.getLsbD (w := 8 + 8) (ab ++ v) i = _
  rw [BitVec.getLsbD_append]

/-- Every bit of an address byte (R71). -/
theorem addrByte_getLsbD (rw : Bool) (a : Addr) (i : Nat) :
    (addrByte rw a).getLsbD i = (if i < 7 then a.getLsbD i else (decide (i = 7) && rw)) := by
  show BitVec.getLsbD (w := 1 + 7) (BitVec.ofBool rw ++ a) i = _
  rw [BitVec.getLsbD_append]
  split_ifs with h
  · rfl
  · rw [BitVec.getLsbD_ofBool]
    have : decide (i - 7 = 0) = decide (i = 7) := by
      apply decide_eq_decide.mpr
      omega
    rw [this]

@[simp] theorem entryWord_high (ab v : Byte) : (entryWord ab v).extractLsb' 8 8 = ab := by
  ext i hi
  simp only [BitVec.getElem_extractLsb', entryWord_getLsbD]
  split_ifs <;> first | omega | (rw [BitVec.getLsbD_eq_getElem (by omega)]; congr 1; omega)

@[simp] theorem entryWord_low (ab v : Byte) : (entryWord ab v).extractLsb' 0 8 = v := by
  ext i hi
  simp only [BitVec.getElem_extractLsb', entryWord_getLsbD]
  split_ifs <;> first | omega | (rw [BitVec.getLsbD_eq_getElem (by omega)]; congr 1; omega)

@[simp] theorem entryWord_bit15 (ab v : Byte) : (entryWord ab v)[15] = ab[7] := by
  rw [← BitVec.getLsbD_eq_getElem, ← BitVec.getLsbD_eq_getElem, entryWord_getLsbD]; rfl

@[simp] theorem entryWord_addr (rw : Bool) (a : Addr) (v : Byte) :
    (entryWord (addrByte rw a) v).extractLsb' 8 7 = a := by
  ext i hi
  simp only [BitVec.getElem_extractLsb', entryWord_getLsbD, addrByte_getLsbD]
  split_ifs <;> first | omega | (rw [BitVec.getLsbD_eq_getElem (by omega)]; congr 1; omega)

@[simp] theorem addrByte_bit7 (rw : Bool) (a : Addr) : (addrByte rw a)[7] = rw := by
  rw [← BitVec.getLsbD_eq_getElem, addrByte_getLsbD]; simp

@[simp] theorem addrByte_low (rw : Bool) (a : Addr) : (addrByte rw a).extractLsb' 0 7 = a := by
  ext i hi
  simp only [BitVec.getElem_extractLsb', addrByte_getLsbD]
  split_ifs <;> first | omega | (rw [BitVec.getLsbD_eq_getElem (by omega)]; congr 1; omega)

/-- A frame and an entry are laid out alike (R70, R74). -/
theorem frameWord_eq (rw : Bool) (a : Addr) (d : Byte) : frameWord rw a d = entryWord (addrByte rw a) d := rfl

/-- A frame decodes to itself whatever its data byte (R71, R72, R73). -/
theorem decodeFrame_frameWord (rw : Bool) (a : Addr) (d : Byte) :
    decodeFrame (frameWord rw a d) = if rw then .wrf a d else .rdf a := by
  simp [decodeFrame, frameWord_eq]

/-- The address byte of an entry is never the sentinel (R75: its bit 7 is set). -/
theorem addrByte_ne_sentinel (a : Addr) : addrByte false a ≠ sentinelByte := by
  intro h
  have := congrArg (fun x : Byte => x.getLsbD 7) h
  simp [sentinelByte] at this

/-- What the entry decoder answers, by the address byte (R74, R75, R76). -/
theorem decodeEntry_entryWord (ab v : Byte) :
    decodeEntry (entryWord ab v) =
      if ab = sentinelByte then .ok .endTable
      else if ab.getLsbD 7 then .error .illegalEntry
      else .ok (.ent ((entryWord ab v).extractLsb' 8 7) v) := by
  simp [decodeEntry]

theorem decodeEntry_ent (a : Addr) (v : Byte) : decodeEntry (entryWord (addrByte false a) v) = .ok (.ent a v) := by
  rw [decodeEntry_entryWord, if_neg (addrByte_ne_sentinel a)]
  simp

/-- The six low bits of a mode operand, back from its byte. -/
@[simp] theorem Mode.ofNumber_number (m : Mode) : Mode.ofNumber m.number = m := by
  cases m <;> decide

/-- A command word with clear `z1` and `z2` is assembled from its fields (R78). -/
theorem word_eta (w : Word) (h1 : w.z1 = 0) (h2 : w.z2 = 0) : w = cmdWord w.op w.fieldA w.fieldB w.fieldC := by
  apply BitVec.eq_of_getLsbD_eq
  intro i hi
  rw [cmdWord_getLsbD]
  have e1 : ∀ j < 4, w.getLsbD (24 + j) = false := fun j hj => by
    have := congrArg (fun x : BitVec 4 => x.getLsbD j) h1
    simpa [Word.z1, hj] using this
  have e2 : w.getLsbD 23 = false := by
    have := congrArg (fun x : BitVec 1 => x.getLsbD 0) h2
    simpa [Word.z2] using this
  simp only [Word.op, Word.fieldA, Word.fieldB, Word.fieldC, BitVec.getLsbD_extractLsb']
  split_ifs with a b c d
  · simp [a]
  · have : 8 + (i - 8) = i := by omega
    rw [this]; simp; intro; omega
  · have : 16 + (i - 16) = i := by omega
    rw [this]; simp; intro; omega
  · rcases Nat.lt_or_ge i 24 with h | h
    · have : i = 23 := by omega
      subst this; simpa using e2
    · have := e1 (i - 24) (by omega)
      rwa [show 24 + (i - 24) = i by omega] at this
  · have : 28 + (i - 28) = i := by omega
    rw [this]; simp; intro; omega

end Sys2Proof
end

