-- ==== Sys2Proof/Laws/Faults.lean ====
section
/-! SUPPORT. What each micro-operation and each move does to the fault record (R215), the schedule, the bus log and the tracked
mode (R16). -/

namespace Sys2Proof.Machine

/-! ### The fault record -/

/-- Setting a fault bit clears none. -/
theorem set_get (st : Status) (f g : FaultBit) (h : st.get g = true) : (st.set f).get g = true := by
  cases f <;> cases g <;> simp_all [Status.set, Status.get]
/-- A fault bit set is a fault. -/
theorem set_noFault (st : Status) (f : FaultBit) : (st.set f).noFault = false := by
  cases f <;> simp [Status.set, Status.noFault]

/-- From one fault record to a later one: no bit is lost, and `err_info` is kept once a bit is set (R20, R21). -/
structure Sticky (a b : ErrRecord) : Prop where
  bits : ∀ f, a.st.get f = true → b.st.get f = true
  ver : a.st.verMismatch = true → b.st.verMismatch = true
  info : a.st.noFault = false → b.info = a.info

/-- Nothing changed. -/
theorem Sticky.refl (a : ErrRecord) : Sticky a a := ⟨fun _ h => h, id, fun _ => rfl⟩
/-- A state is not good exactly when some fault bit is set (R215). -/
theorem noFault_iff (st : Status) : st.noFault = false ↔ ∃ f, st.get f = true := by
  constructor
  · intro h
    simp [Status.noFault] at h
    by_contra hc
    have h1 := fun f => Bool.eq_false_iff.mpr (fun e => hc ⟨f, e⟩)
    have a := h1 .errIllegal; have b := h1 .errTable; have c := h1 .errMode; have d := h1 .errSeq
    simp [Status.get] at a b c d
    simp_all
  · rintro ⟨f, h⟩
    cases f <;> simp_all [Status.get, Status.noFault]
/-- One change after another. -/
theorem Sticky.trans {a b c : ErrRecord} (h : Sticky a b) (h' : Sticky b c) : Sticky a c :=
  ⟨fun f x => h'.bits f (h.bits f x), fun x => h'.ver (h.ver x), fun x => by
    rw [h'.info, h.info x]
    obtain ⟨f, hf⟩ := (noFault_iff _).mp x
    exact (noFault_iff _).mpr ⟨f, h.bits f hf⟩⟩
/-- `flag` (R215, R21). -/
theorem sticky_flag (f : FaultBit) (i : BitVec 16) (e : ErrRecord) : Sticky e (e.flag f i) :=
  ⟨fun g h => set_get _ _ _ h, fun h => by cases f <;> exact h, fun h => by simp [ErrRecord.flag, h]⟩
/-- A conditional `flag`. -/
theorem sticky_flagIf (b : Bool) (f : FaultBit) (i : BitVec 16) (e : ErrRecord) : Sticky e (e.flagIf b f i) := by
  unfold ErrRecord.flagIf; split; exact sticky_flag _ _ _; exact Sticky.refl _
/-- The tracker (R141). -/
theorem sticky_track (t : Tracked) (m : Mode) (d : Byte) (e : ErrRecord) : Sticky e (trackFaults t m d e) :=
  ((sticky_flagIf _ _ _ _).trans (sticky_flagIf _ _ _ _)).trans (sticky_flagIf _ _ _ _)

/-- Every micro-operation. -/
theorem sticky_op (op : MicroOp) (v : Byte) (s : State) : Sticky s.errRecord (opStep op v s).s.errRecord := by
  cases op with
  | burstRead n b => cases n <;> exact Sticky.refl _
  | burstWrite n => cases n <;> simp only [opStep] <;> (try split) <;> exact Sticky.refl _
  | walk =>
    simp only [opStep, walkStep]; split
    · exact Sticky.refl _
    · exact Sticky.refl _
    · exact sticky_flag .errTable s.tp s.errRecord
  | dataPhase rw a d =>
    simp only [opStep, State.errRecord, closeFrame_st, closeFrame_errInfo]
    by_cases hh : a = s.cfg.regOpmode ∧ rw = true
    · simp only [if_pos hh]; exact sticky_track _ _ _ s.errRecord
    · simp only [if_neg hh]; exact Sticky.refl _
  | verCheck => 
    refine ⟨fun f h => ?_, fun h => ?_, fun _ => rfl⟩
    · cases f <;> exact h
    · simp [opStep, State.errRecord] at h ⊢; simp [h]
  | chipReset => simp only [opStep, State.errRecord, pulseChipReset_st, pulseChipReset_errInfo]; exact Sticky.refl _
  | _ => exact Sticky.refl _

/-- Every move but the RRC reset. -/
theorem sticky_move (m : Move) (s : State) (h : m ≠ .host .reset) : Sticky s.errRecord (applyMove m s).errRecord := by
  cases m with
  | run =>
    simp only [applyMove]
    have := contextStep_cases s
    revert this
    generalize contextStep s = t
    rintro (_ | _ | _ | ⟨_, op, _⟩ | ⟨op, _⟩ | _ | _)
    · exact Sticky.refl _
    · exact Sticky.refl _
    · exact Sticky.refl _
    · exact sticky_op op s.fgVal s
    · exact sticky_op op s.hVal s
    · exact Sticky.refl _
    · exact ⟨fun f h => by cases f <;> exact h, id, fun _ => rfl⟩
  | exchange => simp only [applyMove]; split <;> simp only [State.errRecord, exchange_st, exchange_errInfo] <;> exact Sticky.refl _
  | detect => simp only [applyMove, State.errRecord, detectEdge_st, detectEdge_errInfo]; exact Sticky.refl _
  | enter x => simp only [applyMove]; split <;> simp only [State.errRecord, enterHandler_st, enterHandler_errInfo] <;> exact Sticky.refl _
  | pin i b => simp only [applyMove, pinMove]; split <;> exact Sticky.refl _
  | rxDone p => simp only [applyMove, rxDoneEvent]; split <;> simp only [State.errRecord, driveDio_st, driveDio_errInfo] <;> exact Sticky.refl _
  | txDone => simp only [applyMove, txDoneEvent]; split <;> simp only [State.errRecord, driveDio_st, driveDio_errInfo] <;> exact Sticky.refl _
  | host op =>
    cases op with
    | reset => exact absurd rfl h
    | readStatus => exact ⟨fun f h => by cases f <;> exact h, id, fun _ => rfl⟩
    | present w => simp only [applyMove, hostAct]; split <;> exact Sticky.refl _
    | _ => exact Sticky.refl _
  | _ => exact Sticky.refl _

/-- The next move of a machine whose schedule holds no RRC reset is no RRC reset. -/
theorem noReset_move {s t : State} (h : s.noReset = true) (hm : micro s = some t) :
   ∃ m e, m ≠ .host .reset ∧ t = applyMove m {s with env := e} ∧ e ⊆ s.env ∧ (m ∈ s.env ∨ autoMove s = some m) := by
  obtain ⟨m, e, rfl, he, hh⟩ := micro_cases hm
  refine ⟨m, e, ?_, rfl, he, hh⟩
  rcases hh with hh | hh
  · have := List.all_eq_true.mp h m hh
    simpa using this
  · rcases autoMove_cases hh with ⟨rfl,_⟩|⟨rfl,_⟩|⟨rfl,_⟩|⟨_,rfl,_⟩ <;> simp

/-- A micro-operation leaves the schedule alone. -/
theorem op_env (op : MicroOp) (v : Byte) (s : State) : (opStep op v s).s.env = s.env := by
  cases op <;> simp [opStep, walkStep]
  case burstRead n b => cases n <;> simp
  case burstWrite n => cases n <;> simp; split <;> simp
  case walk => split <;> simp

/-- So does a step of a context. -/
theorem context_env (s : State) : (contextStep s).env = s.env := by
    have := contextStep_cases s
    revert this
    generalize contextStep s = t
    rintro (_ | _ | _ | ⟨_, op, _⟩ | ⟨op, _⟩ | _ | _) <;> simp [op_env]

/-- So does every move. -/
theorem move_env (m : Move) (s : State) : (applyMove m s).env = s.env := by
  cases m <;> simp only [applyMove]
  case run => exact context_env s
  case exchange => split <;> simp
  case enter => split <;> simp
  case pin => unfold pinMove; split <;> simp
  case rxDone => unfold rxDoneEvent; split <;> simp
  case txDone => unfold txDoneEvent; split <;> simp
  case host op => cases op <;> simp [hostAct, rrcReset]; split <;> simp
  all_goals simp [detectEdge]
  split <;> simp

/-- A schedule without an RRC reset stays one. -/
theorem noReset_keep {s t : State} (h : s.noReset = true) (hm : micro s = some t) : t.noReset = true := by
  obtain ⟨m, e, -, rfl, he, -⟩ := noReset_move h hm
  simp only [State.noReset, move_env]
  rw [State.noReset, List.all_eq_true] at h
  rw [List.all_eq_true]
  exact fun x hx => h x (he hx)

/-! ### The tracked mode -/
/-- The bus log grew, and mode and modulation bit changed only with an event in it that may change them (R16). -/
def ModeLogged (s t : State) : Prop := t.cfg = s.cfg ∧ ∃ l, t.busLog = s.busLog ++ l ∧ (l.all (fun e => !e.setsMode s.cfg) = true → t.mode = s.mode ∧ t.lora = s.lora)

/-- Nothing logged, nothing changed. -/
theorem ModeLogged.of_same {s t : State} (h : t.cfg = s.cfg) (h1 : t.busLog = s.busLog) (h2 : t.mode = s.mode) (h3 : t.lora = s.lora) : ModeLogged s t :=
  ⟨h, [], by simp [h1], fun _ => ⟨h2, h3⟩⟩

/-- One change after another. -/
theorem ModeLogged.trans {s t u : State} (h : ModeLogged s t) (h' : ModeLogged t u) : ModeLogged s u := by
  obtain ⟨h1, l, h2, h3⟩ := h
  obtain ⟨h1', l', h2', h3'⟩ := h'
  refine ⟨h1'.trans h1, l ++ l', by rw [h2', h2, List.append_assoc], fun h => ?_⟩
  rw [List.all_append, Bool.and_eq_true] at h
  have a := h3 h.1
  have b := h3' (by rw [h1]; exact h.2)
  exact ⟨b.1.trans a.1, b.2.trans a.2⟩

/-- Every micro-operation. -/
theorem mode_op (op : MicroOp) (v : Byte) (s : State) : ModeLogged s (opStep op v s).s := by
  cases op with
  | burstRead n b => cases n <;> exact .of_same rfl rfl rfl rfl
  | burstWrite n => cases n <;> simp only [opStep] <;> (try split) <;> exact .of_same rfl rfl rfl rfl
  | walk => simp only [opStep, walkStep]; split <;> exact .of_same rfl rfl rfl rfl
  | dataPhase rw a d =>
    refine ⟨by simp [opStep], [.frame rw a (if rw then d else s.sdr)], by simp [opStep], fun h => ?_⟩
    simp [BusEvent.setsMode] at h
    have : ¬ (a = s.cfg.regOpmode ∧ rw = true) := fun hh => by simp_all
    simp [opStep, this]
  | chipReset => exact ⟨by simp [opStep], [.chipReset], by simp [opStep], fun h => by simp [BusEvent.setsMode] at h⟩
  | _ => exact .of_same rfl rfl rfl rfl

/-- Every move but the RRC reset. -/
theorem mode_move (m : Move) (s : State) (h : m ≠ .host .reset) : ModeLogged s (applyMove m s) := by
  cases m with
  | run =>
    simp only [applyMove]
    have := contextStep_cases s
    revert this
    generalize contextStep s = t
    rintro (_ | _ | _ | ⟨_, op, _⟩ | ⟨op, _⟩ | _ | _)
    · exact .of_same rfl rfl rfl rfl
    · exact .of_same rfl rfl rfl rfl
    · exact .of_same rfl rfl rfl rfl
    · exact mode_op op s.fgVal s
    · exact mode_op op s.hVal s
    · exact .of_same rfl rfl rfl rfl
    · exact .of_same rfl rfl rfl rfl
  | exchange => simp only [applyMove]; split <;> apply ModeLogged.of_same <;> simp
  | detect => apply ModeLogged.of_same <;> simp [applyMove]
  | enter x => simp only [applyMove]; split <;> apply ModeLogged.of_same <;> simp
  | pin i b => simp only [applyMove, pinMove]; split <;> exact .of_same rfl rfl rfl rfl
  | rxDone p => simp only [applyMove, rxDoneEvent]; split <;> apply ModeLogged.of_same <;> simp
  | txDone => simp only [applyMove, txDoneEvent]; split <;> apply ModeLogged.of_same <;> simp
  | host op =>
    cases op with
    | reset => exact absurd rfl h
    | present w => simp only [applyMove, hostAct]; split <;> exact .of_same rfl rfl rfl rfl
    | _ => exact .of_same rfl rfl rfl rfl
  | _ => exact .of_same rfl rfl rfl rfl

end Sys2Proof.Machine
end

