-- ==== Sys2Proof/Laws/Run.lean ====
section
/-! SUPPORT. Running: the lemmas of `runDown`, and what one undisturbed frame does in the foreground. -/

namespace Sys2Proof.Machine

theorem runDown_done {d n : Nat} {s : State} (h : s.depth ≤ d) : runDown d n s = s := by
  cases n <;> simp [runDown, h]

theorem runDown_step {d n : Nat} {s t : State} (h : d < s.depth) (hm : micro s = some t) :
    runDown d (n + 1) s = runDown d n t := by
  simp [runDown, Nat.not_le.mpr h, hm]

theorem runDown_held {d n : Nat} {s : State} (hm : micro s = none) : runDown d n s = s := by
  cases n with
  | zero => rfl
  | succ n => by_cases h : s.depth ≤ d <;> simp [runDown, h, hm]

@[simp] theorem depth_ready {s : State} (h : s.fg = .ready) : s.depth = 0 := by simp [State.depth, h]

theorem depth_run {s : State} {c : Instr} {k : List MicroOp} (h : s.fg = .run c k) : s.depth = k.length + 1 := by
  simp [State.depth, h]

/-- With nothing scheduled, a free foreground that can step steps. -/
theorem micro_fg {s : State} (he : s.env = []) (hh : s.inHandler = .noHandler) (hp : s.pins = s.pinLatch)
    (hx : canExchange s = false) (hf : fgEnabled s = true) : micro s = some (fgStep s) := by
  simp [micro, he, autoMove, hp, hx, hf, applyMove, contextStep, handlerEnabled, hh]

/-- With nothing scheduled, an owed exchange completes. -/
theorem micro_exchange {s : State} (he : s.env = []) (hp : s.pins = s.pinLatch) (hx : canExchange s = true) :
    micro s = some (exchange s) := by
  simp [micro, he, autoMove, hp, hx, applyMove]

theorem micro_exchange_any {s : State} (he : s.env = []) (hp : s.pins = s.pinLatch) (ha : s.cfg.target = .anyAnswer)
    (hx : canExchange s = true) :
    micro s = some { s with
      sdr := s.chipByte 0, xferBusy := false, xferDone := true, phase := .data
      answers := s.answers.drop 1, freeIdx := s.freeIdx + (1 - s.answers.length) } := by
  rw [micro_exchange he hp hx]
  simp [exchange, targetExchange, ha, State.dropAnswers]

/-- Bytes taken from the front of the answers are the later bytes of the whole. -/
theorem answerByte_drop (l : List Byte) (f n j : Nat) :
    answerByte (l.drop n) (f + (n - l.length)) j = answerByte l f (n + j) := by
  unfold answerByte
  rw [List.getElem?_drop]
  cases h : l[n + j]? with
  | some b => rfl
  | none =>
    have := List.getElem?_eq_none_iff.mp h
    simp only [List.length_drop]
    congr 1
    omega

theorem answerByte_tail (l : List Byte) (f j : Nat) :
    answerByte l.tail (f + (1 - l.length)) j = answerByte l f (1 + j) := by
  rw [← List.drop_one]
  exact answerByte_drop l f 1 j

/-- A micro-operation that is no frame and pushes `ops`. -/
theorem runDown_op {d n : Nat} {s : State} {c : Instr} {op : MicroOp} {k ops : List MicroOp} {t : State} {v : Byte}
    (hu : s.Free) (hfg : s.fg = .run c (op :: k)) (hd : d < k.length + 2) (hen : opEnabled op s = true)
    (hop : opStep op s.fgVal s = ⟨t, v, .push ops⟩) :
    runDown d (n + 1) s = runDown d n { t with fgVal := v, fg := Fg.resume c (ops ++ k) } := by
  have hx : canExchange s = false := by simp [canExchange, hu.noFrame]
  have hf : fgEnabled s = true := by simp [fgEnabled, hu.noHandler, hfg, hen]
  rw [runDown_step (by rw [depth_run hfg]; simp; omega)
    (micro_fg hu.noMoves hu.noHandler hu.pinsSeen hx hf)]
  simp [fgStep, hfg, hop]

/-- The two exchanges of an open frame with nothing else going on, up to the state about to close it. -/
theorem runDown_exchanges {d n : Nat} {s : State} {c : Instr} {rw : Bool} {a : Addr} {b : Byte} {k : List MicroOp}
    (hu : s.Undisturbed) (hd : d < k.length + 2) :
    runDown d (n + 4) { openFrame rw a s with fg := .run c (.addrPhase rw a b :: k) } =
      runDown d n (fgStep { s with
        sdr := s.frameByte 0, cs := true, phase := .data, xferBusy := false, xferDone := true, chip := s.chip.select
        answers := s.answers.drop 2, freeIdx := s.freeIdx + (2 - s.answers.length)
        fg := .run c (.dataPhase rw a b :: k) }) := by
  obtain ⟨⟨h1, h2, h3, h4, h5⟩, h6⟩ := hu
  rw [runDown_step (by simp [State.depth]; omega)
    (micro_exchange_any (by simp [openFrame, startXfer, h5]) (by simp [openFrame, startXfer, h3])
      (by simp [openFrame, startXfer, h6]) (by simp [canExchange, openFrame, startXfer, h4]))]
  rw [runDown_step (by simp [State.depth]; omega)
    (micro_fg (by simp [openFrame, startXfer, h5]) (by simp [openFrame, startXfer, h1])
      (by simp [openFrame, startXfer, h3]) (by simp [canExchange])
      (by simp [fgEnabled, openFrame, startXfer, h1, opEnabled]))]
  rw [runDown_step (by simp [State.depth, fgStep, opStep, startXfer, Fg.resume]; omega)
    (micro_exchange_any (by simp [fgStep, opStep, startXfer, openFrame, h5])
      (by simp [fgStep, opStep, startXfer, openFrame, h3]) (by simp [fgStep, opStep, startXfer, openFrame, h6])
      (by simp [fgStep, opStep, startXfer, canExchange, openFrame, h4]))]
  rw [runDown_step (by simp [State.depth, fgStep, opStep, startXfer, Fg.resume]; omega)
    (micro_fg (by simp [fgStep, opStep, startXfer, openFrame, h5])
      (by simp [fgStep, opStep, openFrame, startXfer, h1]) (by simp [fgStep, opStep, openFrame, startXfer, h3])
      (by simp [canExchange])
      (by simp [fgStep, opStep, fgEnabled, openFrame, startXfer, h1, opEnabled, Fg.resume]))]
  congr 2
  simp [fgStep, opStep, Fg.resume, startXfer, openFrame, State.frameByte, State.chipByte, answerByte_tail]
  omega

/-- An undisturbed read frame in the foreground takes five moves (R102). -/
theorem runDown_read {d n : Nat} {s : State} {c : Instr} {a : Addr} {k : List MicroOp}
    (hu : s.Undisturbed) (hfg : s.fg = .run c (.readFrame a :: k)) (hd : d < k.length + 2) :
    runDown d (n + 5) s = runDown d n { s.afterRead a with fg := Fg.resume c k } := by
  have hx : canExchange s = false := by simp [canExchange, hu.noFrame]
  rw [show n + 5 = (n + 4) + 1 from rfl, runDown_step (by rw [depth_run hfg]; simp; omega)
    (micro_fg hu.noMoves hu.noHandler hu.pinsSeen hx (by simp [fgEnabled, hu.noHandler, hfg, opEnabled, hu.noFrame]))]
  have e : fgStep s = { openFrame false a s with fg := .run c (.addrPhase false a s.cfg.dummy :: k) } := by
    simp [fgStep, hfg, opStep, Fg.resume, openFrame, startXfer]
  rw [e, runDown_exchanges hu hd]
  congr 1
  simp [fgStep, opStep, closeFrame, frameDone, State.afterRead, State.afterReadRaw, State.afterFrames, State.irqWith]

/-- An undisturbed write frame in the foreground takes five moves (R103). -/
theorem runDown_write {d n : Nat} {s : State} {c : Instr} {a : Addr} {b : Byte} {k : List MicroOp}
    (hu : s.Undisturbed) (hfg : s.fg = .run c (.writeFrame a b :: k)) (hd : d < k.length + 2) :
    runDown d (n + 5) s = runDown d n { s.afterWrite a b with fg := Fg.resume c k } := by
  have hx : canExchange s = false := by simp [canExchange, hu.noFrame]
  rw [show n + 5 = (n + 4) + 1 from rfl, runDown_step (by rw [depth_run hfg]; simp; omega)
    (micro_fg hu.noMoves hu.noHandler hu.pinsSeen hx (by simp [fgEnabled, hu.noHandler, hfg, opEnabled, hu.noFrame]))]
  have e : fgStep s = { openFrame true a s with fg := .run c (.addrPhase true a b :: k) } := by
    simp [fgStep, hfg, opStep, Fg.resume, openFrame, startXfer]
  rw [e, runDown_exchanges hu hd]
  congr 1
  by_cases h : a = s.cfg.regOpmode
  · simp [fgStep, opStep, closeFrame, frameDone, State.afterWrite, State.afterWriteRaw, State.afterFrames,
      State.irqWith, h, trackOpmode, State.errRecord]
  · simp [fgStep, opStep, closeFrame, frameDone, State.afterWrite, State.afterWriteRaw, State.afterFrames,
      State.irqWith, h]

/-! ### What keeps a machine undisturbed -/

theorem State.Free.congr {s t : State} (h : s.Free) (h1 : t.inHandler = s.inHandler) (h2 : t.cs = false)
    (h3 : t.pins = s.pins) (h4 : t.pinLatch = s.pinLatch) (h5 : t.cfg = s.cfg) (h6 : t.env = s.env) : t.Free :=
  ⟨h1.trans h.noHandler, h2, by rw [h3, h4]; exact h.pinsSeen, by rw [h5]; exact h.busAlive, h6.trans h.noMoves⟩

theorem State.Undisturbed.congr {s t : State} (h : s.Undisturbed) (h1 : t.inHandler = s.inHandler)
    (h2 : t.cs = false) (h3 : t.pins = s.pins) (h4 : t.pinLatch = s.pinLatch) (h5 : t.cfg = s.cfg)
    (h6 : t.env = s.env) : t.Undisturbed :=
  ⟨h.toFree.congr h1 h2 h3 h4 h5 h6, by rw [h5]; exact h.anyAnswer⟩

theorem State.Undisturbed.withFg {s : State} (h : s.Undisturbed) (g : Fg) : State.Undisturbed { s with fg := g } :=
  h.congr rfl h.noFrame rfl rfl rfl rfl

theorem State.Free.withFg {s : State} (h : s.Free) (g : Fg) : State.Free { s with fg := g } :=
  h.congr rfl h.noFrame rfl rfl rfl rfl

theorem State.Undisturbed.afterRead {s : State} (h : s.Undisturbed) (a : Addr) : (s.afterRead a).Undisturbed :=
  h.congr rfl rfl rfl rfl rfl rfl

theorem afterWrite_same (s : State) (a : Addr) (d : Byte) :
    (s.afterWrite a d).inHandler = s.inHandler ∧ (s.afterWrite a d).cs = false ∧ (s.afterWrite a d).pins = s.pins ∧
    (s.afterWrite a d).pinLatch = s.pinLatch ∧ (s.afterWrite a d).cfg = s.cfg ∧ (s.afterWrite a d).env = s.env ∧
    (s.afterWrite a d).fg = s.fg ∧ (s.afterWrite a d).fgVal = s.fgVal ∧ (s.afterWrite a d).tab = s.tab ∧
    (s.afterWrite a d).tp = s.tp ∧ (s.afterWrite a d).res = s.res ∧ (s.afterWrite a d).dat = s.dat ∧
    (s.afterWrite a d).busLog = s.busLog ++ [.frame true a d] := by
  unfold State.afterWrite
  split <;> exact ⟨rfl, rfl, rfl, rfl, rfl, rfl, rfl, rfl, rfl, rfl, rfl, rfl, rfl⟩

theorem State.Undisturbed.afterWrite {s : State} (h : s.Undisturbed) (a : Addr) (d : Byte) :
    (s.afterWrite a d).Undisturbed := by
  obtain ⟨h1, h2, h3, h4, h5, h6, -⟩ := afterWrite_same s a d
  exact h.congr h1 h2 h3 h4 h5 h6

/-- The foreground's control state plays no part in a write frame. -/
theorem afterWrite_withFg (s : State) (g : Fg) (a : Addr) (d : Byte) :
    State.afterWrite { s with fg := g } a d = { s.afterWrite a d with fg := g } := by
  by_cases h : a = s.cfg.regOpmode
  · simp only [State.afterWrite, if_pos h]; rfl
  · simp only [State.afterWrite, if_neg h]; rfl

/-- Bytes of later frames. -/
theorem frameByte_afterFrames (s : State) (n j : Nat) : (s.afterFrames n).frameByte j = s.frameByte (n + j) := by
  simp only [State.frameByte, State.chipByte, State.afterFrames]
  rw [answerByte_drop]
  congr 1
  omega

theorem frameByte_afterRead (s : State) (a : Addr) (j : Nat) : (s.afterRead a).frameByte j = s.frameByte (1 + j) :=
  frameByte_afterFrames s 1 j

theorem frameByte_afterWrite (s : State) (a : Addr) (d : Byte) (j : Nat) :
    (s.afterWrite a d).frameByte j = s.frameByte (1 + j) := by
  rw [← frameByte_afterFrames]
  unfold State.afterWrite
  split <;> rfl

/-! ### The foreground at work, in pieces that compose -/

/-- In an undisturbed machine these operations of the foreground, whatever follows them, take the state from `s` to `u` in `m`
moves; the control state apart. -/
def Goes (c : Instr) (ops : List MicroOp) (s u : State) (m : Nat) : Prop :=
  s.Undisturbed → u.Undisturbed ∧ ∀ (d n : Nat) (k : List MicroOp), d ≤ k.length + 1 →
    runDown d (n + m) { s with fg := Fg.resume c (ops ++ k) } = runDown d n { u with fg := Fg.resume c k }

theorem Goes.nil (c : Instr) (s : State) : Goes c [] s s 0 := fun hu => ⟨hu, fun _ _ _ _ => rfl⟩

theorem Goes.read {c : Instr} {ops : List MicroOp} {s u : State} {m : Nat} (a : Addr)
    (h : Goes c ops (s.afterRead a) u m) : Goes c (.readFrame a :: ops) s u (m + 5) := by
  intro hu
  obtain ⟨h1, h2⟩ := h (hu.afterRead a)
  refine ⟨h1, fun d n k hd => ?_⟩
  have := runDown_read (d := d) (n := n + m) (a := a) (k := ops ++ k) (c := c)
    (s := { s with fg := Fg.resume c (.readFrame a :: ops ++ k) }) (hu.withFg _) rfl
    (by simp only [List.length_append]; omega)
  rw [← Nat.add_assoc, this, ← h2 d n k hd]
  rfl

theorem Goes.write {c : Instr} {ops : List MicroOp} {s u : State} {m : Nat} (a : Addr) (b : Byte)
    (h : Goes c ops (s.afterWrite a b) u m) : Goes c (.writeFrame a b :: ops) s u (m + 5) := by
  intro hu
  obtain ⟨h1, h2⟩ := h (hu.afterWrite a b)
  refine ⟨h1, fun d n k hd => ?_⟩
  have := runDown_write (d := d) (n := n + m) (a := a) (b := b) (k := ops ++ k) (c := c)
    (s := { s with fg := Fg.resume c (.writeFrame a b :: ops ++ k) }) (hu.withFg _) rfl
    (by simp only [List.length_append]; omega)
  rw [← Nat.add_assoc, this, ← h2 d n k hd, afterWrite_withFg]

/-- A micro-operation that is no frame: enabled, it pushes `new` and leaves `t` with the local `v`. -/
theorem Goes.op {c : Instr} {op : MicroOp} {new ops : List MicroOp} {s t u : State} {v : Byte} {m : Nat}
    (he : opEnabled op s = true)
    (hs : ∀ g, opStep op s.fgVal { s with fg := g } = ⟨{ t with fg := g }, v, .push new⟩)
    (ht : s.Undisturbed → t.Undisturbed) (h : Goes c (new ++ ops) { t with fgVal := v } u m) :
    Goes c (op :: ops) s u (m + 1) := by
  intro hu
  have ht' : State.Undisturbed { t with fgVal := v } := (ht hu).congr rfl (ht hu).noFrame rfl rfl rfl rfl
  obtain ⟨h1, h2⟩ := h ht'
  refine ⟨h1, fun d n k hd => ?_⟩
  have he' : opEnabled op { s with fg := Fg.resume c (op :: ops ++ k) } = true := by
    cases op with
    | burstWrite j => cases j <;> exact he
    | _ => exact he
  have := runDown_op (d := d) (n := n + m) (k := ops ++ k) (c := c) (op := op) (ops := new) (v := v)
    (s := { s with fg := Fg.resume c (op :: ops ++ k) }) (hu.withFg _).toFree rfl
    (by simp only [List.length_append]; omega) he' (hs _)
  rw [← Nat.add_assoc, this, ← h2 d n k hd, List.append_assoc]

theorem Goes.append {c : Instr} {ops ops' : List MicroOp} {s t u : State} {m m' : Nat} (h : Goes c ops s t m)
    (h' : Goes c ops' t u m') : Goes c (ops ++ ops') s u (m' + m) := by
  intro hu
  obtain ⟨h1, h2⟩ := h hu
  obtain ⟨h3, h4⟩ := h' h1
  refine ⟨h3, fun d n k hd => ?_⟩
  rw [← Nat.add_assoc, List.append_assoc, h2 d (n + m') (ops' ++ k) (by simp only [List.length_append]; omega),
    h4 d n k hd]

/-- A command whose operations go from `s` to `u` completes there. -/
theorem Goes.command {c : Instr} {ops : List MicroOp} {s u : State} {m : Nat} (h : Goes c ops s u m)
    (hu : s.Undisturbed) (hg : s.fg = .ready) (hug : u.fg = .ready) (hm : m ≤ 262144) :
    runCommand c ops s = u := by
  obtain ⟨-, h2⟩ := h hu
  obtain ⟨n, hn⟩ : ∃ n, moveBudget s = n + m := ⟨moveBudget s - m, by unfold moveBudget; omega⟩
  have := h2 0 n [] (by simp)
  simp only [runCommand, hg, hn]
  rw [List.append_nil] at this
  rw [this, runDown_done (by simp [State.depth, Fg.resume])]
  simp only [Fg.resume]
  rw [← hug]

/-- Operations run inside a command in progress leave it at the rest of its own. -/
theorem Goes.inner {c c' : Instr} {ops k : List MicroOp} {s u : State} {m : Nat} (h : Goes c ops s u m)
    (hu : s.Undisturbed) (hg : s.fg = .run c k) (hm : m ≤ 262144) :
    runInner c' ops s = { u with fg := Fg.resume c k } := by
  obtain ⟨-, h2⟩ := h hu
  obtain ⟨n, hn⟩ : ∃ n, moveBudget s = n + m := ⟨moveBudget s - m, by unfold moveBudget; omega⟩
  simp only [runInner, hg, hn]
  rw [h2 _ n k le_rfl, runDown_done]
  cases k <;> simp [State.depth, Fg.resume]

end Sys2Proof.Machine
end

