-- ==== Sys2Proof/Laws/Loops.lean ====
section
/-! SUPPORT. The loops of the register access layer and of the sequencer: bursts (R105, R106) and the table walk (R120), as
runs of an undisturbed foreground. -/

namespace Sys2Proof.Machine

/-- In `Ready` a frame or an entry runs as a command. -/
theorem runInner_ready {s : State} (c : Instr) (ops : List MicroOp) (h : s.fg = .ready) :
    runInner c ops s = runCommand c ops s := by
  simp [runCommand, runInner, h]

/-- A write frame leaves the control state alone. -/
theorem afterWrite_fg (s : State) (a : Addr) (d : Byte) : (s.afterWrite a d).fg = s.fg := (afterWrite_same s a d).2.2.2.2.2.2.1

/-! ### Bursts -/

/-- A burst read of `n` bytes takes seven moves a byte (R105). -/
theorem goes_brd (c : Instr) (n : Nat) (s : State) : Goes c [.burstRead n false] s (s.afterBurstRead n) (7 * n + 1) := by
  induction n generalizing s with
  | zero => exact .op (op := .burstRead 0 false) (new := []) (t := s) rfl (fun g => rfl) id (.nil _ _)
  | succ n ih =>
    exact .op (op := .burstRead (n+1) false) (new := [.readFrame s.cfg.regFifo, .toRes, .burstRead n false]) (t := s) rfl (fun g => rfl) id 
      (.read _ (.op (op := .toRes) (new := []) (t := { s.afterRead s.cfg.regFifo with res := s.res ++ [s.frameByte 0] }) rfl (fun g => rfl) (fun h => h.congr rfl rfl rfl rfl rfl rfl) (ih _)))

/-- What a burst read delivers (R105). -/
theorem brd_facts (n : Nat) (s : State) : (s.afterBurstRead n).fg = s.fg ∧ (s.afterBurstRead n).res = s.res ++ (List.range n).map s.frameByte ∧
    (s.afterBurstRead n).busLog = s.busLog ++ (List.range n).map (fun j => .frame false s.cfg.regFifo (s.frameByte j)) := by
  induction n generalizing s with
  | zero => simp [State.afterBurstRead]
  | succ n ih =>
    obtain ⟨h1, h2, h3⟩ := ih { s.afterRead s.cfg.regFifo with res := s.res ++ [s.frameByte 0] }
    have hf : ∀ j, State.frameByte { s.afterRead s.cfg.regFifo with res := s.res ++ [s.frameByte 0] } j = s.frameByte (j+1) := by
      intro j; rw [Nat.add_comm]; exact frameByte_afterRead s s.cfg.regFifo j
    simp only [State.afterBurstRead, h1, h2, h3]
    refine ⟨rfl, ?_, ?_⟩
    · rw [List.range_succ_eq_map]
      simp [hf, Function.comp_def]
    · rw [List.range_succ_eq_map]
      simp only [hf, List.map_cons, List.map_map, Function.comp_def]
      simp [State.afterRead, State.afterReadRaw, State.afterFrames]

/-- A burst write goes through the bytes at the data port (R106). -/
theorem goes_bwr (c : Instr) (n r : Nat) (s : State) (h : n ≤ s.dat.length) : ∃ m, m ≤ 6 * n  ∧ ∀ ops u m', 
   Goes c (.burstWrite r :: ops) (s.afterBurstWrite n) u m' → Goes c (.burstWrite (n + r) :: ops) s u (m' + m) := by
  induction n generalizing s with
  | zero => exact ⟨0, le_rfl, fun ops u m' hh => by simpa [State.afterBurstWrite] using hh⟩
  | succ n ih =>
    cases hd : s.dat with
    | nil => simp [hd] at h
    | cons b bs =>
      have hd2 : State.dat (State.afterWrite { s with dat := bs } s.cfg.regFifo b) = bs := (afterWrite_same _ _ _).2.2.2.2.2.2.2.2.2.2.2.1
      obtain ⟨m, hm, ih⟩ := ih (State.afterWrite { s with dat := bs } s.cfg.regFifo b) (by rw [hd2]; simp [hd] at h; exact h)
      refine ⟨m + 5 + 1, by omega, fun ops u m' hh => ?_⟩
      rw [show n + 1 + r = (n + r) + 1 by omega]
      refine .op (op := .burstWrite (n + r + 1)) (new := [.writeFrame s.cfg.regFifo b, .burstWrite (n + r)]) (t := { s with dat := bs }) (v := s.fgVal) (by simp [opEnabled, hd]) (fun g => by simp [opStep, hd]) (fun h => h.congr rfl h.noFrame rfl rfl rfl rfl) ?_
      refine .write _ _ (ih ops u m' ?_)
      have e : State.afterWrite { s with dat := bs } s.cfg.regFifo b = { s.afterWrite s.cfg.regFifo b with dat := bs } := by
        by_cases hh : s.cfg.regFifo = s.cfg.regOpmode
        · simp only [State.afterWrite, if_pos hh]; rfl
        · simp only [State.afterWrite, if_neg hh]; rfl
      rw [e]
      simpa [State.afterBurstWrite, hd] using hh

/-- What a burst write consumes and sends (R106). -/
theorem bwr_facts (n : Nat) (s : State) (h : n ≤ s.dat.length) : 
    (s.afterBurstWrite n).fg = s.fg ∧ (s.afterBurstWrite n).dat = s.dat.drop n ∧
    (s.afterBurstWrite n).res = s.res ∧
    (s.afterBurstWrite n).busLog =
      s.busLog ++ (s.dat.take n).map (fun b => .frame true s.cfg.regFifo b) := by
  induction n generalizing s with
  | zero => simp [State.afterBurstWrite]
  | succ n ih =>
    cases hd : s.dat with
    | nil => simp [hd] at h
    | cons b bs =>
      simp only [State.afterBurstWrite, hd]
      obtain ⟨h1, h2, h3, h4⟩ := ih { s.afterWrite s.cfg.regFifo b with dat := bs } (by simp [hd] at h; exact h)
      have hs := afterWrite_same s s.cfg.regFifo b
      obtain ⟨g1, g2, g3, g4, g5, g6, g7, g8, g9, g10, g11, g12, g13⟩ := hs
      refine ⟨h1.trans g7, h2, h3.trans g11, h4.trans ?_⟩
      show (s.afterWrite s.cfg.regFifo b).busLog ++ List.map (fun b_1 => BusEvent.frame true (s.afterWrite s.cfg.regFifo b).cfg.regFifo b_1) (List.take n bs) = _
      rw [g5, g13]
      simp

/-! ### The table walk -/

/-- A table is its first entry and the table two bytes on (R74). -/
theorem entriesAt_cons {tab : Memory} {p : TabAddr} {a : Addr} {v : Byte} {es : List (Addr × Byte)} :
    EntriesAt tab p ((a, v) :: es) ↔ Memory.tabEntry tab p = entryWord (addrByte false a) v ∧ EntriesAt tab (p + 2) es := by
  constructor
  · intro h
    refine ⟨?_, fun i hi => ?_⟩
    · have h0 := h 0 (by simp)
      rwa [show p + BitVec.ofNat 16 (2 * 0) = p by simp] at h0
    have := h (i+1) (by simpa using hi)
    simp only [List.getElem_cons_succ] at this
    rw [← this]
    congr 1
    rw [BitVec.add_assoc]
    congr 1
    rw [show 2 * (i+1) = 2 + 2 * i by ring, BitVec.ofNat_add]
    rfl
  · rintro ⟨h1, h2⟩ i hi
    cases i with
    | zero => simpa using h1
    | succ i =>
      have := h2 i (by simpa using hi)
      simp only [List.getElem_cons_succ]
      rw [← this]
      congr 1
      rw [BitVec.add_assoc]
      congr 1
      rw [show 2 * (i+1) = 2 + 2 * i by ring, BitVec.ofNat_add]
      rfl

/-- The end of a table, past its first entry. -/
theorem tableEnd_cons (p : TabAddr) (e : Addr × Byte) (es : List (Addr × Byte)) : tableEnd p (e :: es) = tableEnd (p + 2) es := by
  simp only [tableEnd, List.length_cons]
  rw [BitVec.add_assoc]
  congr 1
  rw [show 2 * (es.length+1) = 2 + 2 * es.length by ring, BitVec.ofNat_add]
  rfl

/-- The table pointer plays no part in a write frame. -/
theorem afterWrite_withTp (s : State) (q : TabAddr) (a : Addr) (d : Byte) : State.afterWrite {s with tp := q} a d = {s.afterWrite a d with tp := q} := by
  by_cases h : a = s.cfg.regOpmode
  · simp only [State.afterWrite, if_pos h]; rfl
  · simp only [State.afterWrite, if_neg h]; rfl

/-- A walk goes through its entries, seven moves each (R120). -/
theorem goes_entries {c : Instr} {ops : List MicroOp} {u : State} {m : Nat} (es : List (Addr × Byte)) (s : State)
   (h : EntriesAt s.tab s.tp es) (hh : Goes c (.walk :: ops) (State.afterEntries es s) u m) :
   Goes c (.walk :: ops) s u (m + 7 * es.length) := by
  induction es generalizing s with
  | nil => exact hh
  | cons e es ih =>
    obtain ⟨a, v⟩ := e
    obtain ⟨h1, h2⟩ := entriesAt_cons.mp h
    have hd : decodeEntry (Memory.tabEntry s.tab s.tp) = .ok (.ent a v) := by rw [h1, decodeEntry_ent]
    have g := afterWrite_same s a v
    have hx := ih { s.afterWrite a v with tp := s.tp + 2 } (by simpa [g] using h2) hh
    rw [show m + 7 * (List.length ((a,v)::es)) = (m + 7 * es.length) + 1 + 5 + 1 by simp; ring]
    refine .op (op := .walk) (new := [.writeFrame a v, .tpAdvance, .walk]) (t := s) (v := s.fgVal) rfl (fun g => by simp [opStep, walkStep, hd, entryOps]) id ?_
    refine .write a v (.op (op := .tpAdvance) (new := []) (t := { s.afterWrite a v with tp := s.tp + 2 }) (v := s.fgVal) rfl (fun g' => ?_) (fun h => h.congr rfl h.noFrame rfl rfl rfl rfl) ?_)
    · simp [opStep, g]
    · have e : ({ s.afterWrite a v with tp := s.tp + 2, fgVal := s.fgVal } : State) = { s.afterWrite a v with tp := s.tp + 2 } := by
        conv_lhs => rw [← g.2.2.2.2.2.2.2.1]
      exact e ▸ hx

/-- The sentinel ends a walk (R75, R120). -/
theorem goes_sentinel {c : Instr} {ops : List MicroOp} {s u : State} {m : Nat} (h : Memory.tabByte s.tab s.tp = sentinelByte) (hh : Goes c ops s u m) : Goes c (.walk :: ops) s u (m+1) := by
  refine .op (op := .walk) (new := []) (t := s) (v := s.fgVal) rfl (fun g => ?_) id hh
  have hd : decodeEntry (Memory.tabEntry s.tab s.tp) = .ok .endTable := by
    have : Memory.tabEntry s.tab s.tp = entryWord (Memory.tabByte s.tab s.tp) (Memory.tabByte s.tab (s.tp + 1)) := rfl
    rw [this, h, decodeEntry_entryWord, if_pos rfl]
  simp [opStep, walkStep, hd]

/-- What applying entries leaves alone, and what it logs. -/
theorem entries_facts (es : List (Addr × Byte)) (s : State) : (State.afterEntries es s).fg = s.fg ∧ (State.afterEntries es s).tab = s.tab ∧ (State.afterEntries es s).cfg = s.cfg ∧ (State.afterEntries es s).tp = tableEnd s.tp es ∧ (State.afterEntries es s).busLog = s.busLog ++ es.map (fun e => .frame true e.1 e.2)  := by
  induction es generalizing s with
  | nil => simp [State.afterEntries, tableEnd]
  | cons e es ih =>
    obtain ⟨a, v⟩ := e
    have g := afterWrite_same s a v
    obtain ⟨h1, h2, h3, h4, h5⟩ := ih { s.afterWrite a v with tp := s.tp + 2 }
    refine ⟨h1.trans g.2.2.2.2.2.2.1, h2.trans g.2.2.2.2.2.2.2.2.1, h3.trans g.2.2.2.2.1, h4.trans (tableEnd_cons _ (a,v) _).symm, h5.trans ?_⟩
    show (s.afterWrite a v).busLog ++ _ = _
    rw [g.2.2.2.2.2.2.2.2.2.2.2.2]
    simp

/-- A whole table (R120). -/
theorem goes_table {c : Instr} (s : State) (p : TabAddr) (es : List (Addr × Byte)) (h1 : EntriesAt s.tab p es) (h2 : Memory.tabByte s.tab (tableEnd p es) = sentinelByte) :
   Goes c [.setTp p, .walk] s (State.afterEntries es { s with tp := p }) (0 + 1 + 7 * es.length + 1) := by
  refine .op (op := .setTp p) (new := []) (t := { s with tp := p }) (v := s.fgVal) rfl (fun g => rfl) (fun h => h.congr rfl h.noFrame rfl rfl rfl rfl) ?_
  refine goes_entries es _ h1 (goes_sentinel ?_ (.nil _ _))
  obtain ⟨-, a, -, b, -⟩ := entries_facts es { s with tp := p }
  rw [a, b]; exact h2

end Sys2Proof.Machine
end

