-- ==== Sys2Proof/Laws/PerInstr.lean ====
section
/-! SUPPORT. A statement about every instruction as syntax, one lemma per constructor: its encoding is matched by the row of R84
with its mnemonic. -/

namespace Sys2Proof.Laws

/-- The encoding of an instruction fits its row of R84: `word & mask = match`. -/
def FitsRow.Statement (i : Instr) : Prop :=
  match encode i with
  | .cmd w => ∃ r ∈ cmdRows, r.mnemonic = i.mnemonic ∧ w &&& r.mask = r.pattern
  | .frame w => w &&& 0x8000 = (if i.mnemonic = "WRF" then 0x8000 else 0x0000) ∧ i.mnemonic ∈ ["RDF", "WRF"]
  | .entry w => (i.mnemonic = "ENT" ∧ w &&& 0x8000 = 0x0000) ∨ (i.mnemonic = "END" ∧ w &&& 0xFF00 = 0xFF00)

/-- Bit by bit. -/
theorem bits_eq {n : Nat} {x y : BitVec n} (h : ∀ i : Fin n, x.getLsbD i = y.getLsbD i) : x = y :=
  BitVec.eq_of_getLsbD_eq fun i hi => h ⟨i, hi⟩

theorem FitsRow.rd (a : Addr) : FitsRow.Statement (.rd a) := by
  refine ⟨cmdRows[0], by decide, rfl, ?_⟩
  apply bits_eq
  simp [Fin.forall_fin_succ, cmdWord_getLsbD, cmdRows, -BitVec.getLsbD_eq_getElem]

theorem FitsRow.wr (a : Addr) (v : Byte) : FitsRow.Statement (.wr a v) := by
  refine ⟨cmdRows[1], by decide, rfl, ?_⟩
  apply bits_eq
  simp [Fin.forall_fin_succ, cmdWord_getLsbD, cmdRows, -BitVec.getLsbD_eq_getElem]

theorem FitsRow.upd (a : Addr) (k n : Byte) : FitsRow.Statement (.upd a k n) := by
  refine ⟨cmdRows[2], by decide, rfl, ?_⟩
  apply bits_eq
  simp [Fin.forall_fin_succ, cmdWord_getLsbD, cmdRows, -BitVec.getLsbD_eq_getElem]

theorem FitsRow.brd (n : Byte) : FitsRow.Statement (.brd n) := by
  refine ⟨cmdRows[3], by decide, rfl, ?_⟩
  apply bits_eq
  simp [Fin.forall_fin_succ, cmdWord_getLsbD, cmdRows, -BitVec.getLsbD_eq_getElem]

theorem FitsRow.bwr (n : Byte) : FitsRow.Statement (.bwr n) := by
  refine ⟨cmdRows[4], by decide, rfl, ?_⟩
  apply bits_eq
  simp [Fin.forall_fin_succ, cmdWord_getLsbD, cmdRows, -BitVec.getLsbD_eq_getElem]

theorem FitsRow.cfg (p : TabAddr) : FitsRow.Statement (.cfg p) := by
  refine ⟨cmdRows[5], by decide, rfl, ?_⟩
  apply bits_eq
  simp [Fin.forall_fin_succ, cmdWordW_getLsbD, cmdRows, -BitVec.getLsbD_eq_getElem]

theorem FitsRow.rstp : FitsRow.Statement .rstp := ⟨cmdRows[6], by decide, rfl, by decide⟩

theorem FitsRow.verrd : FitsRow.Statement .verrd := ⟨cmdRows[7], by decide, rfl, by decide⟩

theorem FitsRow.initReceiver : FitsRow.Statement .initReceiver := ⟨cmdRows[8], by decide, rfl, by decide⟩

theorem FitsRow.initTransmitter : FitsRow.Statement .initTransmitter := ⟨cmdRows[9], by decide, rfl, by decide⟩

theorem FitsRow.mode (m : Mode) : FitsRow.Statement (.mode m) := by cases m <;> exact ⟨cmdRows[10], by decide, rfl, by decide⟩

theorem FitsRow.dump (a : Addr) : FitsRow.Statement (.dump a) := by
  refine ⟨cmdRows[11], by decide, rfl, ?_⟩
  apply bits_eq
  simp [Fin.forall_fin_succ, cmdWord_getLsbD, cmdRows, -BitVec.getLsbD_eq_getElem]

theorem FitsRow.txwait : FitsRow.Statement .txwait := ⟨cmdRows[12], by decide, rfl, by decide⟩

theorem FitsRow.idle : FitsRow.Statement .idle := ⟨cmdRows[13], by decide, rfl, by decide⟩

theorem FitsRow.pause (c : BitVec 16) : FitsRow.Statement (.pause c) := by
  refine ⟨cmdRows[14], by decide, rfl, ?_⟩
  apply bits_eq
  simp [Fin.forall_fin_succ, cmdWordW_getLsbD, cmdRows, -BitVec.getLsbD_eq_getElem]

theorem FitsRow.ien (e : Bool) : FitsRow.Statement (.ien e) := by cases e <;> exact ⟨cmdRows[15], by decide, rfl, by decide⟩

theorem FitsRow.rdf (a : Addr) : FitsRow.Statement (.rdf a) := by
  refine ⟨?_, by simp [Instr.mnemonic]⟩
  apply bits_eq
  simp [Fin.forall_fin_succ, frameWord_eq, entryWord_getLsbD, addrByte_getLsbD, -BitVec.getLsbD_eq_getElem, Instr.mnemonic]

theorem FitsRow.wrf (a : Addr) (d : Byte) : FitsRow.Statement (.wrf a d) := by
  refine ⟨?_, by simp [Instr.mnemonic]⟩
  apply bits_eq
  simp [Fin.forall_fin_succ, frameWord_eq, entryWord_getLsbD, addrByte_getLsbD, -BitVec.getLsbD_eq_getElem, Instr.mnemonic]

theorem FitsRow.ent (a : Addr) (v : Byte) : FitsRow.Statement (.ent a v) := by
  refine .inl ⟨rfl, ?_⟩
  apply bits_eq
  simp [Fin.forall_fin_succ, entryWord_getLsbD, addrByte_getLsbD, -BitVec.getLsbD_eq_getElem]

theorem FitsRow.endTable : FitsRow.Statement .endTable := .inr ⟨rfl, by decide⟩

end Sys2Proof.Laws
end

