-- ==== Sys2Proof/Laws/Wake.lean ====
section
/-! SUPPORT. The first move of a command, the moves of handlers, and the wake of a sleep by a handler without bus use (R207 to
R213, R180). -/

namespace Sys2Proof.Machine

/-- A run may take at least a hundred moves. -/
theorem moveBudget_hundred (s : State) : ∃ n, moveBudget s = n + 100 := ⟨262044 + 4096 * s.env.length, by unfold moveBudget; omega⟩


/-- The first move of a command in a free machine. -/
theorem first_step {s : State} (c : Instr) (op : MicroOp) (k : List MicroOp) (hf : s.Free) (hg : s.fg = .ready) (he : opEnabled op { s with fg := .run c (op :: k) } = true) :
   ∃ n, runCommand c (op :: k) s = runDown 0 (n + 99) (fgStep { s with fg := .run c (op :: k) }) := by
  obtain ⟨n, hn⟩ := moveBudget_hundred s
  obtain ⟨a1,a2,a3,a4,a5⟩ := hf
  refine ⟨n, ?_⟩
  simp only [runCommand, hg, hn, Fg.resume]
  exact runDown_step (s := { s with fg := .run c (op :: k) }) (by simp [State.depth]) (micro_fg a5 a1 a3 (by simp [canExchange, a2]) (by have : s.inHandler = .noHandler := a1; simp only [fgEnabled, this]; rw [← this]; exact he))

/-- With the foreground unable to step, the default policy takes the interrupt it prefers (R206). -/
theorem micro_enter {s : State} {x : Source} (he : s.env = []) (hp : s.pins = s.pinLatch) (hc : s.cs = false) (hh : s.inHandler = .noHandler)
   (hf : fgEnabled s = false) (hx : pickSource s = some x) : micro s = some (enterHandler x s) := by
  have : accepts x s = true := by simpa using List.find?_some hx
  simp [micro, he, autoMove, hp, canExchange, hc, handlerEnabled, hh, hf, hx, applyMove, this]

/-- A running handler that can step steps. -/
theorem micro_handler {s : State} (he : s.env = []) (hp : s.pins = s.pinLatch) (hc : canExchange s = false) (hh : handlerEnabled s = true) : micro s = some (handlerStep s) := by
  simp [micro, he, autoMove, hp, hc, hh, applyMove, contextStep]

/-- The three sources are different. -/
theorem source_beq : (Source.tick == Source.console) = false ∧ (Source.pinChange == Source.console) = false ∧ (Source.tick != Source.pinChange) = true ∧ (Source.tick != Source.console) = true ∧ (Source.console != Source.pinChange) = true ∧ (Source.console != Source.tick) = true ∧ (Source.pinChange != Source.tick) = true ∧ (Source.pinChange != Source.console) = true := by decide

/-- The choice of a source reads neither the control state nor the wake bit. -/
theorem pick_fg (s : State) (g : Fg) (w : Bool) : pickSource { s with fg := g, woken := w } = pickSource s := rfl

/-- A sleep is ended by the return of one handler; with no bus use that takes at most five moves (R180, R209). -/
theorem wake_runs {s : State} {x : Source} {d : Nat} {c : Instr} {k : List MicroOp} (he : s.env = []) (hp : s.pins = s.pinLatch) (hc : s.cs = false) (hh : s.inHandler = .noHandler)
   (hg : s.fg = .asleep c k) (hw : s.woken = false) (hq : s.QuietWake x) (hd : d < k.length + 1) :
   ∃ m, m ≤ 5 ∧ ∀ n, runDown d (n + m) s = runDown d n { s.afterWake x with fg := Fg.resume c k } := by
  obtain ⟨hq, hv⟩ := hq
  have hacc : accepts x s = true := by simpa using List.find?_some hq
  have hien : s.ien = true := by simp [accepts] at hacc; exact hacc.1.1.1
  have hdep : d < s.depth := by simp [State.depth, hg]; omega
  have hm := micro_enter he hp hc hh (by simp [fgEnabled, hh, hg, hw]) hq
  have hfin : ∀ t : State, t.env = [] → t.pins = t.pinLatch → t.cs = false → t.inHandler = .noHandler → t.fg = .asleep c k → t.woken = true → 
      ∀ n, runDown d (n+1) t = runDown d n { t with fg := Fg.resume c k } := by
    intro t b1 b2 b3 b4 b5 b6 n
    rw [runDown_step (by simp [State.depth, b5]; omega) (micro_fg b1 b4 b2 (by simp [canExchange, b3]) (by simp [fgEnabled, b4, b5, b6]))]
    simp [fgStep, b5]
  cases x with
  | tick =>
    refine ⟨3, by omega, fun n => ?_⟩
    rw [show n + 3 = ((n+1)+1)+1 by omega, runDown_step hdep hm, runDown_step (by simp [State.depth, hg]; omega) (micro_handler (by simp [he]) (by simp [hp]) (by simp [canExchange, hc]) (by simp [handlerEnabled, handlerOf])), hfin]
    all_goals simp [handlerStep, handlerOf, he, hp, hc, hg]
    congr 1
    simp [State.afterWake, source_beq, hh, hien, hc, he, hp]
  | console =>
    refine ⟨3, by omega, fun n => ?_⟩
    rw [show n + 3 = ((n+1)+1)+1 by omega, runDown_step hdep hm, runDown_step (by simp [State.depth, hg]; omega) (micro_handler (by simp [he]) (by simp [hp]) (by simp [canExchange, hc]) (by simp [handlerEnabled, handlerOf])), hfin]
    all_goals simp [handlerStep, handlerOf, he, hp, hc, hg]
    congr 1
    simp [State.afterWake, source_beq, hh, hien, hc, he, hp]
  | pinChange =>
    have hv := hv rfl
    by_cases hr : s.variant = some .receiver
    · have hdio : s.pins.dio = false := by rcases hv with h | h; exact absurd hr h; exact h
      have hdio' : s.pinLatch.dio = false := by rw [← hp]; exact hdio
      refine ⟨5, by omega, fun n => ?_⟩
      rw [show n + 5 = ((((n+1)+1)+1)+1)+1 by omega, runDown_step hdep hm]
      rw [runDown_step (by simp [State.depth, hg]; omega) (micro_handler (by simp [he]) (by simp [hp]) (by simp [canExchange, hc]) (by simp [handlerEnabled, handlerOf, opEnabled]))]
      rw [runDown_step (by simp [State.depth, hg, handlerStep, handlerOf, opStep]; omega) (micro_handler (by simp [he, handlerStep, handlerOf, opStep]) (by simp [hp, handlerStep, handlerOf, opStep]) (by simp [canExchange, hc, handlerStep, handlerOf, opStep]) (by simp [handlerEnabled, handlerOf, opEnabled, handlerStep, opStep, hr]))]
      rw [runDown_step (by simp [State.depth, hg, handlerStep, handlerOf, opStep, hr]; omega) (micro_handler (by simp [he, handlerStep, handlerOf, opStep, hr]) (by simp [hp, handlerStep, handlerOf, opStep, hr]) (by simp [canExchange, hc, handlerStep, handlerOf, opStep, hr]) (by simp [handlerEnabled, handlerOf, handlerStep, opStep, hr, hdio]))]
      rw [hfin]
      all_goals simp [handlerStep, handlerOf, opStep, he, hp, hc, hg, hr, hdio']
      congr 1
      simp [State.afterWake, source_beq, hh, hien, hc, he, hp, hr]
    · refine ⟨4, by omega, fun n => ?_⟩
      rw [show n + 4 = (((n+1)+1)+1)+1 by omega, runDown_step hdep hm]
      rw [runDown_step (by simp [State.depth, hg]; omega) (micro_handler (by simp [he]) (by simp [hp]) (by simp [canExchange, hc]) (by simp [handlerEnabled, handlerOf, opEnabled]))]
      rw [runDown_step (by simp [State.depth, hg, handlerStep, handlerOf, opStep]; omega) (micro_handler (by simp [he, handlerStep, handlerOf, opStep]) (by simp [hp, handlerStep, handlerOf, opStep]) (by simp [canExchange, hc, handlerStep, handlerOf, opStep]) (by simp [handlerEnabled, handlerOf, handlerStep, opStep, hr]))]
      rw [hfin]
      all_goals simp [handlerStep, handlerOf, opStep, he, hp, hc, hg, hr]
      congr 1
      simp [State.afterWake, source_beq, hh, hien, hc, he, hp]

end Sys2Proof.Machine
end

