-- ==== Sys2Proof/Machine/Programs.lean ====
section
/-! DEFINITION. What 30_encoding.md and 44_power_scheduler.md write on top of the commands: the pseudo-operations (R83), the
assembler text (R82), and the host programs of the two variants (R186, R187). -/

namespace Sys2Proof.Machine

/-- The pseudo-operations of R83; none has an encoding of its own. -/
inductive Pseudo where
  | ack
  | slp
  | stb
  | rxc
  | txm
  | setptr (v : Byte)
  | setb (a : Addr) (b : Byte)
  | clrb (a : Addr) (b : Byte)
  | lora
  | txcyc (p : TabAddr) (c : BitVec 16)
  deriving DecidableEq, Repr

/-- The expansion of a pseudo-operation (R83). -/
def Pseudo.expand (c : Config) : Pseudo → List Instr
  | .ack => [.wr c.regIrqFlags c.clearAll]
  | .slp => [.mode .sleep]
  | .stb => [.mode .standby]
  | .rxc => [.mode .receiveContinuous]
  | .txm => [.mode .transmit]
  | .setptr v => [.wr c.regFifoAddrPtr v]
  | .setb a b => [.upd a (~~~b) b]
  | .clrb a b => [.upd a (~~~b) 0x00]
  | .lora => [.upd c.regOpmode (~~~(withBit 0x00 c.loraBit true)) (withBit 0x00 c.loraBit true)]
  | .txcyc p n => [.cfg p, .txwait, .pause n]

/-- The transmitter's commands before its loop (R186). -/
def transmitterPrologue : List Instr := [.initTransmitter, .ien true]

/-- One turn of the transmitter's loop (R186). -/
def transmitterTurn (c : Config) : List Instr := [.txwait, .pause c.pauseCycles, .cfg c.tabTx]

/-- The receiver's commands before its loop, which is `IDLE` for ever (R187). -/
def receiverPrologue : List Instr := [.initReceiver, .ien true]

/-- One turn of the receiver's loop (R187). -/
def receiverTurn : List Instr := [.idle]

/-- A number in the assembler text (R82). -/
def hex {n : Nat} (x : BitVec n) : String := "0x" ++ x.toHex

/-- The name of a mode in the assembler text (R82). -/
def Mode.text : Mode → String
  | .sleep => "Sleep"
  | .standby => "Standby"
  | .receiveContinuous => "ReceiveContinuous"
  | .transmit => "Transmit"

/-- The assembler text of an instruction (R82). -/
def Instr.text : Instr → String
  | .rd a => "RD " ++ hex a
  | .wr a v => "WR " ++ hex a ++ ", " ++ hex v
  | .upd a k n => "UPD " ++ hex a ++ ", " ++ hex k ++ ", " ++ hex n
  | .brd n => "BRD " ++ hex n
  | .bwr n => "BWR " ++ hex n
  | .cfg p => "CFG " ++ hex p
  | .rstp => "RSTP"
  | .verrd => "VERRD"
  | .initReceiver => "INIT Receiver"
  | .initTransmitter => "INIT Transmitter"
  | .mode m => "MODE " ++ Mode.text m
  | .dump a => "DUMP " ++ hex a
  | .txwait => "TXWAIT"
  | .idle => "IDLE"
  | .pause c => "PAUSE " ++ hex c
  | .ien e => if e then "IEN 1" else "IEN 0"
  | .rdf a => "RDF " ++ hex a
  | .wrf a d => "WRF " ++ hex a ++ ", " ++ hex d
  | .ent a v => "ENT " ++ hex a ++ ", " ++ hex v
  | .endTable => "END"

/-- The text of a status line (R31). -/
def TxStatus.text : TxStatus → String
  | .txStart => "transmit"
  | .txDone => "transmit done"

end Sys2Proof.Machine
end

