-- ==== Sys2Proof/Tests/Slice0.lean ====
section
/-! SUPPORT. Tests. Expected values are those of 95_test_vectors.md (the vector is named in each docstring) or written out by hand
from the encoding tables of 30_encoding.md. The second part gives, for every statement with hypotheses, states and operands
that meet them all. -/

namespace Sys2Proof.Tests

open Sys2Proof Sys2Proof.Machine

set_option maxRecDepth 20000
set_option Elab.async false

/-! ### Helpers -/

/-- The next state of an outcome, or a given one. -/
def nextOr (s : State) (o : Host.Outcome State Fault Refusal) : State :=
  match o with
  | .next t => t
  | _ => s

/-- Execute an instruction. -/
def go (s : State) (i : Instr) : State := nextOr s (exec i s)

/-- Execute instructions one after another. -/
def goAll (s : State) (is : List Instr) : State := is.foldl go s

/-- Present a word and step once. -/
def present (s : State) (w : Word) : State := nextOr s (step { s with cmdPort := some w })

/-- Step `n` times. -/
def steps : Nat → State → State
  | 0, s => s
  | n + 1, s => steps n (nextOr s (step s))

/-- Reset against the reference target, with a packet buffer of zeros after the first reset pulse. -/
def ref0 : State :=
  { State.reset with cfg := { Config.defaults with target := .reference }, answers := List.replicate 256 0x00 }

/-- Reset against the any-answer chip returning these bytes: two a frame. -/
def ans (bs : List Byte) : State := { State.reset with answers := bs }

/-- A table at an address. -/
def tabAt (p : TabAddr) (bs : List Byte) : Memory := Memory.placeBytes [] p bs

/-- The two tables of programs P1 and P2 of 95_test_vectors.md. -/
def tables : Memory :=
  Memory.placeBytes (tabAt 0x0000 ([0x01, 0x00, 0x01, 0x80, 0x01, 0x81, 0x06, 0x6C, 0x07, 0xB3, 0x08, 0x34] ++
    [0x0E, 0x80, 0x0F, 0x00, 0x40, 0x00, 0x01, 0x85, 0xFF, 0x00])) 0x0040
    ([0x01, 0x80, 0x01, 0x81, 0x06, 0x6C, 0x07, 0xB3, 0x08, 0x34] ++
      [0x0E, 0x80, 0x0D, 0x80, 0x40, 0x40, 0x01, 0x83, 0xFF, 0x00])

/-- The pins with `dio` high. -/
def dioHigh : Pins := { dio := true, others := [] }

/-! ### Well-formedness: each condition refuses a record or a table that breaks it -/

/-- R3, R4 and log entry 7: the defaults are allowed; two registers, two codes, two flags alike, the modulation bit inside the mode
field, another sentinel or clearing byte and a group without the DIO pin are not. -/
theorem test_wf_record :
    Config.defaults.wf = true ∧
    { Config.defaults with regFifo := 0x01 }.wf = false ∧ { Config.defaults with codeTx := 5 }.wf = false ∧
    { Config.defaults with txDoneBit := 6 }.wf = false ∧ { Config.defaults with loraBit := 2 }.wf = false ∧
    { Config.defaults with sentinel := 0xFE }.wf = false ∧ { Config.defaults with clearAll := 0x7F }.wf = false ∧
    { Config.defaults with pcGroup := 0 }.wf = false := by decide +kernel

/-- R3: each width, size or field place other than the one the table gives is refused. -/
theorem test_wf_widths :
    { Config.defaults with addrBits := 8 }.wf = false ∧ { Config.defaults with addrMax := 0xFF }.wf = false ∧
    { Config.defaults with valBits := 16 }.wf = false ∧ { Config.defaults with rwBit := 0 }.wf = false ∧
    { Config.defaults with modeFieldBits := (7, 5) }.wf = false ∧ { Config.defaults with fifoSize := 128 }.wf = false ∧
    { Config.defaults with tabBits := 8 }.wf = false ∧ { Config.defaults with pauseBits := 8 }.wf = false := by
  decide +kernel

/-- R39: a reset image outside Sleep, with the modulation bit, with a flag; and one out of canonical form. -/
theorem test_wf_image :
    { Config.defaults with resetImage := [(1, 0x01)] }.wf = false ∧
    { Config.defaults with resetImage := [(1, 0x80)] }.wf = false ∧
    { Config.defaults with resetImage := [(0x12, 0x40)] }.wf = false ∧
    { Config.defaults with resetImage := [(2, 0x00)] }.wf = false := by decide +kernel

/-- Both tables of P1 and P2 are well formed (R128). -/
theorem test_tables_wf :
    tableWf Config.defaults tables 0x0000 .receiveContinuous = true ∧
    tableWf Config.defaults tables 0x0040 .transmit = true := by decide +kernel

/-- R128 (a): an illegal entry before the sentinel. -/
theorem test_table_illegal : tableWf Config.defaults (tabAt 0 [0x85, 0, 0x01, 0x85, 0xFF]) 0 .receiveContinuous = false := by
  decide +kernel

/-- R128 (b): the last entry does not enter the target mode; and no entry at all. -/
theorem test_table_last :
    tableWf Config.defaults (tabAt 0 [0x01, 0x81, 0xFF]) 0 .transmit = false ∧
    tableWf Config.defaults [] 0 .transmit = false := by decide +kernel

/-- R128 (c): an undefined code, and an edge outside the graph. -/
theorem test_table_tracks :
    tableWf Config.defaults (tabAt 0 [0x01, 0x02, 0x01, 0x01, 0x01, 0x03, 0xFF]) 0 .transmit = false ∧
    tableWf Config.defaults (tabAt 0 [0x01, 0x03, 0xFF]) 0 .transmit = false := by decide +kernel

/-! ### Decoding: words written out from R70, R74 and R78 -/

/-- V2. -/
theorem test_decode_rd : decodeCmd 0x10420000#32 = .ok (.rd 0x42) := by decide
/-- V2. -/
theorem test_decode_wr : decodeCmd 0x2012FF00#32 = .ok (.wr 0x12 0xFF) := by decide
/-- V2: `A`, `B` and `C` all different. -/
theorem test_decode_upd : decodeCmd 0x301D0F90#32 = .ok (.upd 0x1D 0x0F 0x90) := by decide
/-- V2. -/
theorem test_decode_brd : decodeCmd 0x40000005#32 = .ok (.brd 5) := by decide
/-- V2. -/
theorem test_decode_bwr : decodeCmd 0x50000002#32 = .ok (.bwr 2) := by decide
/-- `W` = `B ++ C`. -/
theorem test_decode_cfg : decodeCmd 0x60001234#32 = .ok (.cfg 0x1234) := by decide
/-- V2. -/
theorem test_decode_rstp : decodeCmd 0x70000000#32 = .ok .rstp := by decide
/-- V2. -/
theorem test_decode_verrd : decodeCmd 0x80000000#32 = .ok .verrd := by decide
/-- V2. -/
theorem test_decode_init :
    decodeCmd 0x90000001#32 = .ok .initReceiver ∧ decodeCmd 0x90000002#32 = .ok .initTransmitter := by decide
/-- V2. -/
theorem test_decode_mode :
    [0xA0000000#32, 0xA0000001#32, 0xA0000002#32, 0xA0000003#32].map decodeCmd =
      [.ok (.mode .sleep), .ok (.mode .standby), .ok (.mode .receiveContinuous), .ok (.mode .transmit)] := by decide
/-- V2. -/
theorem test_decode_dump : decodeCmd 0xB0010000#32 = .ok (.dump 0x01) := by decide
/-- V2. -/
theorem test_decode_txwait : decodeCmd 0xC0000000#32 = .ok .txwait := by decide
/-- V2. -/
theorem test_decode_idle : decodeCmd 0xD0000000#32 = .ok .idle := by decide
/-- `W` = `B ++ C`. -/
theorem test_decode_pause : decodeCmd 0xE000FE01#32 = .ok (.pause 0xFE01) := by decide
/-- R78. -/
theorem test_decode_ien : decodeCmd 0xF0000000#32 = .ok (.ien false) ∧ decodeCmd 0xF0000001#32 = .ok (.ien true) := by
  decide
/-- V1: frames; the address byte 0xFF on the bus is a write of register 0x7F. -/
theorem test_decode_frames :
    decodeFrame 0x4200#16 = .rdf 0x42 ∧ decodeFrame 0x8180#16 = .wrf 0x01 0x80 ∧
    decodeFrame 0xFFAA#16 = .wrf 0x7F 0xAA ∧ decodeFrame 0x0000#16 = .rdf 0x00 := by decide
/-- R74, R75, R76 at the edges 0x7F, 0x80, 0xFE, 0xFF of the address byte. -/
theorem test_decode_entries :
    decodeEntry 0x7F12#16 = .ok (.ent 0x7F 0x12) ∧ decodeEntry 0x8012#16 = .error .illegalEntry ∧
    decodeEntry 0xFE12#16 = .error .illegalEntry ∧ decodeEntry 0xFF12#16 = .ok .endTable := by decide
/-- V3: each way to be illegal, by its name. -/
theorem test_decode_illegal :
    [0x00000000#32, 0x11420000#32, 0x10C20000#32, 0x10420001#32, 0x90000000#32, 0x90000003#32, 0xA0000004#32,
      0xF0000002#32, 0x70000100#32].map decodeCmd =
    [.error .reservedOp, .error .nonzeroZ1, .error .nonzeroZ2, .error .unusedField, .error .badVariant,
      .error .badVariant, .error .unusedField, .error .unusedField, .error .unusedField] := by decide

/-! ### The instructions -/

/-- V5, V6: read-back of a plain register; the version register ignores a write. -/
theorem test_rd_wr :
    (goAll ref0 [.rstp, .wr 0x39 0x34, .rd 0x39, .wr 0x42 0x55, .rd 0x42]).res = [0x34, 0x12] := by decide +kernel

/-- V7: write-1-to-clear, on the chip and in the copy. -/
theorem test_wr_flags :
    (let s := { ref0 with irq := 0x48, chip := ref0.chip.setReg 0x12 0x48 }
     let t := go s (.wr 0x12 0x08)
     t.chip.reg 0x12 = 0x40 ∧ t.irq = 0x40 ∧ (go t (.wr 0x12 0xFF)).irq = 0x00) := by decide +kernel

/-- R104's example, and V19: `UPD` of `REG_FIFO` writes at the next position. -/
theorem test_upd :
    (go { ref0 with chip := ref0.chip.setReg 0x1D 0x72 } (.upd 0x1D 0x0F 0x90)).chip.reg 0x1D = 0x92 ∧
    (let t := go { ref0 with chip := { ref0.chip.setReg 0x0D 0x10 with fifo := [(0x10, 0x0F)] } } (.upd 0x00 0xF0 0x01)
     t.chip.fifo = [(0x10, 0x0F), (0x11, 0x01)] ∧ t.chip.reg 0x0D = 0x12) := by decide +kernel

/-- Program P4: burst write and read across the end of the buffer. -/
theorem test_bursts :
    (let s := { ref0 with dat := [0xAA, 0xBB, 0xCC] }
     let t := goAll s [.wr 0x0D 0xFE, .bwr 3, .wr 0x0D 0xFE, .brd 3, .rd 0x0D]
     t.res = [0xAA, 0xBB, 0xCC, 0x01] ∧ t.dat = []) := by decide +kernel

/-- V12: `BWR` holds between two frames until the host supplies a byte. -/
theorem test_bwr_holds :
    (let t := go { ref0 with dat := [0x11] } (.bwr 2)
     let u := steps 8 { t with env := [.host (.putDat 0x22)] }
     t.busLog = [.frame true 0 0x11] ∧ t.cs = false ∧ t.busy = true ∧
     u.busLog = [.frame true 0 0x11, .frame true 0 0x22] ∧ u.fg = .ready) := by decide +kernel

/-- V21, V24: a table, and a table across the end of the table space. -/
theorem test_cfg :
    (let t := go { ref0 with tab := tabAt 0x0100 [0x01, 0x00, 0x01, 0x80, 0xFF, 0x00] } (.cfg 0x0100)
     t.tp = 0x0104 ∧ t.lora = true ∧ t.busLog = [.frame true 1 0x00, .frame true 1 0x80]) ∧
    (let t := go { ref0 with tab := tabAt 0xFFFF [0x39, 0x77, 0xFF] } (.cfg 0xFFFF)
     t.busLog = [.frame true 0x39 0x77] ∧ t.tp = 0x0001) := by decide +kernel

/-- V23: an illegal entry. -/
theorem test_cfg_illegal :
    (let t := go { ref0 with tab := tabAt 0x0200 [0x39, 0x12, 0x85, 0x11, 0xFF, 0x00] } (.cfg 0x0200)
     t.busLog = [.frame true 0x39 0x12] ∧ t.status = 0x10 ∧ t.errInfo = 0x0202 ∧ t.tp = 0x0202) := by decide +kernel

/-- V25. -/
theorem test_rstp :
    (let s := { ref0 with
       mode := .receiveContinuous, lora := true, irq := 0x50, st := { Status.clear with errSeq := true } }
     let t := go s .rstp
     t.mode = .sleep ∧ t.lora = false ∧ t.irq = 0x00 ∧ t.status = 0x40 ∧ t.busLog = [.chipReset]) := by
  decide +kernel

/-- V26. -/
theorem test_verrd :
    (go ref0 .verrd).sink = [.regDump 0x42 0x12] ∧ (go ref0 .verrd).status = 0x00 ∧
    (let t := go { ref0 with cfg := { ref0.cfg with chipVersion := 0x00 } } .verrd
     t.sink = [.regDump 0x42 0x00] ∧ t.status = 0x04 ∧ t.res = []) := by decide +kernel

/-- V27. -/
theorem test_dump :
    (let t := go { ref0 with chip := ref0.chip.setReg 0x01 0x85 } (.dump 0x01)
     t.sink = [.regDump 0x01 0x85] ∧ t.res = [] ∧ t.mode = .sleep) := by decide +kernel

/-- Program P1 as far as `INIT Receiver`. -/
theorem test_init_receiver :
    (let t := go { ref0 with tab := tables } .initReceiver
     t.mode = .receiveContinuous ∧ t.lora = true ∧ t.variant = some .receiver ∧ t.status = 0 ∧ t.tp = 0x14 ∧
     t.busLog.length = 12) := by decide +kernel

/-- Program P2 as far as `INIT Transmitter`. -/
theorem test_init_transmitter :
    (let t := go { ref0 with tab := tables } .initTransmitter
     t.mode = .transmit ∧ t.lora = true ∧ t.variant = some .transmitter ∧ t.status = 0 ∧ t.tp = 0x52 ∧
     t.chip.reg 0x01 = 0x83) := by decide +kernel

/-- Program P1: one packet of one byte. -/
theorem test_receive :
    (let s := goAll { ref0 with tab := tables } [.initReceiver, .ien true]
     let t := go { s with env := [.settle, .rxDone [0x4C]] } .idle
     t.fg = .ready ∧ t.sink = [.regDump 0x42 0x12, .byte 0x4C, .lineEnd] ∧ t.irq = 0x00 ∧ t.chip.reg 0x12 = 0x00 ∧
     t.chip.reg 0x0D = 0x01 ∧ t.busLog.length = 18) := by decide +kernel

/-- V29. -/
theorem test_mode_bytes :
    [Mode.sleep, .standby, .receiveContinuous, .transmit].map (opmodeByte Config.defaults true) =
      [0x80, 0x81, 0x85, 0x83] := by decide

/-- V30: two flagged edges and one in the graph. -/
theorem test_mode_edges :
    (go ref0 (.mode .transmit)).errInfo = 0x0003 ∧ (go ref0 (.mode .transmit)).mode = .transmit ∧
    (go { ref0 with mode := .receiveContinuous } (.mode .sleep)).errInfo = 0x0008 ∧
    (go ref0 (.mode .standby)).status = 0x00 := by decide +kernel

/-- V31, V32, V33: the tracker's faults, one, one and two in a write. -/
theorem test_tracker :
    (let t := go { ref0 with mode := .receiveContinuous, lora := true } (.wr 1 0x05)
     t.errInfo = 0x001A ∧ t.lora = true ∧ t.mode = .receiveContinuous) ∧
    (let t := go { ref0 with mode := .standby, lora := true } (.wr 1 0x82)
     t.errInfo = 0x0082 ∧ t.mode = .standby ∧ t.status = 0x20) ∧
    (let t := go { ref0 with mode := .transmit, lora := true } (.wr 1 0x05)
     t.errInfo = 0x001E ∧ t.lora = true ∧ t.mode = .receiveContinuous ∧ t.status = 0x40) := by decide +kernel

/-- V42: a tick with the pin low, then the completion. -/
theorem test_txwait :
    (let s := { ref0 with
       mode := .transmit, lora := true, ien := true, chip := ref0.chip.setReg 1 0x83
       env := [.settle, .tick, .settle, .txDone] }
     let t := go s .txwait
     t.sink = [.status .txStart, .status .txDone] ∧ t.mode = .sleep ∧ t.irq = 0x00 ∧
     t.busLog = [.frame false 0x12 0x08, .frame true 0x12 0xFF, .frame true 1 0x80]) := by decide +kernel

/-- V43: the pin high with the flag clear costs one read frame, and the wait goes on. -/
theorem test_txwait_unconfirmed :
    (let s := { ans [0x00, 0x00] with ien := true, tickPending := true, pins := dioHigh, pinLatch := dioHigh }
     let t := go s .txwait
     t.busLog = [.frame false 0x12 0x00] ∧ t.status = 0x81) := by decide +kernel

/-- V46. -/
theorem test_idle :
    (go { ref0 with ien := true } .idle).status = 0x81 ∧
    (let t := go { ref0 with ien := true, env := [.settle, .tick] } .idle
     t.status = 0x00 ∧ t.tickPending = false ∧ t.woken = true ∧ t.busLog = []) := by decide +kernel

/-- V48, V47. -/
theorem test_pause :
    (go { ref0 with ien := true, env := ticks 3 } (.pause 3)).status = 0x00 ∧
    (let t := go { ref0 with ien := true, env := ticks 2 } (.pause 3)
     t.status = 0x81 ∧ t.pauseCnt = 1) ∧
    (go ref0 (.pause 0)).status = 0x00 := by decide +kernel

/-- R184's example. -/
theorem test_ien : (go ref0 (.ien true)).ien = true ∧ (go (go ref0 (.ien true)) (.ien false)).ien = false := by
  decide +kernel

/-- The bus frames and the entries as instructions, ready and inside a walk (R72 to R75). -/
theorem test_frames_entries :
    (go (ans [0x00, 0x5A]) (.rdf 0x10)).busLog = [.frame false 0x10 0x5A] ∧
    (go ref0 (.wrf 0x39 0x12)).chip.reg 0x39 = 0x12 ∧
    (let t := go { ref0 with fg := .run (.cfg 0) [.walk], tp := 0xFFFE } (.ent 0x39 0x77)
     t.tp = 0x0000 ∧ t.chip.reg 0x39 = 0x77 ∧ t.fg = .run (.cfg 0) [.walk]) ∧
    (go { ref0 with fg := .run (.cfg 0) [.walk], tp := 4 } .endTable).fg = .ready := by decide +kernel

/-! ### Interrupts, reset, host -/

/-- V36: two changes, one request. -/
theorem test_detect :
    (let s1 := detectEdge { ref0 with pins := dioHigh }
     let s2 := detectEdge { s1 with pins := Pins.low }
     s1.pinLatch = dioHigh ∧ s1.pcPending = true ∧ s2.pinLatch = Pins.low ∧ s2.pcPending = true) := by decide +kernel

/-- V51: both outcomes of an interrupt pending before `IDLE`. -/
theorem test_idle_window :
    (go { ref0 with tickPending := true, ien := true } .idle).fg = .ready ∧
    (go { ref0 with tickPending := true, ien := true, env := [.enter .tick, .run] } .idle).status = 0x81 := by
  decide +kernel

/-- V49: the console sets `con_ready`, the host's read clears it. -/
theorem test_console :
    (let t := go { ref0 with ien := true, env := [.settle, .tick, .settle, .con] } (.pause 2)
     t.status = 0x02 ∧ (hostAct .readStatus t).status = 0x00 ∧ (hostAct .readStatus t).hostSeen = [.status 0x02]) := by
  decide +kernel

/-- V55: the RRC reset inside a frame. -/
theorem test_reset_in_frame :
    (let s := go { ref0 with cfg := { ref0.cfg with busAlive := false } } .verrd
     let t := nextOr s (step { s with env := [.host .reset] })
     s.cs = true ∧ t.cs = false ∧ t.status = 0x00 ∧ t.fg = .ready) := by decide +kernel

/-- Program P3: words at the command port, with an illegal one. -/
theorem test_program_p3 :
    (let t := [0x70000000#32, 0x20393400#32, 0x10390000#32, 0x301D0F90#32, 0x101D0000#32, 0xA0000003#32, 0x00000000#32,
       0xB0010000#32].foldl present { ref0 with cfg := { ref0.cfg with resetImage := [(0x1D, 0x72)] } }
     t.res = [0x34, 0x92] ∧ t.status = 0x48 ∧ t.errInfo = 0x0003 ∧ t.sink = [.regDump 0x01 0x03] ∧
     t.busLog.length = 8) := by decide +kernel

/-- Words of every format reach the instruction they stand for, placed where the next step fetches. -/
theorem test_fetch_words :
    decodeTableWord 32 0x10420000 = some (.rd 0x42) ∧ decodeTableWord 16 0x9234 = some (.wrf 0x12 0x34) ∧
    decodeTableWord 16 0x4200 = some (.ent 0x42 0x00) ∧ decodeTableWord 16 0xFF00 = some .endTable ∧
    (nextOr ref0 (step (ref0.withFetchWord 16 0x9234))).busLog = [.frame true 0x12 0x34] ∧
    (nextOr ref0 (step (ref0.withFetchWord 16 0x4200))).busLog = [.frame true 0x42 0x00] ∧
    (nextOr ref0 (step (ref0.withFetchWord 16 0xFF00))).fg = .ready ∧
    (nextOr ref0 (step (ref0.withFetchWord 32 0xF0000001))).ien = true := by decide +kernel

/-- R206, R209: in `Ready` with a legal or an illegal word waiting, right after a handler's return, another handler is entered
first when the schedule says so, and the word is taken after it. -/
theorem test_handler_before_word :
    (let s := { ref0 with
       ien := false, savedIen := true, inHandler := .inTick, conPending := true, cmdPort := some 0xF0000000#32,
       env := [.run, .enter .console, .run, .run] }
     (steps 2 s).inHandler = .inCon ∧ (steps 2 s).cmdPort = some 0xF0000000#32 ∧
     (steps 4 s).cmdPort = none ∧ (steps 4 s).st.conReady = true ∧ (steps 4 s).ien = false) ∧
    (let s := { ref0 with ien := true, tickPending := true, cmdPort := some 0#32, env := [.enter .tick] }
     (steps 1 s).inHandler = .inTick ∧ (steps 1 s).status = 0x00 ∧ (steps 3 s).status = 0x08) := by decide +kernel

/-- A word is placed in front of whatever is scheduled. -/
theorem test_fetch_scheduled :
    (let s := { ref0 with tickPending := true, ien := true, env := [.enter .tick] }
     (nextOr s (step (s.withFetchWord 32 0xF0000000))).ien = false ∧
     (nextOr s (step (s.withFetchWord 16 0x9234))).busLog = [.frame true 0x12 0x34]) := by decide +kernel

/-- E1: the carrier frequency of the example bytes `FRF_EXAMPLE`. -/
theorem test_frequency : Config.defaults.frfOfExample = 0x6CB334 ∧
    |carrierHz Config.defaults Config.defaults.frfOfExample - 434800000| < 1000 := by decide +kernel

/-- R34: the preamble length, the MSB register (0x20) first. -/
theorem test_preamble :
    ((ref0.chip.setReg 0x20 0x01).setReg 0x21 0x2C).preamble Config.defaults = 300 := by decide +kernel

/-- R218: a run has ended when no command is left and nothing is in flight; a pending bit may still be set. -/
theorem test_at_rest :
    State.atRest { State.reset with tickPending := true, conPending := true } = true ∧
    State.atRest { State.reset with cmdPort := some 0xF0000001#32 } = false ∧
    State.atRest { State.reset with env := [.settle, .host (.present 0xF0000001#32)] } = false ∧
    State.atRest { State.reset with fg := .asleep .idle [] } = false ∧
    State.atRest { State.reset with inHandler := .inTick } = false ∧
    State.atRest { State.reset with cs := true } = false := by decide +kernel

/-- R124 and R206: a handler can be entered between the dump of `VERRD` and its comparison. -/
theorem test_verrd_steps :
    (let s := { ref0 with
       fg := .run .verrd [.dumpOut 0x42, .verCheck], ien := true, tickPending := true, env := [.run, .enter .tick] }
     let t := steps 2 s
     t.inHandler = .inTick ∧ t.sink = [.regDump 0x42 0x00] ∧ t.fg = .run .verrd [.verCheck] ∧ t.status = 0x01) := by
  decide +kernel

/-- V4: the pseudo-operations, by the words of their expansions. -/
theorem test_pseudo :
    (Pseudo.ack.expand Config.defaults).map encode = [.cmd 0x2012FF00] ∧
    ((Pseudo.setptr 0x80).expand Config.defaults).map encode = [.cmd 0x200D8000] ∧
    ((Pseudo.setb 0x1E 0x04).expand Config.defaults).map encode = [.cmd 0x301EFB04] ∧
    ((Pseudo.clrb 0x1E 0x04).expand Config.defaults).map encode = [.cmd 0x301EFB00] ∧
    (Pseudo.lora.expand Config.defaults).map encode = [.cmd 0x30017F80] := by decide

/-! ### Witnesses: states and operands that meet the hypotheses of the statements -/

/-- Reset is free, undisturbed, ready: the hypotheses of the statements about a command of a ready machine. -/
theorem wit_reset_undisturbed : State.reset.Undisturbed ∧ State.reset.fg = .ready ∧ State.reset.cfg.wf = true ∧
    State.reset.cfg.loraBit = 7 := ⟨⟨⟨rfl, rfl, rfl, rfl, rfl⟩, rfl⟩, rfl, by decide +kernel, rfl⟩

/-- The same against the reference target, with the invariants. -/
theorem wit_reference : ref0.Free ∧ ref0.fg = .ready ∧ ref0.cfg.wf = true ∧ ref0.cfg.target = .reference ∧
    ref0.DioFollows ∧ ref0.MemCanonical ∧ ref0.Agrees :=
  ⟨⟨rfl, rfl, rfl, rfl, rfl⟩, rfl, by decide +kernel, rfl, fun _ => by decide +kernel,
    ⟨rfl, rfl, rfl⟩, ⟨by decide +kernel, by decide +kernel⟩⟩

/-- `IllegalCommandWord`: each clause of R80 has a word, and the state is met. -/
theorem wit_illegal_words : IllegalWord 0x00000000#32 ∧ IllegalWord 0x11420000#32 ∧ IllegalWord 0x10C20000#32 ∧
    IllegalWord 0x10420001#32 ∧ IllegalWord 0x90000000#32 ∧ IllegalWord 0x90000003#32 ∧
    (let s := { State.reset with cmdPort := some 0x00000000#32 }
     s.cfg.wf = true ∧ s.inHandler = .noHandler ∧ s.fg = .ready ∧ s.cmdPort = some 0x00000000#32) := by
  refine ⟨.inl (by decide), .inr (.inl (by decide)), .inr (.inr (.inl (by decide))), .inr (.inr (.inr (.inl (by decide)))),
    .inr (.inr (.inr (.inr ⟨by decide, .inl (by decide)⟩))), .inr (.inr (.inr (.inr ⟨by decide, .inr (by decide)⟩))), ?_⟩
  exact ⟨by decide +kernel, rfl, rfl, rfl⟩

/-- `LegalWordEncodesBack`, `RowsMatchDecoder`: words of each format, and words no row matches. -/
theorem wit_words : decodeCmd 0x301D0F90#32 = .ok (.upd 0x1D 0x0F 0x90) ∧ decodeEntry 0x7FFF#16 = .ok (.ent 0x7F 0xFF) ∧
    (0x8000#16).getLsbD 15 = true ∧ (cmdRows.all (fun r => !r.fits 0x00000000#32)) = true ∧
    (cmdRows.any (fun r => r.fits 0xF0000001#32)) = true := by decide

/-- `TableEntryAtAddress`: the three clauses at the edges of the address byte, and the last address of the table space. -/
theorem wit_table_entry :
    Memory.tabByte (tabAt 0xFFFF [0x7F, 0x11]) 0xFFFF = addrByte false 0x7F ∧
    Memory.tabByte (tabAt 0 [0x80]) 0 = 0x80 ∧ Memory.tabByte (tabAt 0 [0xFE]) 0 = 0xFE ∧
    Memory.tabByte [] 0 = 0xFF := by decide +kernel

/-- `BurstWrite` and `BurstWriteHolds`: enough bytes, exactly enough, one too few. -/
theorem wit_burst_write :
    (let s := { State.reset with dat := [0x48, 0x69] }
     s.Undisturbed ∧ s.fg = .ready ∧ (2 : Byte).toNat ≤ s.dat.length ∧ s.dat.length < (3 : Byte).toNat ∧
     pickSource s = none) := ⟨⟨⟨rfl, rfl, rfl, rfl, rfl⟩, rfl⟩, rfl, by decide, by decide, by decide⟩

/-- `BusFrames`, `TableEntries`: a machine inside a command, at a frame and at an entry. -/
theorem wit_inside : State.Undisturbed { State.reset with fg := .run (.cfg 0) [.walk] } ∧
    State.Undisturbed { State.reset with fg := .run (.rd 0) [.toRes] } :=
  ⟨⟨⟨rfl, rfl, rfl, rfl, rfl⟩, rfl⟩, ⟨⟨rfl, rfl, rfl, rfl, rfl⟩, rfl⟩⟩

/-- `ConfigurationWalk`: a table of two entries, an empty one, one across the end of the table space. -/
theorem wit_walk :
    (let t := tabAt 0x0100 [0x01, 0x00, 0x01, 0x80, 0xFF]
     EntriesAt t 0x0100 [(0x01, 0x00), (0x01, 0x80)] ∧
     Memory.tabByte t (tableEnd 0x0100 [(0x01, 0x00), (0x01, 0x80)]) = sentinelByte) ∧
    (EntriesAt [] 0x0300 [] ∧ Memory.tabByte [] (tableEnd 0x0300 []) = sentinelByte) ∧
    (let t := tabAt 0xFFFF [0x39, 0x77, 0xFF]
     EntriesAt t 0xFFFF [(0x39, 0x77)] ∧ Memory.tabByte t (tableEnd 0xFFFF [(0x39, 0x77)]) = sentinelByte) ∧
    2 < entryPositions := by
  refine ⟨⟨?_, by decide +kernel⟩, ⟨fun i h => absurd h (by simp), by decide +kernel⟩, ⟨?_, by decide +kernel⟩, by decide⟩
  · unfold EntriesAt; decide +kernel
  · unfold EntriesAt; decide +kernel

/-- `WalkMeetsIllegalEntry`: an illegal entry after one entry, and as the first, at both edges. -/
theorem wit_walk_illegal :
    (let t := tabAt 0x0200 [0x39, 0x12, 0x80, 0x11]
     EntriesAt t 0x0200 [(0x39, 0x12)] ∧ 128 ≤ (Memory.tabByte t (tableEnd 0x0200 [(0x39, 0x12)])).toNat ∧
     Memory.tabByte t (tableEnd 0x0200 [(0x39, 0x12)]) ≠ sentinelByte) ∧
    (let t := tabAt 0x0200 [0xFE]
     EntriesAt t 0x0200 [] ∧ 128 ≤ (Memory.tabByte t (tableEnd 0x0200 [])).toNat ∧
     Memory.tabByte t (tableEnd 0x0200 []) ≠ sentinelByte) := by
  refine ⟨⟨?_, by decide +kernel, by decide +kernel⟩, ⟨fun i h => absurd h (by simp), by decide +kernel, by decide +kernel⟩⟩
  unfold EntriesAt; decide +kernel

/-- `InitForVariant`, `InitReachesItsMode`: the tables of P1 and P2 in the undisturbed machine. -/
theorem wit_init :
    (let s := { State.reset with tab := tables }
     s.Undisturbed ∧ s.fg = .ready ∧ s.cfg.wf = true ∧
     tableWf s.cfg s.tab s.cfg.tabRx .receiveContinuous = true ∧ tableWf s.cfg s.tab s.cfg.tabTx .transmit = true) ∧
    (let s := { State.reset with tab := Memory.placeBytes (tabAt 0 [0x01, 0x80, 0xFF]) 0x40 [0x01, 0x80, 0xFF] }
     EntriesAt s.tab s.cfg.tabRx [(0x01, 0x80)] ∧ EntriesAt s.tab s.cfg.tabTx [(0x01, 0x80)] ∧
     Memory.tabByte s.tab (tableEnd s.cfg.tabRx [(0x01, 0x80)]) = sentinelByte ∧
     Memory.tabByte s.tab (tableEnd s.cfg.tabTx [(0x01, 0x80)]) = sentinelByte) := by
  refine ⟨⟨⟨⟨rfl, rfl, rfl, rfl, rfl⟩, rfl⟩, rfl, by decide +kernel, by decide +kernel, by decide +kernel⟩, ?_⟩
  refine ⟨?_, ?_, by decide +kernel, by decide +kernel⟩ <;> (unfold EntriesAt; decide +kernel)

/-- `ChipResetPulse`: both targets. -/
theorem wit_pulse : State.reset.Free ∧ State.reset.cfg.target = .anyAnswer ∧ ref0.Free ∧ ref0.cfg.target = .reference :=
  ⟨⟨rfl, rfl, rfl, rfl, rfl⟩, rfl, ⟨rfl, rfl, rfl, rfl, rfl⟩, rfl⟩

/-- `TrackerOnWrite`, `TrackerAgreesWithTarget`: a byte with an undefined code and one with a defined code. -/
theorem wit_tracker : (∀ m, codeOf Config.defaults m ≠ modeField 0x02) ∧ codeOf Config.defaults .transmit = modeField 0x83 := by
  refine ⟨fun m => ?_, by decide⟩
  cases m <;> decide

/-- `IdleWoken`, `TransmitWaitUnconfirmed`, `ShortHandlers`: a quiet wake by each source, the pin-change one with the pin low
in a receiver and with another variant, and nothing else pending after it. -/
theorem wit_quiet :
    (let s := { State.reset with ien := true, tickPending := true }
     s.Undisturbed ∧ s.fg = .ready ∧ s.QuietWake .tick ∧ pickSource (s.afterWake .tick) = none) ∧
    (let s := { State.reset with ien := true, conPending := true }
     s.Free ∧ s.QuietWake .console) ∧
    (let s := { State.reset with ien := true, pcPending := true, variant := some .receiver }
     s.Free ∧ s.QuietWake .pinChange) ∧
    (let s := { State.reset with ien := true, pcPending := true, pins := dioHigh, pinLatch := dioHigh }
     s.Undisturbed ∧ s.QuietWake .pinChange ∧ s.pins.dio = true ∧ fgEnabled s = false ∧ canExchange s = false ∧
     pickSource (s.afterWake .pinChange) = none) :=
  ⟨⟨⟨⟨rfl, rfl, rfl, rfl, rfl⟩, rfl⟩, rfl, ⟨by decide, by decide⟩, by decide⟩,
    ⟨⟨rfl, rfl, rfl, rfl, rfl⟩, ⟨by decide, by decide⟩⟩,
    ⟨⟨rfl, rfl, rfl, rfl, rfl⟩, ⟨by decide, fun _ => .inr rfl⟩⟩,
    ⟨⟨⟨rfl, rfl, rfl, rfl, rfl⟩, rfl⟩, ⟨by decide, fun _ => .inl (by decide)⟩, rfl, by decide, by decide, by decide⟩⟩

/-- `IdleWoken`, second clause, and the receive service statements: pin high in a receiver, with the flag set and clear; no
bytes and two bytes in the packet. -/
theorem wit_service :
    (let s := { ans [0, 0x40, 0, 0x20, 0, 0x00] with
       ien := true, pcPending := true, variant := some .receiver, pins := dioHigh, pinLatch := dioHigh }
     s.Undisturbed ∧ s.fg = .ready ∧ s.cfg.wf = true ∧ pickSource s = some .pinChange ∧
     bit (s.frameByte 0) s.cfg.rxDoneBit = true ∧ s.frameByte 2 = 0x00) ∧
    (let s := { ans [0, 0x40, 0, 0x20, 0, 0x02] with
       inHandler := .inPc [.pcBody], variant := some .receiver, pins := dioHigh, pinLatch := dioHigh }
     s.xferBusy = false ∧ s.cs = false ∧ s.env = [] ∧ s.cfg.busAlive = true ∧ s.pins = s.pinLatch ∧
     bit (s.frameByte 0) s.cfg.rxDoneBit = true ∧ s.frameByte 1 = 0x20 ∧ s.frameByte 2 = 0x02) ∧
    bit ((ans [0, 0x08]).frameByte 0) (ans [0, 0x08]).cfg.rxDoneBit = false :=
  ⟨⟨⟨⟨rfl, rfl, rfl, rfl, rfl⟩, rfl⟩, rfl, by decide +kernel, by decide, by decide, by decide⟩,
    ⟨rfl, rfl, rfl, rfl, rfl, by decide, by decide, by decide⟩, by decide⟩

/-- `PauseCountsWakes`. -/
theorem wit_pause : State.Free { State.reset with ien := true } ∧
    State.nonePending { State.reset with ien := true } = true := ⟨⟨rfl, rfl, rfl, rfl, rfl⟩, rfl⟩

/-- `SleepWithInterruptsOff`: reset has interrupts off, and a count at its least. -/
theorem wit_sleep_off : State.reset.ien = false ∧ (1 : BitVec 16) ≠ 0 := by decide

/-- `TransmitWaitConfirmed`: the first frame returns the transmit-done flag; and `TransmitWaitUnconfirmed`: it does not. -/
theorem wit_txwait :
    (let s := { ans [0, 0x08] with ien := true, tickPending := true, pins := dioHigh, pinLatch := dioHigh }
     s.Undisturbed ∧ s.fg = .ready ∧ s.QuietWake .tick ∧ s.pins.dio = true ∧
     bit (s.frameByte 0) s.cfg.txDoneBit = true) ∧
    bit ((ans [0, 0x40]).frameByte 0) (ans [0, 0x40]).cfg.txDoneBit = false :=
  ⟨⟨⟨⟨rfl, rfl, rfl, rfl, rfl⟩, rfl⟩, rfl, ⟨by decide, by decide⟩, rfl, by decide⟩, by decide⟩

/-- `StepRunsCommand`, `StepRunsEntryAndFrame`, `StepMovesOtherwise`: a legal word, a legal and an illegal entry, a read and a
write frame, a refused configuration, and machines with nothing to fetch: at rest, asleep, in a handler, inside a
frame, between two lines of a command, and with another agent's move scheduled. -/
theorem wit_steps :
    decodeCmd 0xF0000001#32 = .ok (.ien true) ∧
    decodeEntry (Memory.tabEntry (tabAt 0 [0x7F, 0x11]) 0) = .ok (.ent 0x7F 0x11) ∧
    decodeEntry (Memory.tabEntry (tabAt 0 [0x80, 0x11]) 0) = .error .illegalEntry ∧
    { Config.defaults with txDoneBit := 6 }.wf = false ∧
    State.reset.cmdPort = none ∧ State.asleep { State.reset with fg := .asleep .idle [] } = true ∧
    micro State.reset = none ∧ State.reset.noReset = true ∧ fetch State.reset = .nothing ∧
    fetch { State.reset with fg := .asleep .idle [] } = .nothing ∧
    fetch { State.reset with inHandler := .inTick, cmdPort := some 0xF0000001#32 } = .nothing ∧
    fetch { State.reset with fg := .run (.rd 0) [.addrPhase false 0 0, .toRes], cs := true } = .nothing ∧
    fetch { State.reset with fg := .run (.pause 1) [.pauseDec, .pauseLoop] } = .nothing ∧
    fetch { State.reset with fg := .run .idle [] } = .nothing ∧
    (let s := { State.reset with ien := true, tickPending := true, cmdPort := some 0#32, env := [.enter .tick] }
     s.fgDue = false ∧ fetch s = .nothing ∧ s.pending .tick = true ∧ s.cs = false) ∧
    State.reset.fgDue = true ∧ State.fgDue { State.reset with env := [.run, .tick] } = true ∧
    State.fgDue { State.reset with env := [.settle, .tick] } = true := by decide +kernel

/-- `ModeChangesAreLogged`, `FaultsAreSticky`, `TableSpaceConstant` and the invariants: steps that change the mode and set a
fault bit. -/
theorem wit_step_next :
    (let s := { ref0 with cmdPort := some 0xA0000003#32, st := { Status.clear with errTable := true } }
     ∃ t, step s = .next t ∧ s.noReset = true ∧ t.mode = .transmit ∧ t.st.errSeq = true ∧ s.st.noFault = false) :=
  ⟨_, rfl, by decide +kernel, by decide +kernel, by decide +kernel, by decide +kernel⟩

/-- `PendingBitsKept`, `HandlerEntry`: a move that enters a handler with two sources pending. -/
theorem wit_entry :
    (let s := { State.reset with ien := true, tickPending := true, conPending := true }
     ∃ t, micro s = some t ∧ s.inHandler = .noHandler ∧ t.inHandler = .inTick ∧ s.pending .console = true ∧
       s.noReset = true) := ⟨_, rfl, rfl, rfl, rfl, rfl⟩

/-- `HandlerReturn`: a move that ends the console handler, and one that goes on in the pin-change handler. -/
theorem wit_return :
    (let s := { State.reset with inHandler := .inCon, savedIen := true }
     ∃ t, micro s = some t ∧ s.inHandler ≠ .noHandler ∧ t.inHandler = .noHandler ∧ s.noReset = true) ∧
    (let s := { State.reset with inHandler := .inPc [.pcBody], savedIen := true }
     ∃ t, micro s = some t ∧ t.inHandler ≠ .noHandler) :=
  ⟨⟨_, rfl, by decide, rfl, rfl⟩, ⟨_, rfl, by decide⟩⟩

/-- `EdgeDetected`, `BusyPortRefuses`. -/
theorem wit_edge :
    ({ State.reset with pins := dioHigh } : State).pins ≠ State.reset.pinLatch ∧
    ({ State.reset with fg := .asleep .idle [] } : State).fg ≠ .ready ∧
    Instr.idle.mnemonic ∉ ["RDF", "WRF", "ENT", "END"] := by decide

/-- `DeadBusHangs`: inside each exchange of a frame; ready; inside a command; in the handler at a frame of each direction. -/
theorem wit_dead_bus :
    (let c := { Config.defaults with busAlive := false }
     let s := { State.reset with cfg := c }
     c.wf = true ∧ c.busAlive = false ∧ s.pins = s.pinLatch ∧ s.env = [] ∧ s.fg = .ready ∧ s.cs = false ∧
     headInFrame (State.running { s with fg := .run (.wr 1 2) [.addrPhase true 1 2], cs := true }) = true ∧
     headInFrame (State.running { s with inHandler := .inPc [.dataPhase false 0x12 0, .rxConfirm], cs := true }) = true ∧
     s.xferDone = false ∧ s.inHandler = .noHandler ∧
     ({ s with fg := .run (.upd 1 2 3) [.updWrite 1 2 3] } : State).fg ≠ .ready ∧
     ({ s with inHandler := .inPc [.readFrame 0x12, .rxConfirm] } : State).cs = false ∧
     ({ s with inHandler := .inPc [.writeFrame 0x12 0xFF] } : State).cs = false) := by decide +kernel

/-- `ByteWrittenReadsBack`: a memory of each space, with the last address of each. -/
theorem wit_memory : Memory.wf .tab (tabAt 0xFFFF [0x00]) = true ∧ Memory.wf .regs [(127, 0x01)] = true ∧
    Memory.wf .fifo [(255, 0x01)] = true ∧ 65535 < Space.size .tab := by decide +kernel

/-- The invariants hold at reset, so `StepKeepsMemories`, `StepKeepsBusOwner` and `StepKeepsPin` say something. -/
theorem wit_invariants : State.reset.MemCanonical ∧ State.reset.BusOwned ∧ State.reset.DioFollows ∧ State.reset.PinsSized :=
  ⟨⟨rfl, rfl, rfl⟩,
    ⟨rfl, rfl, rfl, by decide, by decide, fun h => absurd rfl h, rfl⟩, fun h => absurd h (by decide), rfl, rfl⟩

/-- `TargetReadsBack`, `TargetRead`, `TargetWrite`: a plain register, the last one, and each register with side effects; writes
of the receive-continuous code from another mode and from receive mode. -/
theorem wit_target_registers :
    (0x7F : Addr) ∉ [ref0.cfg.regFifo, ref0.cfg.regOpmode, ref0.cfg.regIrqFlags, ref0.cfg.regVersion] ∧
    (0x0D : Addr) ∉ [ref0.cfg.regFifo, ref0.cfg.regOpmode, ref0.cfg.regIrqFlags, ref0.cfg.regVersion] ∧
    modeField 0x85 = ref0.cfg.codeRxcont ∧ ref0.chip.modeCode ref0.cfg ≠ ref0.cfg.codeRxcont ∧
    (ref0.chip.setReg 0x01 0x85).modeCode ref0.cfg = ref0.cfg.codeRxcont := by decide +kernel

/-- `PacketArrives`: a chip in receive mode, for the first packet and for a later one, with no bytes and with 255; and a chip in
transmit mode. -/
theorem wit_packet :
    (let s := { ref0 with chip := ref0.chip.setReg 0x01 0x85 }
     s.chip.modeCode s.cfg = s.cfg.codeRxcont ∧ s.cs = false ∧ s.MemCanonical ∧ s.chip.rxNext = none ∧
     (applyMove (.rxDone [0x4C]) s).chip.rxNext = some 0x01) ∧
    ([] : List Byte).length ≤ 255 ∧ (List.replicate 255 (0x55 : Byte)).length ≤ 255 ∧
    (let s := { ref0 with chip := ref0.chip.setReg 0x01 0x83 }
     s.chip.modeCode s.cfg = s.cfg.codeTx ∧ s.cs = false ∧ s.MemCanonical) :=
  ⟨⟨by decide +kernel, rfl, ⟨rfl, by decide +kernel, rfl⟩, rfl, by decide +kernel⟩, by decide, by decide,
    by decide +kernel, rfl, ⟨rfl, by decide +kernel, rfl⟩⟩

end Sys2Proof.Tests
end

section
/-! The family of 10_state.md: the values the RRC's own reset gives (R38). -/

namespace Sys2Proof.Machine

/-- `s.status` is computed from `s.st` and `s.fg` alone: it is zero when no bit is recorded and no command is in
progress (R20). -/
theorem status_of_ready_of_clear {s : State} (hfg : s.fg = .ready) (hst : s.st = Status.clear) : s.status = 0x00 := by
  have hbusy : s.busy = false := by simp only [State.busy, hfg]
  have hasleep : s.asleep = false := by simp only [State.asleep, hfg]
  simp only [State.status, hbusy, hasleep, hst, Status.clear]
  decide

/-- Settles O8: every row of the table of R38 is a field `State.reset` gives outright, but the status, which is computed from
the stored bits and the control state. -/
theorem stateAfterReset : Obligations.StateAfterReset := by
  have hstatus : State.reset.status = 0x00 := status_of_ready_of_clear rfl rfl
  exact ⟨rfl, rfl, rfl, rfl,
    rfl, rfl, rfl, rfl,
    rfl, rfl, hstatus, rfl,
    rfl, rfl, rfl,
    rfl, rfl, rfl,
    rfl, rfl, rfl,
    rfl, rfl, rfl⟩

end Sys2Proof.Machine
end

section
/-! The family of 20_memory.md: what one frame does against the reference target (R51, R52), and the register that reads back. -/

namespace Sys2Proof.Machine

/-! ### A frame against the reference target -/

/-- A free machine against the reference target, whose pin shows the flag it is mapped to (R58). -/
structure State.OnTarget (s : State) : Prop extends s.Free where
  reference : s.cfg.target = .reference
  pin       : s.pins.dio = s.chip.dioLevel s.cfg

/-- The target once it has taken the address byte of a frame (R51). -/
def Chip.addressed (x : Chip) (rw : Bool) (a : Addr) : Chip := { x with phase := .data, latched := some (rw, a) }

@[simp] theorem Chip.addressed_fifo (x : Chip) (rw : Bool) (a : Addr) : (x.addressed rw a).fifo = x.fifo := rfl
@[simp] theorem Chip.addressed_reg (x : Chip) (rw : Bool) (a b : Addr) : (x.addressed rw a).reg b = x.reg b := rfl
@[simp] theorem Chip.deselect_reg (x : Chip) (b : Addr) : x.deselect.reg b = x.reg b := rfl

/-- The machine inside a frame, with the address byte through (R51, R101). -/
def State.afterAddress (s : State) (rw : Bool) (a : Addr) : State :=
  { s with
    sdr := 0x00, cs := true, phase := .data, xferBusy := false, xferDone := true, chip := s.chip.addressed rw a }

/-- The machine inside a frame, with the data byte `d` in flight (R102, R103). -/
def State.atDataByte (s : State) (rw : Bool) (a : Addr) (d : Byte) : State :=
  { s with sdr := d, cs := true, phase := .data, xferBusy := true, xferDone := false, chip := s.chip.addressed rw a }

/-- The machine once the data byte is through and the edge detector has seen the pin the target then drives (R58, R160). -/
def State.dataDone (s : State) (rw : Bool) (a : Addr) (d : Byte) : State := detectEdge (exchange (s.atDataByte rw a d))

/-- What a frame of the foreground leaves of a machine against the reference target, the control state apart. -/
def State.targetFrame (s : State) (rw : Bool) (a : Addr) (d : Byte) : State :=
  { closeFrame rw a d (s.dataDone rw a d) with fgVal := if rw then s.fgVal else (s.dataDone rw a d).sdr }

section
variable (s : State) (rw : Bool) (a : Addr) (d : Byte)

@[simp] theorem dataDone_cfg : (s.dataDone rw a d).cfg = s.cfg := by simp [State.dataDone, State.atDataByte]
@[simp] theorem dataDone_fg : (s.dataDone rw a d).fg = s.fg := by simp [State.dataDone, State.atDataByte]
@[simp] theorem dataDone_fgVal : (s.dataDone rw a d).fgVal = s.fgVal := by simp [State.dataDone, State.atDataByte]
@[simp] theorem dataDone_res : (s.dataDone rw a d).res = s.res := by simp [State.dataDone, State.atDataByte]
@[simp] theorem dataDone_busLog : (s.dataDone rw a d).busLog = s.busLog := by simp [State.dataDone, State.atDataByte]
@[simp] theorem dataDone_env : (s.dataDone rw a d).env = s.env := by simp [State.dataDone, State.atDataByte]
@[simp] theorem dataDone_inHandler : (s.dataDone rw a d).inHandler = s.inHandler := by
  simp [State.dataDone, State.atDataByte]
@[simp] theorem dataDone_pinLatch : (s.dataDone rw a d).pinLatch = (s.dataDone rw a d).pins := by simp [State.dataDone]

/-- The pin of the machine inside the frame is the one the target drives after the data byte (R58). -/
theorem dataDone_dioFollows : (s.dataDone rw a d).DioFollows := by
  intro h
  simp only [State.dataDone, detectEdge_cfg, exchange_cfg] at h
  simp [State.dataDone, exchange, targetExchange, h, driveDio]

end

theorem State.OnTarget.withFg {s : State} (h : s.OnTarget) (g : Fg) : State.OnTarget { s with fg := g } :=
  ⟨h.toFree.withFg g, h.reference, h.pin⟩

/-! The control state plays no part in what a frame leaves. -/

theorem exchange_withFg (s : State) (g : Fg) : exchange { s with fg := g } = { exchange s with fg := g } := by
  cases ht : s.cfg.target <;> simp only [exchange, targetExchange, driveDio, ht, State.chipByte, State.dropAnswers]

theorem detectEdge_withFg (s : State) (g : Fg) : detectEdge { s with fg := g } = { detectEdge s with fg := g } := by
  simp only [detectEdge]
  split_ifs <;> rfl

theorem dataDone_withFg (s : State) (g : Fg) (rw : Bool) (a : Addr) (d : Byte) :
    State.dataDone { s with fg := g } rw a d = { s.dataDone rw a d with fg := g } :=
  (congrArg detectEdge (exchange_withFg (s.atDataByte rw a d) g)).trans (detectEdge_withFg _ g)

theorem closeFrame_withFg (s : State) (g : Fg) (rw : Bool) (a : Addr) (d : Byte) :
    closeFrame rw a d { s with fg := g } = { closeFrame rw a d s with fg := g } := by
  simp only [closeFrame, frameDone]
  split_ifs <;> rfl

theorem targetFrame_withFg (s : State) (g : Fg) (rw : Bool) (a : Addr) (d : Byte) :
    State.targetFrame { s with fg := g } rw a d = { s.targetFrame rw a d with fg := g } := by
  simp only [State.targetFrame, dataDone_withFg, closeFrame_withFg]

/-- The address byte makes the target latch direction and address, and leaves the pin as it is. -/
theorem exchange_openFrame {s : State} (h : s.OnTarget) (rw : Bool) (a : Addr) :
    exchange (openFrame rw a s) = s.afterAddress rw a := by
  have hpins : s.pins = { s.pins with dio := (s.chip.addressed rw a).dioLevel s.cfg } := by
    rw [show (s.chip.addressed rw a).dioLevel s.cfg = s.chip.dioLevel s.cfg from rfl, ← h.pin]
  have hx : s.chip.select.exchange s.cfg (addrByte rw a) = (0x00, s.chip.addressed rw a) := by
    simp [Chip.select, Chip.exchange, Chip.addressed]
  simp only [exchange, targetExchange, openFrame, startXfer, h.reference, hx, driveDio, ← hpins, State.afterAddress]

/-- The address byte takes two moves: the exchange, and the foreground's start of the data exchange (R100). -/
theorem runDown_addressByte {d n : Nat} {s : State} {c : Instr} {rw : Bool} {a : Addr} {b : Byte} {k : List MicroOp}
    (h : s.OnTarget) (hfg : s.fg = .run c (.addrPhase rw a b :: k)) (hd : d < k.length + 2) :
    runDown d (n + 2) (openFrame rw a s) =
      runDown d n { s.atDataByte rw a b with fg := .run c (.dataPhase rw a b :: k) } := by
  have hdepth : s.depth = k.length + 2 := depth_run hfg
  have hsend : micro (openFrame rw a s) = some (exchange (openFrame rw a s)) :=
    micro_exchange h.noMoves h.pinsSeen (by simp [canExchange, h.busAlive])
  have hstart : micro (s.afterAddress rw a) = some (fgStep (s.afterAddress rw a)) := by
    apply micro_fg <;>
      simp [State.afterAddress, canExchange, fgEnabled, opEnabled, h.noMoves, h.noHandler, h.pinsSeen, hfg]
  have hstarted : fgStep (s.afterAddress rw a) = { s.atDataByte rw a b with fg := .run c (.dataPhase rw a b :: k) } := by
    simp [fgStep, State.afterAddress, hfg, opStep, startXfer, Fg.resume, State.atDataByte]
  rw [runDown_step (s := openFrame rw a s) (hd.trans_eq hdepth.symm) hsend, exchange_openFrame h]
  rw [runDown_step (s := s.afterAddress rw a) (hd.trans_eq hdepth.symm) hstart, hstarted]

/-- With nothing scheduled the edge detector goes first, and takes a move only if a pin has changed (R160). -/
theorem runDown_detectEdge {d : Nat} {s : State} (he : s.env = []) (hd : d < s.depth) :
    ∃ m ≤ 1, ∀ n, runDown d (n + m) s = runDown d n (detectEdge s) := by
  by_cases hp : s.pins = s.pinLatch
  · exact ⟨0, by omega, fun n => by simp [detectEdge, hp]⟩
  · exact ⟨1, le_rfl, fun n => runDown_step hd (by simp [micro, he, autoMove, hp, applyMove])⟩

/-- The data byte takes at most three moves: the exchange, the edge detector, and the foreground's close of the frame. -/
theorem runDown_dataByte {d : Nat} {s : State} {c : Instr} {rw : Bool} {a : Addr} {b : Byte} {k : List MicroOp}
    (h : s.OnTarget) (hfg : s.fg = .run c (.dataPhase rw a b :: k)) (hd : d < k.length + 2) :
    ∃ m ≤ 3, ∀ n, runDown d (n + m) (s.atDataByte rw a b) =
      runDown d n { s.targetFrame rw a b with fg := Fg.resume c k } := by
  have hdepth : ∀ t : State, t.fg = s.fg → d < t.depth := fun t ht => by
    rw [depth_run (ht.trans hfg)]
    exact hd
  have hdone : (s.dataDone rw a b).fg = s.fg := dataDone_fg s rw a b
  have hsend : micro (s.atDataByte rw a b) = some (exchange (s.atDataByte rw a b)) :=
    micro_exchange h.noMoves h.pinsSeen (by simp [canExchange, State.atDataByte, h.busAlive])
  obtain ⟨m, hm, hdetect⟩ := runDown_detectEdge (d := d) (s := exchange (s.atDataByte rw a b))
    (by simpa [State.atDataByte] using h.noMoves) (hdepth _ (by simp [State.atDataByte]))
  have hclose : micro (s.dataDone rw a b) = some (fgStep (s.dataDone rw a b)) := by
    apply micro_fg <;>
      simp [State.dataDone, State.atDataByte, canExchange, fgEnabled, opEnabled, h.noMoves, h.noHandler, hfg]
  have hclosed : fgStep (s.dataDone rw a b) = { s.targetFrame rw a b with fg := Fg.resume c k } := by
    simp only [fgStep, hdone, hfg, opStep, State.targetFrame, List.nil_append, dataDone_fgVal]
  refine ⟨m + 2, by omega, fun n => ?_⟩
  calc runDown d (n + (m + 2)) (s.atDataByte rw a b)
      = runDown d (n + 1 + m) (exchange (s.atDataByte rw a b)) := by
        rw [show n + (m + 2) = n + 1 + m + 1 by omega, runDown_step (s := s.atDataByte rw a b) (hdepth _ rfl) hsend]
    _ = runDown d (n + 1) (s.dataDone rw a b) := hdetect (n + 1)
    _ = runDown d n { s.targetFrame rw a b with fg := Fg.resume c k } := by
        rw [runDown_step (hdepth _ hdone) hclose, hclosed]

/-- A frame of the foreground against the reference target takes at most six moves, whichever operation opens it. -/
theorem runDown_targetFrame {d : Nat} {s : State} {c : Instr} {op : MicroOp} {rw : Bool} {a : Addr} {b : Byte}
    {k : List MicroOp} (h : s.OnTarget) (hd : d < k.length + 2) (hen : opEnabled op s = true)
    (hop : opStep op s.fgVal s = ⟨openFrame rw a s, s.fgVal, .push [.addrPhase rw a b]⟩)
    (hfg : s.fg = .run c (op :: k)) :
    ∃ m ≤ 6, ∀ n, runDown d (n + m) s = runDown d n { s.targetFrame rw a b with fg := Fg.resume c k } := by
  obtain ⟨m, hm, hdata⟩ := runDown_dataByte (h.withFg (.run c (.dataPhase rw a b :: k))) rfl hd
  refine ⟨m + 3, by omega, fun n => ?_⟩
  calc runDown d (n + (m + 3)) s
      = runDown d (n + m + 2) (openFrame rw a { s with fg := .run c (.addrPhase rw a b :: k) }) :=
        runDown_op h.toFree hfg hd hen hop
    _ = runDown d (n + m) (State.atDataByte { s with fg := .run c (.dataPhase rw a b :: k) } rw a b) :=
        runDown_addressByte (h.withFg _) rfl hd
    _ = runDown d n { s.targetFrame rw a b with fg := Fg.resume c k } := by
        rw [hdata, targetFrame_withFg]

/-- A write frame of the foreground (R103). -/
theorem runDown_targetWrite {d : Nat} {s : State} {c : Instr} {a : Addr} {b : Byte} {k : List MicroOp}
    (h : s.OnTarget) (hd : d < k.length + 2) :
    ∃ m ≤ 6, ∀ n, runDown d (n + m) { s with fg := .run c (.writeFrame a b :: k) } =
      runDown d n { s.targetFrame true a b with fg := Fg.resume c k } := by
  simpa only [targetFrame_withFg] using
    runDown_targetFrame (h.withFg (.run c (.writeFrame a b :: k))) hd (by simp [opEnabled, h.noFrame]) rfl rfl

/-- A read frame of the foreground (R102). -/
theorem runDown_targetRead {d : Nat} {s : State} {c : Instr} {a : Addr} {k : List MicroOp}
    (h : s.OnTarget) (hd : d < k.length + 2) :
    ∃ m ≤ 6, ∀ n, runDown d (n + m) { s with fg := .run c (.readFrame a :: k) } =
      runDown d n { s.targetFrame false a s.cfg.dummy with fg := Fg.resume c k } := by
  simpa only [targetFrame_withFg] using
    runDown_targetFrame (h.withFg (.run c (.readFrame a :: k))) hd (by simp [opEnabled, h.noFrame]) rfl rfl

/-! ### What the frame leaves -/

section
variable (s : State) (rw : Bool) (a : Addr) (d : Byte)

@[simp] theorem targetFrame_fg : (s.targetFrame rw a d).fg = s.fg := by simp [State.targetFrame]
@[simp] theorem targetFrame_cfg : (s.targetFrame rw a d).cfg = s.cfg := by simp [State.targetFrame]
@[simp] theorem targetFrame_res : (s.targetFrame rw a d).res = s.res := by simp [State.targetFrame]

/-- A write frame is logged with the byte sent (R107). -/
theorem targetFrame_write_busLog : (s.targetFrame true a d).busLog = s.busLog ++ [.frame true a d] := by
  simp [State.targetFrame]

variable {s} (h : s.cfg.target = .reference)
include h

theorem dataDone_sdr : (s.dataDone rw a d).sdr = ((s.chip.addressed rw a).exchange s.cfg d).1 := by
  simp [State.dataDone, exchange, targetExchange, State.atDataByte, h]

theorem targetFrame_chip : (s.targetFrame rw a d).chip = ((s.chip.addressed rw a).exchange s.cfg d).2.deselect := by
  simp [State.targetFrame, State.dataDone, exchange, targetExchange, State.atDataByte, h]

/-- A write frame writes the register (R51, R103). -/
theorem targetFrame_write_chip :
    (s.targetFrame true a d).chip = ((s.chip.addressed true a).writeReg s.cfg a d).deselect :=
  targetFrame_chip true a d h

/-- A read frame reads the register (R51, R102). -/
theorem targetFrame_read_chip :
    (s.targetFrame false a d).chip = ((s.chip.addressed false a).readReg s.cfg a).2.deselect :=
  targetFrame_chip false a d h

/-- A read frame leaves the byte read in the foreground's local (R13, R102). -/
theorem targetFrame_read_fgVal :
    (s.targetFrame false a d).fgVal = ((s.chip.addressed false a).readReg s.cfg a).1 :=
  dataDone_sdr false a d h

/-- A read frame is logged with the byte read (R107). -/
theorem targetFrame_read_busLog :
    (s.targetFrame false a d).busLog =
      s.busLog ++ [.frame false a ((s.chip.addressed false a).readReg s.cfg a).1] := by
  have hval : (s.dataDone false a d).sdr = ((s.chip.addressed false a).readReg s.cfg a).1 := dataDone_sdr false a d h
  simp only [State.targetFrame, closeFrame_busLog, Bool.false_eq_true, if_false, hval, dataDone_busLog]

end

/-- A frame leaves the machine ready for the next: the edge detector has seen the pin, and the pin shows its flag. -/
theorem State.OnTarget.targetFrame {s : State} (h : s.OnTarget) (rw : Bool) (a : Addr) (d : Byte) :
    (s.targetFrame rw a d).OnTarget where
  noHandler := by simpa [State.targetFrame] using h.noHandler
  noFrame := by simp [State.targetFrame]
  pinsSeen := by simp [State.targetFrame]
  busAlive := by simpa using h.busAlive
  noMoves := by simpa [State.targetFrame] using h.noMoves
  reference := by simpa using h.reference
  pin := by
    have hpin := dataDone_dioFollows s rw a d (by simpa using h.reference)
    simp only [State.targetFrame, closeFrame_pins, closeFrame_cfg, closeFrame_chip]
    exact hpin

/-! ### The two commands -/

/-- A command whose operations bring the foreground to its end in `u` leaves `u`. -/
theorem runCommand_eq_of_runDown {c : Instr} {ops : List MicroOp} {s u : State} {m : Nat} (hfg : s.fg = .ready)
    (hu : u.fg = .ready) (hm : m ≤ 262144)
    (h : ∀ n, runDown 0 (n + m) { s with fg := Fg.resume c ops } = runDown 0 n { u with fg := .ready }) :
    runCommand c ops s = u := by
  have hbudget : moveBudget s = moveBudget s - m + m := by unfold moveBudget; omega
  simp only [runCommand, hfg]
  rw [hbudget, h, runDown_done (by simp [State.depth]), ← hu]

/-- `WR a, v` against the reference target is one write frame (R103). -/
theorem exec_wr_onTarget {s : State} (h : s.OnTarget) (hfg : s.fg = .ready) (a : Addr) (v : Byte) :
    exec (.wr a v) s = .next (s.targetFrame true a v) := by
  obtain ⟨m, hm, hrun⟩ := runDown_targetWrite (c := .wr a v) (a := a) (b := v) (k := []) h Nat.zero_lt_two
  exact congrArg _ (runCommand_eq_of_runDown hfg ((targetFrame_fg ..).trans hfg) (by omega) hrun)

/-- `RD a` against the reference target is one read frame, whose byte is appended to the result port (R102). -/
theorem exec_rd_onTarget {s : State} (h : s.OnTarget) (hfg : s.fg = .ready) (a : Addr) :
    exec (.rd a) s = .next { s.targetFrame false a s.cfg.dummy with
      res := s.res ++ [(s.targetFrame false a s.cfg.dummy).fgVal] } := by
  obtain ⟨m, hm, hread⟩ := runDown_targetRead (d := 0) (c := .rd a) (a := a) (k := [.toRes]) h (by simp)
  have hfree := (h.targetFrame false a s.cfg.dummy).withFg (.run (.rd a) [.toRes])
  refine congrArg Host.Outcome.next
    (runCommand_eq_of_runDown (m := m + 1) hfg ((targetFrame_fg ..).trans hfg) (by omega) fun n => ?_)
  calc runDown 0 (n + (m + 1)) { s with fg := .run (.rd a) [.readFrame a, .toRes] }
      = runDown 0 (n + 1) { s.targetFrame false a s.cfg.dummy with fg := .run (.rd a) [.toRes] } := by
        rw [show n + (m + 1) = n + 1 + m by omega, hread]; rfl
    _ = _ := by
        rw [runDown_op hfree.toFree rfl (by simp) rfl rfl]
        simp only [targetFrame_res]; rfl

/-! ### A register without side effects -/

theorem Chip.writeReg_plain {c : Config} {a : Addr} (h : a ∉ [c.regFifo, c.regOpmode, c.regIrqFlags, c.regVersion])
    (x : Chip) (v : Byte) : x.writeReg c a v = x.setReg a v := by
  simp only [List.mem_cons, List.not_mem_nil, or_false, not_or] at h
  obtain ⟨hfifo, hopmode, hflags, hversion⟩ := h
  simp only [Chip.writeReg, hfifo, hopmode, hflags, hversion, if_false]

theorem Chip.readReg_plain {c : Config} {a : Addr} (h : a ∉ [c.regFifo, c.regOpmode, c.regIrqFlags, c.regVersion])
    (x : Chip) : x.readReg c a = (x.reg a, x) := by
  simp only [List.mem_cons, List.not_mem_nil, or_false, not_or] at h
  obtain ⟨hfifo, -, -, hversion⟩ := h
  simp only [Chip.readReg, hfifo, hversion, if_false]

/-- Settles O56: one write frame, one read frame; the frames leave the machine free, so the second runs like the first, and a
register without side effects is a byte of the register file. -/
theorem targetReadsBack : Obligations.TargetReadsBack := by
  intro s a v hfree hready _ href hdio hmem ha
  have hs : s.OnTarget := ⟨hfree, href, hdio href⟩
  have hwrite := exec_wr_onTarget hs hready a v
  have ht := hs.targetFrame true a v
  have hcfg := targetFrame_cfg s true a v
  have hfg := (targetFrame_fg s true a v).trans hready
  have hres := targetFrame_res s true a v
  have hlog := targetFrame_write_busLog s a v
  have hchip := (targetFrame_write_chip a v href).trans (congrArg Chip.deselect (Chip.writeReg_plain ha _ v))
  generalize s.targetFrame true a v = t at *
  have hreg : ∀ b, t.chip.reg b = if b = a then v else s.chip.reg b := fun b => by
    rw [hchip]
    exact Chip.reg_setReg (x := s.chip.addressed true a) hmem.regs
  have hread : (t.chip.addressed false a).readReg t.cfg a = (v, t.chip.addressed false a) := by
    rw [Chip.readReg_plain (hcfg ▸ ha), Chip.addressed_reg, hreg, if_pos rfl]
  have hval := targetFrame_read_fgVal a t.cfg.dummy ht.reference
  have hchip' := targetFrame_read_chip a t.cfg.dummy ht.reference
  have hlog' := targetFrame_read_busLog a t.cfg.dummy ht.reference
  rw [hread] at hval hchip' hlog'
  refine ⟨t, _, hwrite, exec_rd_onTarget ht hfg a, ?result, (targetFrame_fg ..).trans hfg, ?registers, ?buffer, ?log⟩
  case result => simp only [hval, hres]
  case registers =>
    intro b
    simp only [hchip', Chip.deselect_reg, Chip.addressed_reg, hreg]
  case buffer => simp only [hchip', hchip, Chip.deselect_fifo, Chip.addressed_fifo, Chip.setReg_fifo]
  case log => simp only [hlog', hlog, List.append_assoc, List.cons_append, List.nil_append]

end Sys2Proof.Machine
end

section
/-! The family of 30_encoding.md: the address byte (R71), the match and mask rows (R84), and the walk that meets an illegal
entry (R76). -/

namespace Sys2Proof

/-! ### The address byte -/

/-- Two patterns laid side by side, as a number. -/
theorem toNat_append_eq_add {m n : Nat} (x : BitVec m) (y : BitVec n) : (x ++ y).toNat = 2 ^ n * x.toNat + y.toNat := by
  rw [BitVec.toNat_append, ← Nat.shiftLeft_add_eq_or_of_lt y.isLt, Nat.shiftLeft_eq, Nat.mul_comm]

/-- Settles O6: the address byte and the frame are each two patterns side by side. -/
theorem addressByte : Obligations.AddressByte := by
  intro rw a d
  refine ⟨?byte, by simp, addrByte_low rw a, toNat_append_eq_add (addrByte rw a) d⟩
  case byte => cases rw <;> exact toNat_append_eq_add _ a

/-! ### A word that fits a row decodes to the row's command -/

/-- A row fits when the bits under its mask are its pattern (R84). -/
theorem CmdRow.fits_iff {r : CmdRow} {w : Word} : r.fits w = true ↔ w &&& r.mask = r.pattern := beq_iff_eq

/-- A word that fits a row has the pattern's bits wherever the mask is all ones (R84). -/
theorem CmdRow.field_of_fits {r : CmdRow} {w : Word} (h : r.fits w = true) (start len : Nat)
    (hmask : r.mask.extractLsb' start len = BitVec.allOnes len) :
    w.extractLsb' start len = r.pattern.extractLsb' start len := by
  rw [← CmdRow.fits_iff.mp h, BitVec.extractLsb'_and, hmask, BitVec.and_allOnes]

/-- A word that fits a row without operands is the row's pattern (R84). -/
theorem CmdRow.eq_pattern_of_fits {r : CmdRow} {w : Word} (h : r.fits w = true) (hmask : r.mask = BitVec.allOnes 32) :
    w = r.pattern := by
  rw [← CmdRow.fits_iff.mp h, hmask, BitVec.and_allOnes]

/-- With `z1` and `z2` clear, a word is decoded by its operation. -/
theorem decodeCmd_of_clear {w : Word} (hop : w.op ≠ 0) (hz1 : w.z1 = 0) (hz2 : w.z2 = 0) :
    decodeCmd w = decodeOp w := by
  simp only [decodeCmd, hop, hz1, hz2, if_false, ne_eq, not_true_eq_false]

/-- Every row fixes a nonzero operation and clears `z1` and `z2` (R78, R84). -/
theorem cmdRows_top : ∀ r ∈ cmdRows,
    (r.mask.op = BitVec.allOnes 4 ∧ r.mask.z1 = BitVec.allOnes 4 ∧ r.mask.z2 = BitVec.allOnes 1) ∧
    r.pattern.op ≠ 0 ∧ r.pattern.z1 = 0 ∧ r.pattern.z2 = 0 := by
  decide

/-- A word that fits a row is decoded by its operation. -/
theorem decodeCmd_of_fits {r : CmdRow} {w : Word} (hr : r ∈ cmdRows) (h : r.fits w = true) :
    decodeCmd w = decodeOp w := by
  obtain ⟨⟨mop, mz1, mz2⟩, hop, hz1, hz2⟩ := cmdRows_top r hr
  exact decodeCmd_of_clear (fun h0 => hop ((r.field_of_fits h 28 4 mop).symm.trans h0))
    ((r.field_of_fits h 24 4 mz1).trans hz1) ((r.field_of_fits h 23 1 mz2).trans hz2)

/-- A command with unused fields decodes exactly when they are 0 (R80). -/
theorem requireZero_eq_ok {p : Prop} [Decidable p] {i j : Instr} : requireZero p i = .ok j ↔ p ∧ i = j := by
  by_cases h : p <;> simp [requireZero, h]

/-- Bits of the operand `C` are bits of the word (R78). -/
theorem fieldC_extract (w : Word) {start len : Nat} (h : start + len ≤ 8) :
    w.fieldC.extractLsb' start len = w.extractLsb' start len := by
  ext i hi
  simp [Word.fieldC, show start + i < 8 by omega]

/-- A word that fits a row decodes to the row's command: the fields the command does not use are those the row clears. -/
theorem decodes_of_fits {r : CmdRow} {w : Word} (hr : r ∈ cmdRows) (h : r.fits w = true) :
    ∃ i, decodeCmd w = .ok i ∧ i.mnemonic = r.mnemonic := by
  rw [decodeCmd_of_fits hr h]
  have field := r.field_of_fits h
  have whole := r.eq_pattern_of_fits h
  simp only [cmdRows, List.cons_append, List.nil_append, List.mem_cons, List.not_mem_nil, or_false] at hr
  obtain rfl | rfl | rfl | rfl | rfl | rfl | rfl | rfl | rfl | rfl | rfl | rfl | rfl | rfl | rfl | rfl := hr
  · refine ⟨.rd w.fieldA, ?_, rfl⟩
    rw [decodeOp, show w.op = 0x1 from field 28 4 rfl]
    exact requireZero_eq_ok.mpr ⟨⟨field 8 8 rfl, field 0 8 rfl⟩, rfl⟩
  · refine ⟨.wr w.fieldA w.fieldB, ?_, rfl⟩
    rw [decodeOp, show w.op = 0x2 from field 28 4 rfl]
    exact requireZero_eq_ok.mpr ⟨field 0 8 rfl, rfl⟩
  · refine ⟨.upd w.fieldA w.fieldB w.fieldC, ?_, rfl⟩
    rw [decodeOp, show w.op = 0x3 from field 28 4 rfl]
    rfl
  · refine ⟨.brd w.fieldC, ?_, rfl⟩
    rw [decodeOp, show w.op = 0x4 from field 28 4 rfl]
    exact requireZero_eq_ok.mpr ⟨⟨field 16 7 rfl, field 8 8 rfl⟩, rfl⟩
  · refine ⟨.bwr w.fieldC, ?_, rfl⟩
    rw [decodeOp, show w.op = 0x5 from field 28 4 rfl]
    exact requireZero_eq_ok.mpr ⟨⟨field 16 7 rfl, field 8 8 rfl⟩, rfl⟩
  · refine ⟨.cfg w.fieldW, ?_, rfl⟩
    rw [decodeOp, show w.op = 0x6 from field 28 4 rfl]
    exact requireZero_eq_ok.mpr ⟨field 16 7 rfl, rfl⟩
  · exact ⟨.rstp, whole rfl ▸ rfl, rfl⟩
  · exact ⟨.verrd, whole rfl ▸ rfl, rfl⟩
  · exact ⟨.initReceiver, whole rfl ▸ rfl, rfl⟩
  · exact ⟨.initTransmitter, whole rfl ▸ rfl, rfl⟩
  · refine ⟨.mode (Mode.ofNumber (w.fieldC.extractLsb' 0 2)), ?_, rfl⟩
    rw [decodeOp, show w.op = 0xA from field 28 4 rfl]
    exact requireZero_eq_ok.mpr ⟨⟨field 16 7 rfl, field 8 8 rfl, (fieldC_extract w le_rfl).trans (field 2 6 rfl)⟩, rfl⟩
  · refine ⟨.dump w.fieldA, ?_, rfl⟩
    rw [decodeOp, show w.op = 0xB from field 28 4 rfl]
    exact requireZero_eq_ok.mpr ⟨field 0 16 rfl, rfl⟩
  · exact ⟨.txwait, whole rfl ▸ rfl, rfl⟩
  · exact ⟨.idle, whole rfl ▸ rfl, rfl⟩
  · refine ⟨.pause w.fieldW, ?_, rfl⟩
    rw [decodeOp, show w.op = 0xE from field 28 4 rfl]
    exact requireZero_eq_ok.mpr ⟨field 16 7 rfl, rfl⟩
  · refine ⟨.ien (w.fieldC.getLsbD 0), ?_, rfl⟩
    rw [decodeOp, show w.op = 0xF from field 28 4 rfl]
    exact requireZero_eq_ok.mpr ⟨⟨field 16 7 rfl, field 8 8 rfl, (fieldC_extract w le_rfl).trans (field 1 7 rfl)⟩, rfl⟩

/-! ### A decoded word is the encoding of what it decodes to -/

/-- `INIT` decodes with a clear operand but for the variant (R78). -/
theorem decodeInit_eq_ok {w : Word} {i : Instr} (h : decodeInit w = .ok i) :
    (w.fieldA = 0 ∧ w.fieldB = 0 ∧ w.fieldC.extractLsb' 2 6 = 0) ∧
    (w.fieldC.extractLsb' 0 2 = 1 ∧ i = .initReceiver ∨ w.fieldC.extractLsb' 0 2 = 2 ∧ i = .initTransmitter) := by
  unfold decodeInit at h
  split_ifs at h with hzero hreceiver htransmitter <;> cases h
  · exact ⟨hzero, .inl ⟨hreceiver, rfl⟩⟩
  · exact ⟨hzero, .inr ⟨htransmitter, rfl⟩⟩

/-- Every 2-bit number is the number of its mode (R78). -/
theorem Mode.number_ofNumber (n : BitVec 2) : (Mode.ofNumber n).number = n := by
  revert n
  decide

/-- The operand `W` is `B ++ C`, so a word whose `A` is clear is assembled from it (R78). -/
theorem cmdWord_eq_cmdWordW (op : BitVec 4) (w : Word) : cmdWord op 0 w.fieldB w.fieldC = cmdWordW op w.fieldW := by
  apply Laws.bits_eq
  simp [Fin.forall_fin_succ, cmdWord_getLsbD, cmdWordW_getLsbD, Word.fieldB, Word.fieldC, Word.fieldW,
    -BitVec.getLsbD_eq_getElem]

/-- With a clear 16-bit operand, `B` and `C` are clear. -/
theorem cmdWord_of_fieldW {w : Word} (h : w.fieldW = 0) (op : BitVec 4) (a : Addr) :
    cmdWord op a w.fieldB w.fieldC = cmdWord op a 0 0 := by
  have hB : w.fieldB = 0 := by simpa [Word.fieldW, Word.fieldB] using congrArg (BitVec.extractLsb' 8 8) h
  have hC : w.fieldC = 0 := by simpa [Word.fieldW, Word.fieldC] using congrArg (BitVec.extractLsb' 0 8) h
  rw [hB, hC]

/-- A pattern is its high bits and its low bits side by side. -/
theorem append_extractLsb' {m n : Nat} (x : BitVec (m + n)) : x.extractLsb' n m ++ x.extractLsb' 0 n = x := by
  rw [BitVec.extractLsb'_append_extractLsb'_eq_extractLsb' (Nat.zero_add n).symm, BitVec.extractLsb'_eq_self]

/-- With clear high bits the low bits are all there is. -/
theorem zero_append_extractLsb' {m n : Nat} {x : BitVec (m + n)} (h : x.extractLsb' n m = 0) :
    (0 : BitVec m) ++ x.extractLsb' 0 n = x := by
  rw [← h, append_extractLsb']

/-- The lowest bit of a byte, as a pattern of one bit. -/
theorem ofBool_getLsbD_zero (x : Byte) : BitVec.ofBool (x.getLsbD 0) = x.extractLsb' 0 1 := by
  ext i hi
  simp [show i = 0 by omega]

/-- The operation and the fields of a decoded word are those of the encoding of what it decodes to. -/
theorem encode_of_decodeOp {w : Word} {i : Instr} (h : decodeOp w = .ok i) :
    encode i = .cmd (cmdWord w.op w.fieldA w.fieldB w.fieldC) := by
  rw [show w.op = BitVec.ofNat 4 w.op.toNat by simp]
  unfold decodeOp at h
  generalize w.op.toNat = op at h ⊢
  split at h
  · obtain ⟨⟨hB, hC⟩, rfl⟩ := requireZero_eq_ok.mp h
    rw [hB, hC]; rfl
  · obtain ⟨hC, rfl⟩ := requireZero_eq_ok.mp h
    rw [hC]; rfl
  · cases h
    rfl
  · obtain ⟨⟨hA, hB⟩, rfl⟩ := requireZero_eq_ok.mp h
    rw [hA, hB]; rfl
  · obtain ⟨⟨hA, hB⟩, rfl⟩ := requireZero_eq_ok.mp h
    rw [hA, hB]; rfl
  · obtain ⟨hA, rfl⟩ := requireZero_eq_ok.mp h
    rw [hA, cmdWord_eq_cmdWordW]; rfl
  · obtain ⟨⟨hA, hW⟩, rfl⟩ := requireZero_eq_ok.mp h
    rw [hA, cmdWord_of_fieldW hW]; rfl
  · obtain ⟨⟨hA, hW⟩, rfl⟩ := requireZero_eq_ok.mp h
    rw [hA, cmdWord_of_fieldW hW]; rfl
  · obtain ⟨⟨hA, hB, hhigh⟩, hlow⟩ := decodeInit_eq_ok h
    rw [hA, hB, ← zero_append_extractLsb' (m := 6) (n := 2) hhigh]
    obtain ⟨hlow, rfl⟩ | ⟨hlow, rfl⟩ := hlow <;> rw [hlow] <;> rfl
  · obtain ⟨⟨hA, hB, hhigh⟩, rfl⟩ := requireZero_eq_ok.mp h
    rw [encode, Mode.number_ofNumber, zero_append_extractLsb' (m := 6) (n := 2) hhigh, hA, hB]; rfl
  · obtain ⟨hW, rfl⟩ := requireZero_eq_ok.mp h
    rw [cmdWord_of_fieldW hW]; rfl
  · obtain ⟨⟨hA, hW⟩, rfl⟩ := requireZero_eq_ok.mp h
    rw [hA, cmdWord_of_fieldW hW]; rfl
  · obtain ⟨⟨hA, hW⟩, rfl⟩ := requireZero_eq_ok.mp h
    rw [hA, cmdWord_of_fieldW hW]; rfl
  · obtain ⟨hA, rfl⟩ := requireZero_eq_ok.mp h
    rw [hA, cmdWord_eq_cmdWordW]; rfl
  · obtain ⟨⟨hA, hB, hhigh⟩, rfl⟩ := requireZero_eq_ok.mp h
    rw [encode, ofBool_getLsbD_zero, zero_append_extractLsb' (m := 7) (n := 1) hhigh, hA, hB]; rfl
  · cases h

/-- A decoded command word is the encoding of what it decodes to. -/
theorem encode_of_decodeCmd {w : Word} {i : Instr} (h : decodeCmd w = .ok i) : encode i = .cmd w := by
  unfold decodeCmd at h
  split_ifs at h with hop hz1 hz2
  rw [word_eta w (not_not.mp hz1) (not_not.mp hz2), encode_of_decodeOp h]

/-! ### The rows and the decoder -/

/-- The encoding of every instruction fits the row with its mnemonic. -/
theorem fitsRow (i : Instr) : Laws.FitsRow.Statement i := by
  cases i with
  | rd a => exact Laws.FitsRow.rd a
  | wr a v => exact Laws.FitsRow.wr a v
  | upd a k n => exact Laws.FitsRow.upd a k n
  | brd n => exact Laws.FitsRow.brd n
  | bwr n => exact Laws.FitsRow.bwr n
  | cfg p => exact Laws.FitsRow.cfg p
  | rstp => exact Laws.FitsRow.rstp
  | verrd => exact Laws.FitsRow.verrd
  | initReceiver => exact Laws.FitsRow.initReceiver
  | initTransmitter => exact Laws.FitsRow.initTransmitter
  | mode m => exact Laws.FitsRow.mode m
  | dump a => exact Laws.FitsRow.dump a
  | txwait => exact Laws.FitsRow.txwait
  | idle => exact Laws.FitsRow.idle
  | pause c => exact Laws.FitsRow.pause c
  | ien e => exact Laws.FitsRow.ien e
  | rdf a => exact Laws.FitsRow.rdf a
  | wrf a d => exact Laws.FitsRow.wrf a d
  | ent a v => exact Laws.FitsRow.ent a v
  | endTable => exact Laws.FitsRow.endTable

/-- A word that decodes fits the row of what it decodes to. -/
theorem fits_of_decodes {w : Word} {i : Instr} (h : decodeCmd w = .ok i) :
    ∃ r ∈ cmdRows, r.fits w = true ∧ r.mnemonic = i.mnemonic := by
  have hrow := fitsRow i
  simp only [Laws.FitsRow.Statement, encode_of_decodeCmd h] at hrow
  obtain ⟨r, hr, hname, hfits⟩ := hrow
  exact ⟨r, hr, CmdRow.fits_iff.mpr hfits, hname⟩

/-- Two rows that fit one word agree wherever both masks look; the table has no two such rows. -/
theorem rows_disjoint {w : Word} {r r' : CmdRow} (hr : r ∈ cmdRows) (hr' : r' ∈ cmdRows) (h : r.fits w = true)
    (h' : r'.fits w = true) : r = r' := by
  have htable : ∀ r ∈ cmdRows, ∀ r' ∈ cmdRows, r.pattern &&& r'.mask = r'.pattern &&& r.mask → r = r' := by
    decide
  refine htable r hr r' hr' ?_
  rw [← CmdRow.fits_iff.mp h, ← CmdRow.fits_iff.mp h', BitVec.and_assoc, BitVec.and_assoc, BitVec.and_comm r.mask]

/-! ### The 16-bit rows -/

/-- A frame or entry matches the mask 0x8000 by its bit 15. -/
theorem and_bit15 (w : Half) : w &&& 0x8000 = if w.getLsbD 15 = true then 0x8000 else 0 :=
  BitVec.and_twoPow w 15

/-- The mask 0xFF00 keeps the first byte. -/
theorem and_firstByte (w : Half) : w &&& 0xFF00 = entryWord (w.extractLsb' 8 8) 0 := by
  conv_lhs => rw [← append_extractLsb' (m := 8) (n := 8) w]
  exact BitVec.and_append.trans (congrArg₂ _ BitVec.and_allOnes BitVec.and_zero)

/-- The mnemonic of a frame, by bit 15 (R72, R73). -/
theorem mnemonic_decodeFrame (w : Half) : (decodeFrame w).mnemonic = if w.getLsbD 15 = true then "WRF" else "RDF" := by
  unfold decodeFrame
  split_ifs <;> rfl

/-- The sentinel has bit 15 set (R75). -/
theorem bit15_of_sentinel {w : Half} (h : w.extractLsb' 8 8 = sentinelByte) : w.getLsbD 15 = true := by
  simpa [sentinelByte] using congrArg (fun b : Byte => b.getLsbD 7) h

/-- An entry that is not the sentinel is told by bit 15 (R74). -/
theorem decodes_ent_iff (w : Half) :
    (∃ i, decodeEntry w = .ok i ∧ i.mnemonic = "ENT") ↔ w.getLsbD 15 = false := by
  unfold decodeEntry
  split_ifs with hsentinel hbit
  · simp [Instr.mnemonic, bit15_of_sentinel hsentinel, -BitVec.getLsbD_eq_getElem]
  · simp [hbit, -BitVec.getLsbD_eq_getElem]
  · simp [Instr.mnemonic, hbit, -BitVec.getLsbD_eq_getElem]

/-- The sentinel is told by its first byte (R75). -/
theorem decodes_end_iff (w : Half) :
    (∃ i, decodeEntry w = .ok i ∧ i.mnemonic = "END") ↔ w.extractLsb' 8 8 = sentinelByte := by
  unfold decodeEntry
  split_ifs with hsentinel hbit
  · simp [Instr.mnemonic, hsentinel]
  · simp [hsentinel]
  · simp [Instr.mnemonic, hsentinel]

/-- Settles O4: a word that fits a row decodes by the fields the row fixes, a word that decodes is an encoding and so fits its
row, and the 16-bit rows look at bit 15 or at the first byte. -/
theorem rowsMatchDecoder : Obligations.RowsMatchDecoder := by
  refine ⟨fun w n => ⟨?decodes, ?fits⟩, fun w r hr r' hr' => rows_disjoint hr hr', ?rejected, ?frame, ?entry, ?sentinel⟩
  case decodes =>
    rintro ⟨r, hr, hfits, rfl⟩
    exact decodes_of_fits hr hfits
  case fits =>
    rintro ⟨i, hi, rfl⟩
    exact fits_of_decodes hi
  case rejected =>
    intro w hnone
    cases hw : decodeCmd w with
    | error e => exact ⟨e, rfl⟩
    | ok i =>
      obtain ⟨r, hr, hfits, -⟩ := fits_of_decodes hw
      exact absurd hfits (by simp [hnone r hr])
  case frame =>
    intro w
    rw [mnemonic_decodeFrame, and_bit15]
    cases w.getLsbD 15 <;> rfl
  case entry =>
    intro w
    rw [decodes_ent_iff, and_bit15]
    cases w.getLsbD 15 <;> decide
  case sentinel =>
    intro w
    rw [decodes_end_iff, and_firstByte]
    exact ⟨fun h => by rw [h]; rfl, fun h => (entryWord_high _ 0).symm.trans (congrArg (BitVec.extractLsb' 8 8) h)⟩

end Sys2Proof

namespace Sys2Proof.Machine

/-! ### A walk that meets an illegal entry -/

/-- An address byte of 0x80 to 0xFE is no entry (R76). -/
theorem decodeEntry_illegal {tab : Memory} {p : TabAddr} (hhigh : 128 ≤ (Memory.tabByte tab p).toNat)
    (hne : Memory.tabByte tab p ≠ sentinelByte) : decodeEntry (Memory.tabEntry tab p) = .error .illegalEntry := by
  have hbit : (Memory.tabByte tab p).getLsbD 7 = true := by
    rw [← BitVec.msb_eq_getLsbD_last (w := 8), BitVec.msb_eq_decide]
    simpa using hhigh
  exact (decodeEntry_entryWord _ _).trans ((if_neg hne).trans (if_pos hbit))

/-- The frame of an entry and the advance of the table pointer (R120). -/
theorem goes_entryOps (c : Instr) (s : State) (a : Addr) (v : Byte) :
    Goes c (entryOps a v) s { s.afterWrite a v with tp := s.tp + 2 } 6 := by
  obtain ⟨-, -, -, -, -, -, -, -, -, htp, -⟩ := afterWrite_same s a v
  refine .write a v (.op (op := .tpAdvance) (new := []) (t := { s.afterWrite a v with tp := s.tp + 2 }) rfl (fun g => ?_)
    (fun h => h.congr rfl h.noFrame rfl rfl rfl rfl) (.nil _ _))
  simp only [opStep, htp]

/-- A walk at a legal entry takes seven moves to the next (R120). -/
theorem runDown_walk_entry {d n : Nat} {s : State} {c : Instr} {k : List MicroOp} {a : Addr} {v : Byte}
    (hu : s.Undisturbed) (hentry : Memory.tabEntry s.tab s.tp = entryWord (addrByte false a) v)
    (hd : d ≤ k.length + 1) :
    runDown d (n + 7) { s with fg := .run c (.walk :: k) } =
      runDown d n { s.afterWrite a v with tp := s.tp + 2, fg := .run c (.walk :: k) } := by
  have hstep : walkStep s.fgVal { s with fg := .run c (.walk :: k) } =
      ⟨{ s with fg := .run c (.walk :: k) }, s.fgVal, .push (entryOps a v ++ [.walk])⟩ := by
    simp only [walkStep, hentry, decodeEntry_ent]
  rw [show n + 7 = n + 6 + 1 from rfl, runDown_op (op := .walk) (hu.withFg _).toFree rfl (by omega) rfl hstep,
    List.append_assoc]
  exact (goes_entryOps c s a v hu).2 d n (.walk :: k) (by simp; omega)

/-- A walk over legal entries takes seven moves an entry, and goes on at what follows them (R120). -/
theorem runDown_walk_entries {d n : Nat} {c : Instr} {k : List MicroOp} (es : List (Addr × Byte)) {s : State}
    (hu : s.Undisturbed) (hes : EntriesAt s.tab s.tp es) (hd : d ≤ k.length + 1) :
    (State.afterEntries es s).Undisturbed ∧
    runDown d (n + 7 * es.length) { s with fg := .run c (.walk :: k) } =
      runDown d n { State.afterEntries es s with fg := .run c (.walk :: k) } := by
  induction es generalizing s with
  | nil => exact ⟨hu, rfl⟩
  | cons e es ih =>
    obtain ⟨a, v⟩ := e
    obtain ⟨hfirst, hrest⟩ := entriesAt_cons.mp hes
    obtain ⟨-, -, -, -, -, -, -, -, htab, -⟩ := afterWrite_same s a v
    obtain ⟨hu', hrun⟩ := ih (s := { s.afterWrite a v with tp := s.tp + 2 }) ((goes_entryOps c s a v hu).1)
      (by simpa only [htab] using hrest)
    exact ⟨hu', (runDown_walk_entry (n := n + 7 * es.length) hu hfirst hd).trans hrun⟩

/-- A walk at an illegal entry raises `err_table` with its address and ends the command in one move (R76). -/
theorem runDown_walk_illegal {n : Nat} {s : State} {c : Instr} {k : List MicroOp} (hu : s.Undisturbed)
    (hillegal : decodeEntry (Memory.tabEntry s.tab s.tp) = .error .illegalEntry) :
    runDown 0 (n + 1) { s with fg := .run c (.walk :: k) } = runDown 0 n (raiseFault .errTable s.tp s) := by
  have hstep : walkStep s.fgVal { s with fg := .run c (.walk :: k) } =
      ⟨flagFault .errTable s.tp { s with fg := .run c (.walk :: k) }, s.fgVal, .stop⟩ := by
    simp only [walkStep, hillegal]
  have hmove := micro_fg (s := { s with fg := .run c (.walk :: k) }) hu.noMoves hu.noHandler hu.pinsSeen
    (by simp [canExchange, hu.noFrame]) (by simp [fgEnabled, hu.noHandler, opEnabled])
  rw [runDown_step (by simp [State.depth]) hmove]
  simp only [fgStep, opStep, hstep]
  rfl

/-- Settles O18: the pointer is set, the walk goes over the legal entries to the illegal one, and ends there. -/
theorem walkMeetsIllegalEntry : Obligations.WalkMeetsIllegalEntry := by
  intro s p es hu hready hes hlength hhigh hne
  have hs : State.Undisturbed { s with tp := p } := hu.congr rfl hu.noFrame rfl rfl rfl rfl
  obtain ⟨hfg, htab, -, htp, -⟩ := entries_facts es { s with tp := p }
  have hwalk := fun n => runDown_walk_entries (d := 0) (n := n) (c := .cfg p) (k := []) es hs hes (by simp)
  generalize State.afterEntries es { s with tp := p } = t at *
  have hillegal : decodeEntry (Memory.tabEntry t.tab t.tp) = .error .illegalEntry := by
    rw [htab, htp]
    exact decodeEntry_illegal hhigh hne
  have hmoves : 1 + 7 * es.length + 1 ≤ 262144 := by
    rw [entryPositions] at hlength
    omega
  refine ⟨congrArg Host.Outcome.next (runCommand_eq_of_runDown hready (hfg.trans hready) hmoves fun n => ?_), htp,
    hfg.trans hready⟩
  calc runDown 0 (n + (1 + 7 * es.length + 1)) { s with fg := .run (.cfg p) [.setTp p, .walk] }
      = runDown 0 (n + 1 + 7 * es.length) { s with tp := p, fg := .run (.cfg p) [.walk] } := by
        rw [← Nat.add_assoc, ← Nat.add_assoc]
        exact runDown_op (op := .setTp p) (hu.withFg _).toFree rfl (Nat.succ_pos _) rfl rfl
    _ = runDown 0 (n + 1) { t with fg := .run (.cfg p) [.walk] } := (hwalk (n + 1)).2
    _ = runDown 0 n (raiseFault .errTable t.tp t) := runDown_walk_illegal (hwalk 0).1 hillegal
    _ = _ := by
        rw [show tableEnd p es = t.tp from htp.symm]
        rfl

end Sys2Proof.Machine
end

section
/-! The family of 40_register_access.md: one read frame and one write frame as commands (R102, R103). -/

namespace Sys2Proof.Machine

/-- `RD` reads in five moves and takes the byte to the result port in one more (R102). -/
theorem goes_rd (c : Instr) (s : State) (a : Addr) :
    Goes c [.readFrame a, .toRes] s { s.afterRead a with res := s.res ++ [s.frameByte 0] } 6 :=
  .read a (.op (op := .toRes) (new := []) (t := { s.afterRead a with res := s.res ++ [s.frameByte 0] }) rfl
    (fun _ => rfl) (fun h => h.congr rfl h.noFrame rfl rfl rfl rfl) (.nil _ _))

/-- `WR` is its write frame, five moves (R103). -/
theorem goes_wr (c : Instr) (s : State) (a : Addr) (v : Byte) : Goes c [.writeFrame a v] s (s.afterWrite a v) 5 :=
  .write a v (.nil _ _)

/-- `RD a` on the normative chip completes in one execution (R102). -/
theorem exec_rd_undisturbed {s : State} (hu : s.Undisturbed) (hready : s.fg = .ready) (a : Addr) :
    exec (.rd a) s = .next { s.afterRead a with res := s.res ++ [s.frameByte 0] } :=
  congrArg Host.Outcome.next ((goes_rd (.rd a) s a).command hu hready hready (by decide))

/-- `WR a, v` on the normative chip completes in one execution (R103). -/
theorem exec_wr_undisturbed {s : State} (hu : s.Undisturbed) (hready : s.fg = .ready) (a : Addr) (v : Byte) :
    exec (.wr a v) s = .next (s.afterWrite a v) :=
  congrArg Host.Outcome.next
    ((goes_wr (.wr a v) s a v).command hu hready ((afterWrite_fg s a v).trans hready) (by decide))

/-- Settles O10: the run of the two operations of `RD` ends in `afterRead` with the byte at the result port, whose fields the
statement writes out. -/
theorem readCommand : Obligations.ReadCommand := fun _ a hu hready => exec_rd_undisturbed hu hready a

/-- Settles O11: the run of the one operation of `WR` ends in `afterWrite`, whose fields and tracker case the statement writes
out. -/
theorem writeCommand : Obligations.WriteCommand := fun _ a v hu hready => exec_wr_undisturbed hu hready a v

end Sys2Proof.Machine
end

section
/-! The family of 41_config_sequencer.md: the register dump and the version readback as commands (R124, R125). -/

namespace Sys2Proof.Machine

/-- The emit of a dump is one move, and takes the local's byte to the sink (R125). -/
theorem Goes.dumpOut {c : Instr} {ops : List MicroOp} {s u : State} {m : Nat} (a : Addr)
    (h : Goes c ops (emitEvent (.regDump a s.fgVal) s) u m) : Goes c (.dumpOut a :: ops) s u (m + 1) :=
  .op (op := .dumpOut a) (new := []) (t := emitEvent (.regDump a s.fgVal) s) rfl (fun _ => rfl)
    (fun hu => hu.congr rfl hu.noFrame rfl rfl rfl rfl) h

/-- `DUMP` reads in five moves and takes address and byte to the sink in one more (R125). -/
theorem goes_dump (c : Instr) (s : State) (a : Addr) :
    Goes c [.readFrame a, .dumpOut a] s { s.afterRead a with sink := s.sink ++ [.regDump a (s.frameByte 0)] } 6 :=
  .read a (.dumpOut a (.nil _ _))

/-- `VERRD` dumps the version register and compares the byte, which stays in the local, in one more move (R124). -/
theorem goes_verrd (c : Instr) (s : State) :
    Goes c [.readFrame s.cfg.regVersion, .dumpOut s.cfg.regVersion, .verCheck] s s.afterVerrd 7 :=
  .read _ (.dumpOut _ (.op (op := .verCheck) (new := []) (t := s.afterVerrd) rfl (fun _ => rfl)
    (fun h => h.congr rfl h.noFrame rfl rfl rfl rfl) (.nil _ _)))

/-- `DUMP a` on the normative chip completes in one execution (R125). -/
theorem exec_dump_undisturbed {s : State} (hu : s.Undisturbed) (hready : s.fg = .ready) (a : Addr) :
    exec (.dump a) s = .next { s.afterRead a with sink := s.sink ++ [.regDump a (s.frameByte 0)] } :=
  congrArg Host.Outcome.next ((goes_dump (.dump a) s a).command hu hready hready (by decide))

/-- `VERRD` on the normative chip completes in one execution, match or mismatch (R124). -/
theorem exec_verrd_undisturbed {s : State} (hu : s.Undisturbed) (hready : s.fg = .ready) :
    exec .verrd s = .next s.afterVerrd :=
  congrArg Host.Outcome.next ((goes_verrd .verrd s).command hu hready hready (by decide))

/-- Settles O21: the run of the three operations of `VERRD` ends in `afterVerrd`, whose comparison the statement writes as a
proposition. -/
theorem versionReadback : Obligations.VersionReadback := by
  intro s hu hready
  rw [exec_verrd_undisturbed hu hready, State.afterVerrd, bne, beq_eq_decide, ← decide_not]

/-- Settles O22: the run of the two operations of `DUMP` ends in `afterRead` with address and byte at the sink. -/
theorem registerDump : Obligations.RegisterDump := fun _ a hu hready => exec_dump_undisturbed hu hready a

end Sys2Proof.Machine
end

section
/-! The family of 42_mode_state_machine.md: what the tracker makes of one byte written to the mode-control register (R141 to
R145), and the byte of `MODE` (R140). -/

namespace Sys2Proof.Machine

/-! ### Codes and modes -/

/-- The codes of an allowed configuration are four (R4). -/
theorem codesDistinct_of_wf {c : Config} (h : c.wf = true) :
    [c.codeSleep, c.codeStandby, c.codeTx, c.codeRxcont].Nodup := by
  simp only [Config.wf, Bool.and_eq_true] at h
  obtain ⟨-, -, hcodes, -⟩ := h
  exact of_decide_eq_true hcodes

/-- `decode` is the inverse of `code` (R77). -/
theorem modeOf_eq_some_iff {c : Config} (h : c.wf = true) {x : BitVec 3} {m : Mode} :
    modeOf c x = some m ↔ codeOf c m = x := by
  have hcodes := codesDistinct_of_wf h
  constructor
  · intro hx
    unfold modeOf at hx
    split_ifs at hx <;> cases hx <;> exact Eq.symm ‹x = _›
  · rintro rfl
    simp only [List.nodup_cons, List.mem_cons, List.not_mem_nil, or_false, not_or] at hcodes
    obtain ⟨⟨hs, hst, hsr⟩, ⟨hbt, hbr⟩, htr, -⟩ := hcodes
    cases m <;> simp [modeOf, codeOf, Ne.symm hs, Ne.symm hst, Ne.symm hsr, Ne.symm hbt, Ne.symm hbr, Ne.symm htr]

/-- `decode` is undefined on what is no mode's code (R77). -/
theorem modeOf_eq_none_iff {c : Config} (h : c.wf = true) {x : BitVec 3} :
    modeOf c x = none ↔ ∀ m, codeOf c m ≠ x := by
  simp only [Option.eq_none_iff_forall_ne_some, ne_eq, modeOf_eq_some_iff h]

/-! ### What the tracker decides -/

theorem acceptsLora_iff {m : Mode} : acceptsLora m = true ↔ m = .sleep ∨ m = .standby := by
  cases m <;> simp [acceptsLora]

/-- A byte with an undefined code is `err_mode` and changes nothing tracked (R142). -/
theorem track_of_undefined {c : Config} {d : Byte} (h : modeOf c (modeField d) = none) (m : Mode) (lora : Bool) :
    track c m lora d =
      { mode := m, lora := lora, errMode := true, bitFault := false, edgeFault := false, target := m } := by
  simp only [track, h]

/-- A byte with the code of `m'` sets the mode; its modulation bit is taken from Sleep and Standby alone, and a change of it is
refused elsewhere (R143); the edge is checked against `EDGES` (R144). -/
theorem track_of_defined {c : Config} {d : Byte} {m' : Mode} (h : modeOf c (modeField d) = some m') (m : Mode)
    (lora : Bool) :
    track c m lora d =
      { mode := m', lora := if m = .sleep ∨ m = .standby then bit d c.loraBit else lora, errMode := false,
        bitFault := decide (bit d c.loraBit ≠ lora ∧ m ≠ .sleep ∧ m ≠ .standby),
        edgeFault := !inEdges m m', target := m' } := by
  have hsplit : acceptsLora m = decide (m = .sleep ∨ m = .standby) := by simp [← acceptsLora_iff]
  by_cases hbit : bit d c.loraBit = lora
  · simp [track, h, hbit]
  · simp [track, h, hbit, hsplit]

/-! ### What the tracker flags -/

/-- A flag records its information only if no fault came before (R21). -/
theorem flagIf_info (b : Bool) (f : FaultBit) (i : BitVec 16) (e : ErrRecord) :
    (e.flagIf b f i).info = if e.st.noFault = true ∧ b = true then i else e.info := by
  cases b <;> simp [ErrRecord.flagIf, ErrRecord.flag]

theorem flagIf_noFault (b : Bool) (f : FaultBit) (i : BitVec 16) (e : ErrRecord) :
    (e.flagIf b f i).st.noFault = (e.st.noFault && !b) := by
  cases b <;> simp [ErrRecord.flagIf, ErrRecord.flag, set_noFault]

theorem flagIf_errMode_st (b : Bool) (i : BitVec 16) (e : ErrRecord) :
    (e.flagIf b .errMode i).st = { e.st with errMode := e.st.errMode || b } := by
  cases b <;> simp [ErrRecord.flagIf, ErrRecord.flag, Status.set]

theorem flagIf_errSeq_st (b : Bool) (i : BitVec 16) (e : ErrRecord) :
    (e.flagIf b .errSeq i).st = { e.st with errSeq := e.st.errSeq || b } := by
  cases b <;> simp [ErrRecord.flagIf, ErrRecord.flag, Status.set]

/-- The tracker sets `err_mode` and `err_seq` and no other bit (R141). -/
theorem trackFaults_st (t : Tracked) (m : Mode) (d : Byte) (e : ErrRecord) :
    (trackFaults t m d e).st =
      { e.st with errMode := e.st.errMode || t.errMode, errSeq := e.st.errSeq || t.bitFault || t.edgeFault } := by
  simp only [trackFaults, flagIf_errMode_st, flagIf_errSeq_st]

/-- Of the tracker's faults the first is recorded, the modulation bit's before the edge's (R215, R216). -/
theorem trackFaults_info (t : Tracked) (m : Mode) (d : Byte) (e : ErrRecord) :
    (trackFaults t m d e).info =
      if e.st.noFault = true ∧ t.errMode = true then modeInfo d
      else if e.st.noFault = true ∧ t.bitFault = true then seqInfo true m t.target
      else if e.st.noFault = true ∧ t.edgeFault = true then seqInfo false m t.target
      else e.info := by
  simp only [trackFaults, flagIf_info, flagIf_noFault]
  cases e.st.noFault with
  | false => simp
  | true =>
    cases t.errMode with
    | true => simp
    | false => cases t.bitFault <;> simp

/-! ### A write frame to the mode-control register -/

section
variable (s : State) (d : Byte)

theorem afterWrite_regOpmode :
    s.afterWrite s.cfg.regOpmode d = trackOpmode d (s.afterWriteRaw s.cfg.regOpmode d) := if_pos rfl

theorem afterWrite_regOpmode_mode :
    (s.afterWrite s.cfg.regOpmode d).mode = (track s.cfg s.mode s.lora d).mode :=
  congrArg State.mode (afterWrite_regOpmode s d)

theorem afterWrite_regOpmode_lora :
    (s.afterWrite s.cfg.regOpmode d).lora = (track s.cfg s.mode s.lora d).lora :=
  congrArg State.lora (afterWrite_regOpmode s d)

theorem afterWrite_regOpmode_st :
    (s.afterWrite s.cfg.regOpmode d).st = (trackFaults (track s.cfg s.mode s.lora d) s.mode d s.errRecord).st :=
  congrArg State.st (afterWrite_regOpmode s d)

theorem afterWrite_regOpmode_errInfo :
    (s.afterWrite s.cfg.regOpmode d).errInfo =
      (trackFaults (track s.cfg s.mode s.lora d) s.mode d s.errRecord).info :=
  congrArg State.errInfo (afterWrite_regOpmode s d)

theorem afterWrite_busLog (a : Addr) : (s.afterWrite a d).busLog = s.busLog ++ [.frame true a d] := by
  obtain ⟨-, -, -, -, -, -, -, -, -, -, -, -, hlog⟩ := afterWrite_same s a d
  exact hlog

end

/-- Settles O28: the write frame ends in `afterWrite`, and the byte's code decides which of the tracker's two outcomes stands
there. -/
theorem trackerOnWrite : Obligations.TrackerOnWrite := by
  intro s d hu hready hwf
  refine ⟨_, exec_wr_undisturbed hu hready _ d, (afterWrite_fg ..).trans hready, fun hcode => ?undefined,
    fun m hcode => ?defined⟩
  all_goals
    rw [afterWrite_regOpmode_mode, afterWrite_regOpmode_lora, afterWrite_regOpmode_st, afterWrite_regOpmode_errInfo,
      trackFaults_st, trackFaults_info]
  case undefined =>
    rw [track_of_undefined ((modeOf_eq_none_iff hwf).mpr hcode)]
    simp [State.errRecord, modeInfo]
  case defined =>
    rw [track_of_defined ((modeOf_eq_some_iff hwf).mpr hcode)]
    simp [State.errRecord, seqInfo]

/-! ### The byte of `MODE` -/

/-- `MODE m` is one write frame, whose byte is formed in one more move (R140). -/
theorem goes_mode (c : Instr) (s : State) (m : Mode) :
    Goes c [.modeWrite m] s (s.afterWrite s.cfg.regOpmode (opmodeByte s.cfg s.lora m)) 6 :=
  .op (op := .modeWrite m) (new := [.writeFrame s.cfg.regOpmode (opmodeByte s.cfg s.lora m)]) (t := s) (v := s.fgVal) rfl
    (fun _ => rfl) id (.write _ _ (.nil _ _))

/-- `MODE m` on the normative chip completes in one execution (R140). -/
theorem exec_mode_undisturbed {s : State} (hu : s.Undisturbed) (hready : s.fg = .ready) (m : Mode) :
    exec (.mode m) s = .next (s.afterWrite s.cfg.regOpmode (opmodeByte s.cfg s.lora m)) :=
  congrArg Host.Outcome.next
    ((goes_mode (.mode m) s m).command hu hready ((afterWrite_fg ..).trans hready) (by decide))

/-- With the modulation bit at bit 7 the byte is the three fields side by side (R140). -/
theorem opmodeByte_of_loraBit_seven {c : Config} (h : c.loraBit = 7) (lora : Bool) (m : Mode) :
    opmodeByte c lora m = BitVec.ofBool lora ++ c.opmodeMid ++ codeOf c m := by
  have hfields : ∀ (b : Bool) (mid : BitVec 4) (code : BitVec 3),
      withBit ((BitVec.setWidth 8 mid &&& (((1 : Byte) <<< 4) - 1)) <<< 3 ||| (BitVec.setWidth 8 mid >>> 4) <<< 8 |||
        BitVec.setWidth 8 code) 7 b = BitVec.ofBool b ++ mid ++ code := by decide
  simp only [opmodeByte, midBits, h]
  exact hfields lora c.opmodeMid (codeOf c m)

theorem modeField_append (b : BitVec 1) (mid : BitVec 4) (code : BitVec 3) : modeField (b ++ mid ++ code) = code :=
  BitVec.extractLsb'_append_eq_right

theorem bit_seven_append (b : Bool) (mid : BitVec 4) (code : BitVec 3) : bit (BitVec.ofBool b ++ mid ++ code) 7 = b := by
  unfold bit
  rw [BitVec.getLsbD_append, BitVec.getLsbD_append]
  simp

/-- Settles O25: the byte carries a defined code and the tracked modulation bit, so the tracker takes the mode and can flag
nothing but the edge. -/
theorem modeCommand : Obligations.ModeCommand := by
  intro s m hu hready hwf hbit
  have hdefined : track s.cfg s.mode s.lora (BitVec.ofBool s.lora ++ s.cfg.opmodeMid ++ codeOf s.cfg m) =
      { mode := m, lora := s.lora, errMode := false, bitFault := false, edgeFault := !inEdges s.mode m, target := m } := by
    rw [track_of_defined ((modeOf_eq_some_iff hwf).mpr (modeField_append ..).symm), hbit, bit_seven_append]
    simp
  refine ⟨?run, ?newMode, ?sameLora, afterWrite_busLog .., ?faults⟩
  case run => rw [exec_mode_undisturbed hu hready, opmodeByte_of_loraBit_seven hbit]
  case newMode => rw [afterWrite_regOpmode_mode, hdefined]
  case sameLora => rw [afterWrite_regOpmode_lora, hdefined]
  case faults =>
    rw [afterWrite_regOpmode_st, trackFaults_st, hdefined]
    simp [State.errRecord]

end Sys2Proof.Machine
end

section
/-! The family of 44_power_scheduler.md: the interrupt enable (R184). -/

namespace Sys2Proof.Machine

/-- `IEN e` sets the enable in one move; the local keeps its value (R184). -/
theorem runDown_setIen {s : State} (hfree : s.Free) (e : Bool) (n : Nat) :
    runDown 0 (n + 1) { s with fg := .run (.ien e) [.setIen e] } = runDown 0 n { s with ien := e, fg := .ready } :=
  runDown_op (op := .setIen e) (hfree.withFg _) rfl Nat.two_pos rfl rfl

/-- Settles O34: the one move of `IEN` ends the command, with the foreground ready as it was. -/
theorem interruptEnable : Obligations.InterruptEnable := fun _ e hfree hready =>
  congrArg Host.Outcome.next (runCommand_eq_of_runDown (c := .ien e) hready hready (by decide) (runDown_setIen hfree e))

end Sys2Proof.Machine
end

section
/-! The family of 60_exceptions.md: taking an interrupt (R206, R207). -/

namespace Sys2Proof.Machine

/-- The four conditions under which the handler of a source can be entered (R206). -/
theorem accepts_iff {x : Source} {s : State} :
    accepts x s = true ↔ s.ien = true ∧ s.inHandler = .noHandler ∧ s.pending x = true ∧ s.cs = false := by
  simp [accepts, and_assoc]

/-- What entry to a handler writes: the enable and its saved copy, the handler, and the pending bit of its source (R207). -/
theorem enterHandler_eq (x : Source) (s : State) :
    enterHandler x s = { s with
      ien := false, savedIen := s.ien, inHandler := handlerOf x
      pcPending := s.pcPending && x != .pinChange, tickPending := s.tickPending && x != .tick
      conPending := s.conPending && x != .console } := by
  cases x <;> simp [enterHandler, clearPending]

/-- A step of a context starts no handler: the foreground's leaves the handler context alone. -/
theorem contextStep_noHandler {s : State} (h : s.inHandler = .noHandler) : (contextStep s).inHandler = .noHandler := by
  have hstep := contextStep_cases s
  generalize contextStep s = t at hstep ⊢
  cases hstep with
  | still => exact h
  | woke c k _ _ _ => exact h
  | ended c _ _ => exact h
  | fgOp c op k _ _ _ =>
    obtain ⟨hsame, -, -⟩ := op_fg op s.fgVal s
    exact hsame.trans h
  | handlerOp op k hrun _ => rw [h] at hrun; cases hrun
  | back _ => rfl
  | console _ => rfl

/-- No action of the host starts a handler; the RRC reset leaves none running (R231). -/
theorem hostAct_noHandler (op : HostOp) {s : State} (h : s.inHandler = .noHandler) :
    (hostAct op s).inHandler = .noHandler := by
  cases op with
  | reset => rfl
  | present w => simp only [hostAct]; split <;> exact h
  | takeRes => exact h
  | putDat b => exact h
  | readStatus => exact h
  | readErrInfo => exact h
  | readMode => exact h

/-- The only move that starts a handler is the acceptance of an interrupt whose conditions hold (R206). -/
theorem move_starts_handler {m : Move} {s : State} (h : s.inHandler = .noHandler)
    (hstart : (applyMove m s).inHandler ≠ .noHandler) : ∃ x, m = .enter x ∧ accepts x s = true := by
  cases m with
  | enter x =>
    refine ⟨x, rfl, by_contra fun hrefused => hstart ?_⟩
    simp only [applyMove, if_neg hrefused, h]
  | run => exact absurd (contextStep_noHandler h) hstart
  | host op => exact absurd (hostAct_noHandler op h) hstart
  | exchange => exact absurd (by simp only [applyMove]; split <;> simp [h]) hstart
  | detect => exact absurd (by simp [applyMove, h]) hstart
  | pin i b => exact absurd (by simp only [applyMove, pinMove]; split <;> exact h) hstart
  | rxDone p => exact absurd (by simp only [applyMove, rxDoneEvent]; split <;> simp [h]) hstart
  | txDone => exact absurd (by simp only [applyMove, txDoneEvent]; split <;> simp [h]) hstart
  | tick => exact absurd h hstart
  | con => exact absurd h hstart
  | settle => exact absurd h hstart

/-- Settles O42: a move that starts a handler is an accepted interrupt, so R206's conditions held, and what entry writes is the
statement's update with the enable saved as on. -/
theorem handlerEntry : Obligations.HandlerEntry := by
  intro s t hm hnone hstart
  obtain ⟨m, e, rfl, -, -⟩ := micro_cases hm
  obtain ⟨x, rfl, hacc⟩ := move_starts_handler (s := { s with env := e }) hnone hstart
  obtain ⟨hien, -, hpending, hcs⟩ := accepts_iff.mp hacc
  have henter : applyMove (.enter x) { s with env := e } = enterHandler x { s with env := e } := if_pos hacc
  refine ⟨x, hien, hpending, hcs, ?_⟩
  rw [henter, enterHandler_env, enterHandler_eq, hien]

end Sys2Proof.Machine
end

section
/-! The three encodings (30_encoding.md): decoding after encoding, encoding after decoding, and the illegal words and
entries (R80, R76). -/

namespace Sys2Proof

open Sys2Proof.Machine

/-! ### Decoding after encoding -/

/-- An assembled command word is decoded by its operation. -/
theorem decodeCmd_cmdWord {op : BitVec 4} (h : op ≠ 0) (a : Addr) (b c : Byte) :
    decodeCmd (cmdWord op a b c) = decodeOp (cmdWord op a b c) :=
  decodeCmd_of_clear (by rwa [cmdWord_op]) (cmdWord_z1 op a b c) (cmdWord_z2 op a b c)

/-- So is one with a 16-bit operand. -/
theorem decodeCmd_cmdWordW {op : BitVec 4} (h : op ≠ 0) (w : BitVec 16) :
    decodeCmd (cmdWordW op w) = decodeOp (cmdWordW op w) :=
  decodeCmd_of_clear (by rwa [cmdWordW_op]) (cmdWordW_z1 op w) (cmdWordW_z2 op w)

/-- Decoding the encoding of an instruction gives it back: the assembled fields are the fields read, and those the
instruction does not use are 0. -/
theorem decode_encode (i : Instr) : decode (encode i) = .ok i := by
  cases i with
  | rd a => simp [encode, decode, decodeCmd_cmdWord, decodeOp, requireZero]
  | wr a v => simp [encode, decode, decodeCmd_cmdWord, decodeOp, requireZero]
  | upd a k n => simp [encode, decode, decodeCmd_cmdWord, decodeOp]
  | brd n => simp [encode, decode, decodeCmd_cmdWord, decodeOp, requireZero]
  | bwr n => simp [encode, decode, decodeCmd_cmdWord, decodeOp, requireZero]
  | cfg p => simp [encode, decode, decodeCmd_cmdWordW, decodeOp, requireZero]
  | rstp => decide
  | verrd => decide
  | initReceiver => decide
  | initTransmitter => decide
  | mode m => cases m <;> decide
  | dump a => simp [encode, decode, decodeCmd_cmdWord, decodeOp, requireZero]
  | txwait => decide
  | idle => decide
  | pause c => simp [encode, decode, decodeCmd_cmdWordW, decodeOp, requireZero]
  | ien e => cases e <;> decide
  | rdf a => simp [encode, decode, decodeFrame_frameWord]
  | wrf a d => simp [encode, decode, decodeFrame_frameWord]
  | ent a v => exact decodeEntry_ent a v
  | endTable => decide

/-- The sentinel is told by its first byte alone (R75). -/
theorem decodeEntry_sentinel (x : Byte) : decodeEntry (entryWord sentinelByte x) = .ok .endTable := by
  rw [decodeEntry_entryWord, if_pos rfl]

/-- Settles O1: every constructor's operands come back from the fields they were put in, and the two ignored bytes are read by
no field. -/
theorem decodeOfEncode : Obligations.DecodeOfEncode :=
  ⟨decode_encode, decodeFrame_frameWord false, decodeEntry_sentinel⟩

/-! ### Encoding after decoding -/

/-- Bit 15 and the seven bits below it are the address byte (R71). -/
theorem addrByte_of_half (w : Half) : addrByte (w.getLsbD 15) (w.extractLsb' 8 7) = w.extractLsb' 8 8 := by
  apply Laws.bits_eq
  simp [Fin.forall_fin_succ, addrByte_getLsbD, -BitVec.getLsbD_eq_getElem]

/-- A 16-bit word is its address byte and its second byte (R70, R74). -/
theorem half_eta (w : Half) : entryWord (addrByte (w.getLsbD 15) (w.extractLsb' 8 7)) (w.extractLsb' 0 8) = w := by
  rw [addrByte_of_half]
  exact append_extractLsb' (m := 8) (n := 8) w

/-- A legal entry other than the sentinel is the encoding of what it decodes to (R74). -/
theorem encode_of_decodeEntry {w : Half} {i : Instr} (h : decodeEntry w = .ok i) (hi : i ≠ .endTable) :
    encode i = .entry w := by
  unfold decodeEntry at h
  split_ifs at h with hsentinel hbit
  · cases h
    exact absurd rfl hi
  · cases h
    have heta := half_eta w
    rw [Bool.eq_false_iff.mpr hbit] at heta
    exact congrArg Encoded.entry heta

/-- A write frame is the encoding of what it decodes to (R73). -/
theorem encode_decodeFrame {w : Half} (h : w.getLsbD 15 = true) : encode (decodeFrame w) = .frame w := by
  have heta := half_eta w
  rw [h] at heta
  rw [decodeFrame, if_pos h]
  exact congrArg Encoded.frame heta

/-- Settles O2: the decoder reads every bit of a legal word but those it requires to be 0. -/
theorem legalWordEncodesBack : Obligations.LegalWordEncodesBack :=
  ⟨fun _ _ => encode_of_decodeCmd, fun _ _ => encode_of_decodeEntry, fun _ => encode_decodeFrame⟩

/-- Settles O3: eleven words, each decoded by evaluation. -/
theorem specWordsDecode : Obligations.SpecWordsDecode := by
  refine ⟨?rd, ?wr, ?upd, ?cfg, ?init, ?mode, ?ien, ?rdf, ?wrf, ?ent, ?sentinel⟩ <;> decide

/-- Settles O7: the entry at an address is the byte there and the byte after it, and the decoder answers by the first. -/
theorem tableEntryAtAddress : Obligations.TableEntryAtAddress := by
  intro tab p
  have hsplit : Memory.tabEntry tab p = entryWord (Memory.tabByte tab p) (Memory.tabByte tab (p + 1)) := rfl
  refine ⟨fun h => ?sentinel, fun a h => ?entry, fun hhigh hne => decodeEntry_illegal hhigh hne⟩
  case sentinel => rw [hsplit, h]; exact decodeEntry_sentinel _
  case entry => rw [hsplit, h]; exact decodeEntry_ent a _

/-! ### Illegal command words -/

/-- Masking a word below bit 23 masks its three operand fields (R78). -/
theorem and_cmdWord (w : Word) (a : Addr) (b c : Byte) :
    w &&& cmdWord 0 a b c = cmdWord 0 (w.fieldA &&& a) (w.fieldB &&& b) (w.fieldC &&& c) := by
  apply Laws.bits_eq
  simp [Fin.forall_fin_succ, cmdWord_getLsbD, Word.fieldA, Word.fieldB, Word.fieldC, -BitVec.getLsbD_eq_getElem]

/-- An assembled word without an operation is 0 exactly when its operands are. -/
theorem cmdWord_zero_eq_zero {a : Addr} {b c : Byte} : cmdWord 0 a b c = 0 ↔ a = 0 ∧ b = 0 ∧ c = 0 := by
  constructor
  · intro h
    refine ⟨?_, ?_, ?_⟩
    · rw [← cmdWord_fieldA 0 a b c, h]; rfl
    · rw [← cmdWord_fieldB 0 a b c, h]; rfl
    · rw [← cmdWord_fieldC 0 a b c, h]; rfl
  · rintro ⟨rfl, rfl, rfl⟩
    decide

/-- The bits under a mask below bit 23 are clear exactly when each operand is clear under its part of the mask. -/
theorem and_cmdWord_eq_zero {w : Word} {a : Addr} {b c : Byte} :
    w &&& cmdWord 0 a b c = 0 ↔ w.fieldA &&& a = 0 ∧ w.fieldB &&& b = 0 ∧ w.fieldC &&& c = 0 := by
  rw [and_cmdWord, cmdWord_zero_eq_zero]

/-- The operand `W` is 0 exactly when `B` and `C` are (R78). -/
theorem fieldW_eq_zero {w : Word} : w.fieldW = 0 ↔ w.fieldB = 0 ∧ w.fieldC = 0 := by
  have happend : entryWord w.fieldB w.fieldC = w.fieldW := by
    apply Laws.bits_eq
    simp [Fin.forall_fin_succ, entryWord_getLsbD, Word.fieldB, Word.fieldC, Word.fieldW, -BitVec.getLsbD_eq_getElem]
  rw [← happend]
  constructor
  · intro h
    exact ⟨(entryWord_high _ w.fieldC).symm.trans (congrArg (BitVec.extractLsb' 8 8) h),
      (entryWord_low w.fieldB _).symm.trans (congrArg (BitVec.extractLsb' 0 8) h)⟩
  · rintro ⟨hB, hC⟩
    rw [hB, hC]
    rfl

/-- An operand under a full mask. -/
theorem and_full {n : Nat} {x m : BitVec n} (h : m = .allOnes n) : x &&& m = x := by rw [h, BitVec.and_allOnes]

/-- The upper bits of an operand byte, by mask and by place. -/
theorem and_high_eq_zero : ∀ x : Byte,
    (x &&& 0xFC = 0 ↔ x.extractLsb' 2 6 = 0) ∧ (x &&& 0xFE = 0 ↔ x.extractLsb' 1 7 = 0) := by
  decide

/-- `INIT` is rejected for an unused bit or for a variant that is none (R80). -/
theorem decodeInit_rejects {w : Word} : (∃ e, decodeInit w = .error e) ↔
    ¬(w.fieldA = 0 ∧ w.fieldB = 0 ∧ w.fieldC.extractLsb' 2 6 = 0) ∨
    (w.fieldC.extractLsb' 0 2 = 0 ∨ w.fieldC.extractLsb' 0 2 = 3) := by
  have hvariant : ∀ v : BitVec 2, (v = 0 ∨ v = 3) ↔ ¬(v = 1 ∨ v = 2) := by decide
  rw [hvariant]
  unfold decodeInit
  split_ifs with hzero hreceiver htransmitter
  · simp only [hzero, hreceiver]; simp
  · simp only [hzero, htransmitter]; simp
  · simp only [hreceiver, htransmitter]; simp
  · simp only [hzero]; simp

/-- The bits an operation does not use, operand by operand (the operand column of R78). -/
theorem unusedBits_eq :
    (∀ op ∈ [1, 11], unusedBits op = cmdWord 0 0 0xFF 0xFF) ∧ unusedBits 2 = cmdWord 0 0 0 0xFF ∧
    unusedBits 3 = 0 ∧ (∀ op ∈ [4, 5], unusedBits op = cmdWord 0 0x7F 0xFF 0) ∧
    (∀ op ∈ [6, 14], unusedBits op = cmdWord 0 0x7F 0 0) ∧
    (∀ op ∈ [7, 8, 12, 13], unusedBits op = cmdWord 0 0x7F 0xFF 0xFF) ∧
    (∀ op ∈ [9, 10], unusedBits op = cmdWord 0 0x7F 0xFF 0xFC) ∧ unusedBits 15 = cmdWord 0 0x7F 0xFF 0xFE := by
  decide

/-- Which operands are 0 when the bits an operation does not use are. -/
theorem and_unusedBits (w : Word) :
    (∀ op ∈ [1, 11], w &&& unusedBits op = 0 ↔ w.fieldB = 0 ∧ w.fieldC = 0) ∧
    (w &&& unusedBits 2 = 0 ↔ w.fieldC = 0) ∧ w &&& unusedBits 3 = 0 ∧
    (∀ op ∈ [4, 5], w &&& unusedBits op = 0 ↔ w.fieldA = 0 ∧ w.fieldB = 0) ∧
    (∀ op ∈ [6, 14], w &&& unusedBits op = 0 ↔ w.fieldA = 0) ∧
    (∀ op ∈ [7, 8, 12, 13], w &&& unusedBits op = 0 ↔ w.fieldA = 0 ∧ w.fieldW = 0) ∧
    (∀ op ∈ [9, 10], w &&& unusedBits op = 0 ↔ w.fieldA = 0 ∧ w.fieldB = 0 ∧ w.fieldC.extractLsb' 2 6 = 0) ∧
    (w &&& unusedBits 15 = 0 ↔ w.fieldA = 0 ∧ w.fieldB = 0 ∧ w.fieldC.extractLsb' 1 7 = 0) := by
  obtain ⟨uBC, uC, uNone, uAB, uA, uABC, uVar, uBit⟩ := unusedBits_eq
  have zero : ∀ {n : Nat} (x : BitVec n), x &&& 0 = 0 := fun x => BitVec.and_zero
  have hA : w.fieldA &&& 0x7F = w.fieldA := and_full rfl
  have hB : w.fieldB &&& 0xFF = w.fieldB := and_full rfl
  have hC : w.fieldC &&& 0xFF = w.fieldC := and_full rfl
  obtain ⟨hFC, hFE⟩ := and_high_eq_zero w.fieldC
  refine ⟨fun op h => ?_, ?_, ?_, fun op h => ?_, fun op h => ?_, fun op h => ?_, fun op h => ?_, ?_⟩
  · rw [uBC op h, and_cmdWord_eq_zero, zero, hB, hC, eq_self, true_and]
  · rw [uC, and_cmdWord_eq_zero, zero, zero, hC, eq_self, eq_self, true_and, true_and]
  · rw [uNone, zero]
  · rw [uAB op h, and_cmdWord_eq_zero, hA, hB, zero, eq_self, and_true]
  · simp only [uA op h, and_cmdWord_eq_zero, hA, zero, and_true]
  · rw [uABC op h, and_cmdWord_eq_zero, hA, hB, hC, fieldW_eq_zero]
  · rw [uVar op h, and_cmdWord_eq_zero, hA, hB, hFC]
  · rw [uBit, and_cmdWord_eq_zero, hA, hB, hFE]

/-- A command with unused fields, none of them `INIT`, is rejected exactly when they are not 0 (R80). -/
theorem requireZero_rejects {p q : Prop} [Decidable p] {i : Instr} {u : Word} (hu : u = 0 ↔ p) (hq : ¬q) :
    (∃ e, requireZero p i = .error e) ↔ u ≠ 0 ∨ q := by
  by_cases h : p <;> simp only [requireZero, h, hu, hq, ne_eq] <;> simp

/-- A word with clear `z1` and `z2` is rejected for an unused bit, or as an `INIT` of no variant (R80). -/
theorem decodeOp_rejects {w : Word} (hop : w.op ≠ 0) : (∃ e, decodeOp w = .error e) ↔
    w &&& unusedBits w.op ≠ 0 ∨ (w.op = 9 ∧ (w.fieldC.extractLsb' 0 2 = 0 ∨ w.fieldC.extractLsb' 0 2 = 3)) := by
  have hops : ∀ x : BitVec 4, x ≠ 0 → x = 1 ∨ x = 2 ∨ x = 3 ∨ x = 4 ∨ x = 5 ∨ x = 6 ∨ x = 7 ∨ x = 8 ∨ x = 9 ∨
      x = 10 ∨ x = 11 ∨ x = 12 ∨ x = 13 ∨ x = 14 ∨ x = 15 := by decide
  obtain ⟨zBC, zC, zNone, zAB, zA, zAW, zVar, zBit⟩ := and_unusedBits w
  obtain e | e | e | e | e | e | e | e | e | e | e | e | e | e | e := hops w.op hop <;> rw [decodeOp, e]
  · exact requireZero_rejects (zBC 1 (by decide)) (by simp)
  · exact requireZero_rejects zC (by simp)
  · simp only [zNone]; simp
  · exact requireZero_rejects (zAB 4 (by decide)) (by simp)
  · exact requireZero_rejects (zAB 5 (by decide)) (by simp)
  · exact requireZero_rejects (zA 6 (by decide)) (by simp)
  · exact requireZero_rejects (zAW 7 (by decide)) (by simp)
  · exact requireZero_rejects (zAW 8 (by decide)) (by simp)
  · rw [ne_eq, zVar 9 (by decide), eq_self, true_and]
    exact decodeInit_rejects
  · exact requireZero_rejects (zVar 10 (by decide)) (by simp)
  · exact requireZero_rejects ((zBC 11 (by decide)).trans fieldW_eq_zero.symm) (by simp)
  · exact requireZero_rejects (zAW 12 (by decide)) (by simp)
  · exact requireZero_rejects (zAW 13 (by decide)) (by simp)
  · exact requireZero_rejects (zA 14 (by decide)) (by simp)
  · exact requireZero_rejects zBit (by simp)

/-- The decoder rejects exactly the words R80 calls illegal. -/
theorem decodeCmd_rejects {w : Word} : (∃ e, decodeCmd w = .error e) ↔ IllegalWord w := by
  unfold decodeCmd IllegalWord
  split_ifs with hop hz1 hz2
  · exact iff_of_true ⟨_, rfl⟩ (.inl hop)
  · exact iff_of_true ⟨_, rfl⟩ (.inr (.inl hz1))
  · exact iff_of_true ⟨_, rfl⟩ (.inr (.inr (.inl hz2)))
  · simp only [decodeOp_rejects hop, hop, hz1, hz2, false_or]

end Sys2Proof

namespace Sys2Proof.Machine

/-! ### What a step fetches -/

/-- At the foreground's turn what is fetched is what waits for it. -/
theorem fetch_of_due {s : State} (h : s.fgDue = true) : fetch s = fetchNow s := if_pos h

/-- Outside a handler a ready machine fetches the word at its port (R79). -/
theorem fetchNow_word {s : State} {w : Word} (hh : s.inHandler = .noHandler) (hg : s.fg = .ready)
    (hp : s.cmdPort = some w) : fetchNow s = fetchCommand w s := by
  simp only [fetchNow, hh, hg, hp]

/-- An instruction that was fetched is executed. -/
theorem step_of_instr {s s1 : State} {i : Instr} (hwf : s.cfg.wf = true) (h : fetch s = .instr i s1) :
    step s = exec i s1 := by
  simp only [step, hwf, h, if_true]

/-- A control state set to what it is. -/
theorem State.withFg_self {s : State} {g : Fg} (h : s.fg = g) : { s with fg := g } = s := by
  subst h
  rfl

/-- Settles O5: the decoder's rejections are R80's, field by field; and a rejected word at the port is fetched as illegal, so
the step is its fault. -/
theorem illegalCommandWord : Obligations.IllegalCommandWord := by
  refine ⟨fun w => decodeCmd_rejects, fun s w hwf hh hg hp hdue hillegal => ?_⟩
  obtain ⟨e, he⟩ := decodeCmd_rejects.mpr hillegal
  have hfetch : fetch s = .illegalWord w { s.takeTurn with cmdPort := none } := by
    rw [fetch_of_due hdue, fetchNow_word hh hg hp]
    simp only [fetchCommand, he]
  simp only [step, hwf, hfetch, if_true]
  rw [takeTurn_eq]
  exact congrArg Host.Outcome.next (State.withFg_self (s := { s with
    cmdPort := none, env := s.takeTurn.env
    st := { s.st with errIllegal := true }
    errInfo := if s.st.noFault then w.extractLsb' 16 16 else s.errInfo }) hg)

/-- Settles O35: the word at the port is fetched and executed, with the port free; another configuration is refused before
anything is fetched. -/
theorem stepRunsCommand : Obligations.StepRunsCommand := by
  refine ⟨fun s w i hwf hh hg hp hdue hi => step_of_instr hwf ?_, fun s hwf => ?_⟩
  · rw [fetch_of_due hdue, fetchNow_word hh hg hp]
    simp only [fetchCommand, hi]
  · simp only [step, hwf, Bool.false_eq_true, if_false]

/-- Settles O36: in a command what is fetched is decided by its next micro-operation. -/
theorem stepRunsEntryAndFrame : Obligations.StepRunsEntryAndFrame := by
  intro s c k hwf hh hdue
  refine ⟨fun hg => ⟨fun i hi => step_of_instr hwf ?entry, fun e he => ?illegal⟩,
    fun a hg => step_of_instr hwf ?read, fun a d hg => step_of_instr hwf ?write⟩
  case entry =>
    rw [fetch_of_due hdue]
    simp only [fetchNow, hh, hg, fetchEntry, hi]
  case illegal =>
    have hfetch : fetch s = .illegalEntry s.takeTurn := by
      rw [fetch_of_due hdue]
      simp only [fetchNow, hh, hg, fetchEntry, he]
    simp only [step, hwf, hfetch, if_true]
    rw [takeTurn_eq]
    rfl
  case read =>
    rw [fetch_of_due hdue]
    simp only [fetchNow, hh, hg, decodeFrame_frameWord, Bool.false_eq_true, if_false]
  case write =>
    rw [fetch_of_due hdue]
    simp only [fetchNow, hh, hg, decodeFrame_frameWord, if_true]

/-- A micro-operation at which a command does not fetch. -/
def MicroOp.fetches : MicroOp → Bool
  | .walk => true
  | .readFrame _ => true
  | .writeFrame _ _ => true
  | _ => false

theorem fetches_eq_false_iff {op : MicroOp} :
    op.fetches = false ↔ op ≠ .walk ∧ (∀ a, op ≠ .readFrame a) ∧ (∀ a d, op ≠ .writeFrame a d) := by
  cases op <;> simp [MicroOp.fetches]

/-- What a command has to fetch, by its next micro-operation. -/
theorem fetchNow_run_eq_nothing {s : State} {c : Instr} {k : List MicroOp} (hh : s.inHandler = .noHandler)
    (hg : s.fg = .run c k) : fetchNow s = .nothing ↔ ∀ op ∈ k.head?, op.fetches = false := by
  cases k with
  | nil => simp [fetchNow, hh, hg]
  | cons op k =>
    have hentry : fetchEntry s ≠ .nothing := by unfold fetchEntry; split <;> simp
    cases op with
    | walk => simp [fetchNow, hh, hg, MicroOp.fetches, hentry]
    | readFrame a => simp [fetchNow, hh, hg, MicroOp.fetches]
    | writeFrame a d => simp [fetchNow, hh, hg, MicroOp.fetches]
    | _ => simp [fetchNow, hh, hg, MicroOp.fetches]

/-- There is nothing to fetch in a handler, without a word, asleep, and inside a command between its fetches. -/
theorem fetchNow_eq_nothing {s : State} : fetchNow s = .nothing ↔
    s.inHandler ≠ .noHandler ∨ (s.fg = .ready ∧ s.cmdPort = none) ∨ s.asleep = true ∨
    ∃ c k, s.fg = .run c k ∧ ∀ op ∈ k.head?, op.fetches = false := by
  by_cases hh : s.inHandler = .noHandler
  · cases hg : s.fg with
    | ready =>
      cases hp : s.cmdPort with
      | none => simp [fetchNow, hh, hg, hp]
      | some w =>
        have hword : fetchCommand w s ≠ .nothing := by unfold fetchCommand; split <;> simp
        simp [fetchNow_word hh hg hp, hword, hh, State.asleep, hg]
    | asleep c k => simp [fetchNow, hh, hg, State.asleep]
    | run c k => simp [fetchNow_run_eq_nothing hh hg, hh, State.asleep, hg]
  · refine iff_of_true ?_ (.inl hh)
    cases h : s.inHandler <;> simp_all [fetchNow]

/-- Settles O37: what there is to fetch, by the turn, the handler and the control state; a scheduled move of another agent is
the next step. -/
theorem stepMovesOtherwise : Obligations.StepMovesOtherwise := by
  refine ⟨fun s hwf hf => ?move, fun s => ?nothing, fun s m rest hwf he hr hs => step_scheduled hwf he hr hs,
    fun s x rest hwf he hien hh hx hc => ?enter⟩
  case move =>
    have hstep : step s = .next (advance s) := by simp only [step, hwf, hf, if_true]
    exact ⟨hstep, fun hm => by rw [hstep, advance, hm]; rfl⟩
  case nothing =>
    simp only [← fetches_eq_false_iff, ← fetchNow_eq_nothing]
    cases hdue : s.fgDue <;> simp [fetch, hdue]
  case enter =>
    rw [step_scheduled hwf he (by simp) (by simp)]
    exact congrArg Host.Outcome.next (if_pos (accepts_iff.mpr ⟨hien, hh, hx, hc⟩))

end Sys2Proof.Machine
end

section
/-! Invariants of every step (10_state.md, 20_memory.md, 40_register_access.md, 60_exceptions.md): what each move keeps, a step
keeps, whatever it fetches and runs. -/

namespace Sys2Proof.Machine

/-! ### The reset state -/

/-- Settles O9: the fields the reset writes are written out, and the status is that of a ready machine with no bit set. -/
theorem resetFromAnyState : Obligations.ResetFromAnyState := by
  intro s
  have hstatus : (rrcReset s).status = 0x00 := status_of_ready_of_clear rfl rfl
  exact ⟨rfl, rfl, rfl, rfl, rfl, rfl, rfl,
    rfl, rfl, rfl, hstatus, rfl, rfl,
    rfl, rfl, rfl, rfl, rfl,
    rfl, rfl, rfl, rfl, rfl,
    rfl, rfl, rfl, rfl,
    rfl, rfl, rfl⟩

/-- Settles O55: the reset state has empty memories, no context inside a frame, one pin, and the default configuration. -/
theorem resetMeetsInvariants : Obligations.ResetMeetsInvariants := by
  refine ⟨⟨rfl, rfl, rfl⟩, ?owner, ?pin, ⟨rfl, rfl⟩, by decide +kernel⟩
  case owner => constructor <;> decide
  case pin =>
    intro h
    cases h

/-! ### Memories -/

/-- Two canonical memories that read alike are equal: the first address listed is the first that does not read as blank. -/
theorem Memory.eq_of_read_eq {sp : Space} {m m' : Memory} {lo : Nat} (h : Memory.wfFrom sp lo m = true)
    (h' : Memory.wfFrom sp lo m' = true) (hr : ∀ a, Memory.read sp m a = Memory.read sp m' a) : m = m' := by
  induction m generalizing lo m' with
  | nil =>
    cases m' with
    | nil => rfl
    | cons c m' =>
      obtain ⟨k, v⟩ := c
      simp only [Memory.wfFrom, Bool.and_eq_true, decide_eq_true_eq] at h'
      obtain ⟨⟨-, hv⟩, -⟩ := h'
      have hk := hr k
      rw [Memory.read, Memory.read, if_pos rfl] at hk
      exact absurd hk.symm hv
  | cons c m ih =>
    obtain ⟨k, v⟩ := c
    simp only [Memory.wfFrom, Bool.and_eq_true, decide_eq_true_eq] at h
    obtain ⟨⟨⟨hlo, -⟩, hv⟩, hm⟩ := h
    cases m' with
    | nil =>
      have hk := hr k
      rw [Memory.read, Memory.read, if_pos rfl] at hk
      exact absurd hk hv
    | cons c' m' =>
      obtain ⟨k', v'⟩ := c'
      simp only [Memory.wfFrom, Bool.and_eq_true, decide_eq_true_eq] at h'
      obtain ⟨⟨⟨hlo', -⟩, hv'⟩, hm'⟩ := h'
      have hkk : k = k' := by
        by_contra hne
        rcases Nat.lt_or_gt_of_ne hne with hlt | hlt
        · have hk := hr k
          rw [Memory.read, if_pos rfl, Memory.read, if_neg (by omega), Memory.read_below hm' (by omega)] at hk
          exact hv hk
        · have hk := hr k'
          rw [Memory.read, if_neg (by omega), Memory.read_below hm (by omega), Memory.read, if_pos rfl] at hk
          exact hv' hk.symm
      subst hkk
      have hvv : v = v' := by simpa [Memory.read] using hr k
      subst hvv
      have htail : m = m' := ih hm hm' fun a => by
        by_cases ha : a ≤ k
        · rw [Memory.read_below hm (by omega), Memory.read_below hm' (by omega)]
        · have hra := hr a
          rwa [Memory.read, Memory.read, if_neg (by omega), if_neg (by omega)] at hra
      rw [htail]

/-- Settles O51: the canonical form is kept by a write and read back from it, and lists nothing that reads as blank. -/
theorem byteWrittenReadsBack : Obligations.ByteWrittenReadsBack := fun _ _ h =>
  ⟨fun _ _ _ ha => ⟨Memory.wf_write h ha, Memory.read_write h⟩, fun _ h' hr => Memory.eq_of_read_eq h h' hr⟩

/-! ### Step invariants -/

/-- A property of configurations that every move keeps of the state before it, under any schedule, is kept by the next move of
the machine; and the configuration record stays. -/
theorem micro_keeps {P : State → Prop} (hm : ∀ s m, s.cfg.wf = true → P s → P (applyMove m s))
    (he : ∀ s e, P s → P { s with env := e }) (s t : State) (hw : s.cfg.wf = true) (h : P s) (hst : micro s = some t) :
    P t ∧ t.cfg = s.cfg := by
  obtain ⟨m, e, rfl, -, -⟩ := micro_cases hst
  exact ⟨hm { s with env := e } m hw (he s e h), (applyMove_cfg m _).1⟩

/-- Settles O52: every move keeps the three memories canonical, and no fetch or fault touches one. -/
theorem stepKeepsMemories : Obligations.StepKeepsMemories := fun _ _ h hs =>
  step_keeps (P := State.MemCanonical)
    (micro_keeps (fun _ m hw h => applyMove_canonical hw h m) (fun _ _ ⟨h1, h2, h3⟩ => ⟨h1, h2, h3⟩))
    (fun _ _ ⟨h1, h2, h3⟩ => ⟨h1, h2, h3⟩) (fun _ ⟨h1, h2, h3⟩ => ⟨h1, h2, h3⟩)
    (fun _ _ _ ⟨h1, h2, h3⟩ => ⟨h1, h2, h3⟩) (fun _ _ _ ⟨h1, h2, h3⟩ => ⟨h1, h2, h3⟩) h hs

/-- Every step keeps the pin of the reference target at its flag (R58). -/
theorem step_keeps_dio {s t : State} (h : s.DioFollows) (hs : step s = .next t) : t.DioFollows :=
  step_keeps (P := State.DioFollows) (micro_keeps (fun _ m hw h => applyMove_dio hw h m) (fun _ _ h => h))
    (fun _ _ h => h) (fun _ h => h) (fun _ _ _ h => h) (fun _ _ _ h => h) h hs

/-- Every step keeps the number of pins and of bits of the latch (R3, R25). -/
theorem step_keeps_pinsSized {s t : State} (h : s.PinsSized) (hs : step s = .next t) : t.PinsSized :=
  step_keeps (P := State.PinsSized) (micro_keeps (fun s m _ h => h.keep (size_move m s)) (fun _ _ h => h))
    (fun _ _ h => h) (fun _ h => h) (fun _ _ _ h => h) (fun _ _ _ h => h) h hs

/-- Settles O54: both hold of a step because they hold of every move. -/
theorem stepKeepsPin : Obligations.StepKeepsPin := fun _ _ hs =>
  ⟨fun h => step_keeps_dio h hs, fun h => step_keeps_pinsSized h hs⟩

/-- Settles O38: no move writes the table space or the configuration record (R43). -/
theorem tableSpaceConstant : Obligations.TableSpaceConstant := by
  intro s t hs
  refine step_keeps (P := fun u => u.tab = s.tab ∧ u.cfg = s.cfg)
    (micro_keeps (fun u m _ h => ?move) (fun _ _ h => h))
    (fun _ _ h => h) (fun _ h => h) (fun _ _ _ h => h) (fun _ _ _ h => h) ⟨rfl, rfl⟩ hs
  obtain ⟨hcfg, htab⟩ := applyMove_cfg m u
  obtain ⟨h1, h2⟩ := h
  exact ⟨htab.trans h1, hcfg.trans h2⟩

/-- A schedule without the RRC reset has none in a part of it. -/
theorem noReset_of_subset {s : State} {e : List Move} (he : e ⊆ s.env) (h : s.noReset = true) :
    State.noReset { s with env := e } = true := by
  rw [State.noReset, List.all_eq_true] at h ⊢
  exact fun m hm => h m (he hm)

/-- Settles O40: a fault record only grows under every move but the RRC reset, and under the two faults of a fetch. -/
theorem faultsAreSticky : Obligations.FaultsAreSticky := by
  intro s t hno hs
  have hsticky : t.noReset = true ∧ Sticky s.errRecord t.errRecord := by
    refine step_keeps (P := fun u => u.noReset = true ∧ Sticky s.errRecord u.errRecord) (fun u v _ ⟨h1, h2⟩ hm => ?move)
      (fun _ _ h => h) (fun _ h => h) (fun f i u ⟨h1, h2⟩ => ⟨h1, h2.trans (sticky_flag f i u.errRecord)⟩)
      (fun u e he ⟨h1, h2⟩ => ⟨noReset_of_subset he h1, h2⟩) ⟨hno, Sticky.refl _⟩ hs
    have hkeep := noReset_keep h1 hm
    obtain ⟨m, e, hm', rfl, -, -⟩ := noReset_move h1 hm
    exact ⟨⟨hkeep, h2.trans (sticky_move m { u with env := e } hm')⟩, (applyMove_cfg m _).1⟩
  obtain ⟨-, hbits, hver, hinfo⟩ := hsticky
  exact ⟨hbits, hver, hinfo⟩

/-- Settles O39: between two states of a step the log grew, and what changed mode or modulation bit is in it. -/
theorem modeChangesAreLogged : Obligations.ModeChangesAreLogged := by
  intro s t hno hs
  have hlogged : t.noReset = true ∧ ModeLogged s t := by
    refine step_keeps (P := fun u => u.noReset = true ∧ ModeLogged s u) (fun u v _ ⟨h1, h2⟩ hm => ?move)
      (fun _ _ h => h) (fun _ h => h) (fun _ _ _ h => h)
      (fun u e he ⟨h1, h2⟩ => ⟨noReset_of_subset he h1, h2⟩) ⟨hno, .of_same rfl rfl rfl rfl⟩ hs
    have hkeep := noReset_keep h1 hm
    obtain ⟨m, e, hm', rfl, -, -⟩ := noReset_move h1 hm
    exact ⟨⟨hkeep, h2.trans (mode_move m { u with env := e } hm')⟩, (applyMove_cfg m _).1⟩
  obtain ⟨-, -, l, hlog, hsame⟩ := hlogged
  exact ⟨l, hlog, fun h => hsame (List.all_eq_true.mpr fun e he => by rw [h e he]; rfl)⟩

/-! ### The single bus owner -/

/-- The foreground set to go on outside every frame, while no frame is open and no handler runs, keeps the bus owner. -/
theorem owned_withRun {s : State} (h : s.BusOwned) (c : Instr) {k : List MicroOp} (hh : s.inHandler = .noHandler)
    (hc : s.cs = false) (hk : outsideFrame k = true) : State.BusOwned { s with fg := .run c k } := by
  obtain ⟨hhead, htail⟩ := outside_tail hk
  have hrunning : State.running { s with fg := .run c k } = k := by simp only [State.running, hh]
  refine ⟨?csRule, ?tails, htail, ?fgStopped, h.owed, h.masked, h.handlerSet⟩
  case csRule => rw [hrunning, hhead, hc]
  case tails => rw [hrunning]; exact htail
  case fgStopped => exact fun _ => hhead

/-- With chip-select inactive the whole command of the foreground is outside frames. -/
theorem owned_fgOps_outside {s : State} (h : s.BusOwned) (hc : s.cs = false) : outsideFrame s.fgOps = true := by
  have hhead := owned_fg_outside h hc
  have htail := h.fgTail
  generalize s.fgOps = k at hhead htail ⊢
  cases k with
  | nil => rfl
  | cons op k => simpa [outsideFrame, headInFrame] using And.intro hhead htail

/-- A foreground that is about to fetch has no frame open. -/
theorem owned_cs_of_fg {s : State} (h : s.BusOwned) (hh : s.inHandler = .noHandler)
    (hg : headInFrame s.fgOps = false) : s.cs = false := by
  rw [h.csRule]
  unfold State.fgOps at hg
  cases hfg : s.fg <;> simp_all [State.running, headInFrame]

/-- A fetch keeps the bus owner, and happens outside every frame. -/
theorem owned_fetched {s s1 : State} (h : s.BusOwned) (hh : s.inHandler = .noHandler) (hf : FetchedFrom s s1) :
    s1.BusOwned ∧ s1.inHandler = .noHandler ∧ s1.cs = false := by
  cases hf with
  | entry c k e hg _ =>
    have hc : s.cs = false := owned_cs_of_fg h hh (by simp [State.fgOps, hg, headInFrame, MicroOp.inFrame])
    exact ⟨owned_congr h rfl rfl rfl rfl rfl rfl rfl, hh, hc⟩
  | port e hg _ =>
    have hc : s.cs = false := owned_cs_of_fg h hh (by simp [State.fgOps, hg, headInFrame])
    exact ⟨owned_congr h rfl rfl rfl rfl rfl rfl rfl, hh, hc⟩
  | frame c op k hg hop =>
    have hc : s.cs = false := owned_cs_of_fg h hh (by simp [State.fgOps, hg, headInFrame, hop])
    have htail := h.fgTail
    simp only [State.fgOps, hg, List.tail_cons] at htail
    exact ⟨owned_withRun h c hh hc htail, hh, hc⟩

/-- An instruction enters a foreground with no frame open, and keeps the bus owner. -/
theorem owned_entered {s : State} {g : Fg} (h : s.BusOwned) (hh : s.inHandler = .noHandler) (hc : s.cs = false)
    (hg : Entered s g) : State.BusOwned { s with fg := g } := by
  have hresume : ∀ c k, outsideFrame k = true → State.BusOwned { s with fg := Fg.resume c k } := fun c k hk =>
    have hout := outside_tail hk
    owned_resume h c k hh (hc.trans hout.1.symm) hout.2
  have hops := owned_fgOps_outside h hc
  cases hg with
  | same => exact h
  | fresh c ops _ ho => exact hresume c ops ho
  | inner c ops k hk ho =>
    simp only [State.fgOps, hk] at hops
    exact hresume c _ (outside_append ho hops)
  | walked c k hk =>
    simp only [State.fgOps, hk] at hops
    exact hresume c k hops

/-- A fault that ends a command with no frame open keeps the bus owner (R215). -/
theorem owned_raise {s : State} (h : s.BusOwned) (hh : s.inHandler = .noHandler) (hc : s.cs = false) (f : FaultBit)
    (i : BitVec 16) : (raiseFault f i s).BusOwned :=
  owned_resume (s := flagFault f i s) (owned_congr h rfl rfl rfl rfl rfl rfl rfl) .idle [] hh hc rfl

/-- Settles O53: every move keeps the bus owner, and a fetch, an instruction's entry and a fault happen with no frame open. -/
theorem stepKeepsBusOwner : Obligations.StepKeepsBusOwner := by
  intro s t h hs
  obtain ⟨-, hcases⟩ := step_cases hs
  rcases hcases with rfl | ⟨i, s1, hh, hf, hexec⟩ | ⟨w, e, hh, hg, he, rfl⟩ | ⟨e, hh, hg, he, rfl⟩
  · exact advance_keeps owned_micro s h
  · obtain ⟨h1, hh1, hc1⟩ := owned_fetched h hh hf
    obtain ⟨g, d, n, hg, hrun⟩ := exec_cases i s1
    rw [hrun] at hexec
    cases hexec
    exact runDown_keeps owned_micro d n _ (owned_entered h1 hh1 hc1 hg)
  · obtain ⟨h1, hh1, hc1⟩ := owned_fetched h hh (.port e hg he)
    exact owned_raise h1 hh1 hc1 _ _
  · obtain ⟨c, k, hg⟩ := hg
    obtain ⟨h1, hh1, hc1⟩ := owned_fetched h hh (.entry c k e hg he)
    exact owned_raise h1 hh1 hc1 _ _

end Sys2Proof.Machine
end

section
/-! The agents of the machine, move by move (43_completion_signal.md, 60_exceptions.md): pending bits, handlers and their return,
the edge detector, and the host's ports. -/

namespace Sys2Proof.Machine

/-! ### Pending bits -/

/-- A micro-operation leaves the pending bits alone. -/
theorem opStep_pending (op : MicroOp) (v : Byte) (s : State) (x : Source) :
    (opStep op v s).s.pending x = s.pending x := by
  cases op with
  | burstRead n b => cases n <;> rfl
  | burstWrite n => cases n with
    | zero => rfl
    | succ n => simp only [opStep]; split <;> rfl
  | walk => simp only [opStep, walkStep]; split <;> rfl
  | dataPhase rw a d => cases x <;> simp [opStep, State.pending]
  | chipReset => cases x <;> simp [opStep, State.pending]
  | _ => rfl

/-- So does a step of a context. -/
theorem contextStep_pending (s : State) (x : Source) : (contextStep s).pending x = s.pending x := by
  have hstep := contextStep_cases s
  generalize contextStep s = t at hstep ⊢
  cases hstep with
  | still => rfl
  | woke c k _ _ _ => rfl
  | ended c _ _ => rfl
  | fgOp c op k _ _ _ => exact opStep_pending op s.fgVal s x
  | handlerOp op k _ _ => exact opStep_pending op s.hVal s x
  | back _ => rfl
  | console _ => rfl

/-- Entry to a handler clears the pending bit of its own source alone (R207). -/
theorem enterHandler_pending (x y : Source) (s : State) :
    (enterHandler y s).pending x = (s.pending x && x != y) := by
  cases x <;> simp only [State.pending, enterHandler_pcPending, enterHandler_tickPending, enterHandler_conPending] <;>
    cases y <;> rfl

/-- A set pending bit stays under every move but the RRC reset and the acceptance of its own source. -/
theorem applyMove_keeps_pending {m : Move} {s : State} {x : Source} (hr : m ≠ .host .reset) (h : s.pending x = true) :
    (applyMove m s).pending x = true ∨ (m = .enter x ∧ accepts x s = true) := by
  cases m with
  | run => exact .inl ((contextStep_pending s x).trans h)
  | enter y =>
    simp only [applyMove]
    by_cases hacc : accepts y s = true
    · rw [if_pos hacc, enterHandler_pending, h]
      by_cases hxy : x = y
      · exact .inr ⟨by rw [hxy], by rw [hxy]; exact hacc⟩
      · exact .inl (by simp [hxy])
    · rw [if_neg hacc]
      exact .inl h
  | exchange => exact .inl (by simp only [applyMove]; split <;> cases x <;> simpa [State.pending] using h)
  | detect => exact .inl (by cases x <;> simp_all [applyMove, State.pending])
  | pin i b => exact .inl (by simp only [applyMove, pinMove]; split <;> exact h)
  | rxDone p => exact .inl (by simp only [applyMove, rxDoneEvent]; split <;> cases x <;> simpa [State.pending] using h)
  | txDone => exact .inl (by simp only [applyMove, txDoneEvent]; split <;> cases x <;> simpa [State.pending] using h)
  | tick =>
    refine .inl ?_
    cases x with
    | tick => rfl
    | _ => exact h
  | con =>
    refine .inl ?_
    cases x with
    | console => rfl
    | _ => exact h
  | settle => exact .inl h
  | host op =>
    cases op with
    | reset => exact absurd rfl hr
    | present w => exact .inl (by simp only [applyMove, hostAct]; split <;> exact h)
    | _ => exact .inl h

/-- Settles O41: of the moves without a reset only the entry to a handler clears a pending bit, and only that of its own
source. -/
theorem pendingBitsKept : Obligations.PendingBitsKept := by
  intro s t x hno hm hpending
  obtain ⟨m, e, hm', rfl, -, -⟩ := noReset_move hno hm
  rcases applyMove_keeps_pending (s := { s with env := e }) hm' hpending with hkept | ⟨rfl, hacc⟩
  · exact .inl hkept
  · obtain ⟨hien, hh, -, hcs⟩ := accepts_iff.mp hacc
    have henter : applyMove (.enter x) { s with env := e } = enterHandler x { s with env := e } := if_pos hacc
    exact .inr ⟨hien, hh, hcs, by rw [henter, enterHandler_inHandler], by rw [henter, enterHandler_ien]⟩

/-! ### The return of a handler -/

/-- What the move that ends a handler leaves (R209, R212). -/
def State.afterReturn (s : State) : State :=
  { s with
    inHandler := .noHandler, ien := s.savedIen, woken := true
    st := { s.st with conReady := s.st.conReady || decide (s.inHandler = .inCon) } }

/-- A step of a handler leaves the foreground's control state alone, and ends the handler only by its return. -/
theorem contextStep_handler {s : State} (h : s.inHandler ≠ .noHandler) :
    (contextStep s).fg = s.fg ∧ ((contextStep s).inHandler = .noHandler → contextStep s = s.afterReturn) := by
  have hstep := contextStep_cases s
  generalize contextStep s = t at hstep ⊢
  cases hstep with
  | still => exact ⟨rfl, fun h' => absurd h' h⟩
  | woke c k hh _ _ => exact absurd hh h
  | ended c hh _ => exact absurd hh h
  | fgOp c op k hh _ _ => exact absurd hh h
  | handlerOp op k _ _ =>
    obtain ⟨-, hfg, -⟩ := op_fg op s.hVal s
    exact ⟨hfg, fun h' => by cases h'⟩
  | back hh =>
    have hcon : s.inHandler ≠ .inCon := by rcases hh with hh | hh <;> simp [hh]
    exact ⟨rfl, fun _ => by simp [State.afterReturn, hcon, returnFromHandler]⟩
  | console hh => exact ⟨rfl, fun _ => by simp [State.afterReturn, hh, returnFromHandler]⟩

/-- While a handler runs, no move but the RRC reset touches the foreground's control state, and only the handler's own step ends
it. -/
theorem applyMove_handler {m : Move} {s : State} (hr : m ≠ .host .reset) (h : s.inHandler ≠ .noHandler) :
    (applyMove m s).fg = s.fg ∧ ((applyMove m s).inHandler = .noHandler → applyMove m s = s.afterReturn) := by
  have hother : ∀ {t : State}, t.fg = s.fg → t.inHandler = s.inHandler →
      t.fg = s.fg ∧ (t.inHandler = .noHandler → t = s.afterReturn) :=
    fun h1 h2 => ⟨h1, fun h' => absurd (h2.symm.trans h') h⟩
  cases m with
  | run => exact contextStep_handler h
  | enter y =>
    have hrefused : ¬ accepts y s = true := fun hacc => h (accepts_iff.mp hacc).2.1
    rw [show applyMove (.enter y) s = s from if_neg hrefused]
    exact hother rfl rfl
  | exchange => simp only [applyMove]; split <;> exact hother (by simp) (by simp)
  | detect => exact hother (by simp [applyMove]) (by simp [applyMove])
  | pin i b => simp only [applyMove, pinMove]; split <;> exact hother rfl rfl
  | rxDone p => simp only [applyMove, rxDoneEvent]; split <;> exact hother (by simp) (by simp)
  | txDone => simp only [applyMove, txDoneEvent]; split <;> exact hother (by simp) (by simp)
  | tick => exact hother rfl rfl
  | con => exact hother rfl rfl
  | settle => exact hother rfl rfl
  | host op =>
    cases op with
    | reset => exact absurd rfl hr
    | present w => simp only [applyMove, hostAct]; split <;> exact hother rfl rfl
    | _ => exact hother rfl rfl

/-- Settles O43: the foreground does not move while a handler runs, and the handler's last move is its return. -/
theorem handlerReturn : Obligations.HandlerReturn := by
  intro s t hno hm hh
  obtain ⟨m, e, hm', rfl, -, -⟩ := noReset_move hno hm
  obtain ⟨hfg, hret⟩ := applyMove_handler (s := { s with env := e }) hm' hh
  refine ⟨hfg, fun hended => ?_⟩
  rw [move_env]
  exact hret hended

/-! ### The short handlers -/

/-- One move of the machine, then the others. -/
theorem advanceN_succ {n : Nat} {s t : State} (hm : micro s = some t) : advanceN (n + 1) s = advanceN n t := by
  simp only [advanceN, advance, hm, Option.getD_some]

/-- Settles O44: the interrupt is taken; the tick and the console handler return in their first move, the pin-change handler after
its test of the variant. -/
theorem shortHandlers : Obligations.ShortHandlers := by
  intro s x he hp hx hf hpick hvariant
  obtain ⟨hien, hh, -, hcs⟩ := accepts_iff.mp (pickSource_accepts hpick)
  have henter := micro_enter he hp hcs hh hf hpick
  have hstep : ∀ t : State, t.env = [] → t.pins = t.pinLatch → t.cs = false → handlerEnabled t = true →
      micro t = some (handlerStep t) := fun t h1 h2 h3 h4 => micro_handler h1 h2 (by simp [canExchange, h3]) h4
  have hret := hstep (enterHandler x s) (by simp [he]) (by simp [hp]) (by simp [hcs])
  have hafter : ∀ u : State, u = s.afterWake x → advanceN 0 u = s.afterWake x := fun u hu => hu
  cases x with
  | tick =>
    rw [if_neg (by decide), advanceN_succ henter, advanceN_succ (hret (by simp [handlerEnabled, handlerOf]))]
    apply hafter
    simp [handlerStep, handlerOf, enterHandler_eq, returnFromHandler, State.afterWake, hh, hien, source_beq]
  | console =>
    rw [if_neg (by decide), advanceN_succ henter, advanceN_succ (hret (by simp [handlerEnabled, handlerOf]))]
    apply hafter
    simp [handlerStep, handlerOf, enterHandler_eq, returnFromHandler, State.afterWake, hh, hien]
  | pinChange =>
    have hbody : handlerStep (enterHandler .pinChange s) = { enterHandler .pinChange s with inHandler := .inPc [] } := by
      simp [handlerStep, handlerOf, opStep, hvariant rfl]
    have hend := hstep { enterHandler .pinChange s with inHandler := .inPc [] } (by simp [he]) (by simp [hp])
      (by simp [hcs]) (by simp [handlerEnabled])
    rw [if_pos rfl, advanceN_succ henter, advanceN_succ (hret (by simp [handlerEnabled, handlerOf, opEnabled])), hbody,
      advanceN_succ hend]
    apply hafter
    simp [handlerStep, enterHandler_eq, returnFromHandler, State.afterWake, hh, hien, source_beq]

/-! ### The edge detector and the host's ports -/

/-- The detector's step sets the latch, and the pending bit if a level differs (R160). -/
theorem detectEdge_eq (s : State) : detectEdge s =
    { s with pinLatch := s.pins, pcPending := if s.pins = s.pinLatch then s.pcPending else true } := by
  unfold detectEdge
  split_ifs with h
  · exact congrArg (fun p => { s with pinLatch := p }) h.symm
  · rfl

/-- Settles O45: scheduled or the default policy's, the move is the detector's step. -/
theorem edgeDetected : Obligations.EdgeDetected := by
  refine fun s rest => ⟨congrArg some (detectEdge_eq { s with env := rest }), fun he hp => ?_⟩
  have hauto : autoMove s = some .detect := if_pos hp
  simp only [micro, he, hauto, Option.map_some, applyMove, detectEdge_eq s, if_neg hp]

/-- Every bit of the status (R20). -/
theorem status_getLsbD (s : State) (i : Fin 8) : s.status.getLsbD i =
    [s.busy, s.st.conReady, s.st.verMismatch, s.st.errIllegal, s.st.errTable, s.st.errMode, s.st.errSeq, s.asleep][i] := by
  unfold State.status
  generalize s.busy = b0, s.st.conReady = b1, s.st.verMismatch = b2, s.st.errIllegal = b3, s.st.errTable = b4,
    s.st.errMode = b5, s.st.errSeq = b6, s.asleep = b7
  revert i b0 b1 b2 b3 b4 b5 b6 b7
  decide

/-- The machine is busy exactly while it is not ready (R20). -/
theorem busy_eq (s : State) : s.busy = decide (s.fg ≠ .ready) := by
  unfold State.busy
  split <;> simp [*]

/-- Settles O46: each port's move is its update, and the status carries its bits in their places. -/
theorem hostPorts : Obligations.HostPorts := by
  intro s b
  refine ⟨rfl, ?busy, status_getLsbD s 1, status_getLsbD s 2, status_getLsbD s 3, status_getLsbD s 4,
    status_getLsbD s 5, status_getLsbD s 6, status_getLsbD s 7, ?result, rfl, rfl, rfl⟩
  case busy => rw [← busy_eq]; exact status_getLsbD s 0
  case result => rw [List.drop_one]; rfl

/-- A command is not accepted by a busy machine (R79). -/
theorem runCommand_busy {s : State} (h : s.fg ≠ .ready) (c : Instr) (ops : List MicroOp) : runCommand c ops s = s := by
  unfold runCommand
  split
  · exact absurd ‹s.fg = .ready› h
  · rfl
  · rfl

/-- Settles O47: a busy machine accepts neither a word at its port nor a command. -/
theorem busyPortRefuses : Obligations.BusyPortRefuses := by
  intro s w h
  refine ⟨if_neg fun hfree => ?word, fun i hi => ?command⟩
  case word =>
    rw [busy_eq] at hfree
    simp [h] at hfree
  case command =>
    cases i with
    | rdf a => exact absurd (by simp [Instr.mnemonic]) hi
    | wrf a d => exact absurd (by simp [Instr.mnemonic]) hi
    | ent a v => exact absurd (by simp [Instr.mnemonic]) hi
    | endTable => exact absurd (by simp [Instr.mnemonic]) hi
    | _ => exact congrArg Host.Outcome.next (runCommand_busy h _ _)

end Sys2Proof.Machine
end

section
/-! The commands of the register access layer and of the sequencer (40_register_access.md, 41_config_sequencer.md), and `MODE` with
any place of the modulation bit (42_mode_state_machine.md): what each leaves of an undisturbed machine. -/

namespace Sys2Proof.Machine

/-! ### Register access -/

/-- `UPD` reads in five moves, forms the byte in one, and writes in five (R104). -/
theorem goes_upd (c : Instr) (s : State) (a : Addr) (k n : Byte) :
    Goes c [.readFrame a, .updWrite a k n] s ((s.afterRead a).afterWrite a (updValue (s.frameByte 0) k n)) 11 :=
  .read a (.op (op := .updWrite a k n) (new := [.writeFrame a (updValue (s.frameByte 0) k n)]) (t := s.afterRead a) rfl
    (fun _ => rfl) id (.write _ _ (.nil _ _)))

/-- Settles O12: the run of the two operations of `UPD`. -/
theorem updateCommand : Obligations.UpdateCommand := fun s a k n hu hready =>
  congrArg Host.Outcome.next ((goes_upd (.upd a k n) s a k n).command hu hready ((afterWrite_fg ..).trans hready)
    (by decide))

/-- Settles O13: the loop of `BRD` runs to its end, and each turn delivers and logs the byte of its frame. -/
theorem burstRead : Obligations.BurstRead := by
  intro s n hu hready
  obtain ⟨hfg, hres, hlog⟩ := brd_facts n.toNat s
  have hmoves : 7 * n.toNat + 1 ≤ 262144 := by
    have := n.isLt
    omega
  refine ⟨congrArg Host.Outcome.next ((goes_brd (.brd n) n.toNat s).command hu hready (hfg.trans hready) hmoves), hres,
    hlog, ?zero⟩
  case zero =>
    rintro rfl
    rfl

/-- Settles O14: with the bytes at the port the loop of `BWR` runs to its end. -/
theorem burstWrite : Obligations.BurstWrite := by
  intro s n hu hready hdat
  obtain ⟨hfg, hfacts⟩ := bwr_facts n.toNat s hdat
  obtain ⟨m, hm, hgoes⟩ := goes_bwr (.bwr n) n.toNat 0 s hdat
  have hend : Goes (.bwr n) [.burstWrite 0] (s.afterBurstWrite n.toNat) (s.afterBurstWrite n.toNat) 1 :=
    .op (op := .burstWrite 0) (new := []) (t := s.afterBurstWrite n.toNat) rfl (fun _ => rfl) id (.nil _ _)
  have hmoves : 1 + m ≤ 262144 := by
    have := n.isLt
    omega
  exact ⟨congrArg Host.Outcome.next ((hgoes [] _ _ hend).command hu hready (hfg.trans hready) hmoves), hfacts⟩

/-- A free machine at a burst write without data can move only to a handler (R106, R206). -/
theorem micro_burstWrite_empty {s : State} {c : Instr} {n : Nat} {k : List MicroOp} (hf : s.Free)
    (hg : s.fg = .run c (.burstWrite (n + 1) :: k)) (hd : s.dat = []) (hpick : pickSource s = none) :
    micro s = none := by
  have hfg : fgEnabled s = false := by simp [fgEnabled, hf.noHandler, hg, opEnabled, hd]
  have hhandler : handlerEnabled s = false := by simp [handlerEnabled, hf.noHandler]
  have hx : canExchange s = false := by simp [canExchange, hf.noFrame]
  simp [micro, hf.noMoves, autoMove, hf.pinsSeen, hx, hfg, hhandler, hpick]

/-- One byte at the data port lets it move. -/
theorem micro_burstWrite_supplied {s : State} {c : Instr} {n : Nat} {k : List MicroOp} {b : Byte} (hf : s.Free)
    (hg : s.fg = .run c (.burstWrite (n + 1) :: k)) (hd : s.dat = [b]) : micro s ≠ none := by
  rw [micro_fg hf.noMoves hf.noHandler hf.pinsSeen (by simp [canExchange, hf.noFrame])
    (by simp [fgEnabled, hf.noHandler, hg, opEnabled, hd])]
  exact Option.some_ne_none _

/-- A burst write leaves what decides which source is served as it is. -/
theorem afterWrite_pick (s : State) (a : Addr) (d : Byte) (h : s.cs = false) :
    pickSource (s.afterWrite a d) = pickSource s := by
  have hraw : pickSource (s.afterWriteRaw a d) = pickSource s := by
    simp only [pickSource, accepts, State.afterWriteRaw, State.afterFrames, h]
    rfl
  unfold State.afterWrite
  split_ifs
  · exact hraw
  · exact hraw

theorem afterBurstWrite_pick (n : Nat) (s : State) (h : s.cs = false) :
    pickSource (s.afterBurstWrite n) = pickSource s := by
  induction n generalizing s with
  | zero => rfl
  | succ n ih =>
    unfold State.afterBurstWrite
    split
    · rfl
    · rename_i b bs _
      obtain ⟨-, hcs, -⟩ := afterWrite_same s s.cfg.regFifo b
      exact (ih { s.afterWrite s.cfg.regFifo b with dat := bs } hcs).trans (afterWrite_pick s _ b h)

/-- The data port plays no part in a write frame. -/
theorem afterWrite_withDat (s : State) (bs : List Byte) (a : Addr) (d : Byte) :
    State.afterWrite { s with dat := bs } a d = { s.afterWrite a d with dat := bs } := by
  by_cases h : a = s.cfg.regOpmode
  · simp only [State.afterWrite, if_pos h]; rfl
  · simp only [State.afterWrite, if_neg h]; rfl

/-- One turn of the loop of `BWR` takes the front byte and writes it, in six moves (R106). -/
theorem runDown_burstWrite_turn {d n r : Nat} {s : State} {c : Instr} {k : List MicroOp} {b : Byte} {bs : List Byte}
    (hu : s.Undisturbed) (hdat : s.dat = b :: bs) (hd : d ≤ k.length + 1) :
    runDown d (n + 6) { s with fg := .run c (.burstWrite (r + 1) :: k) } =
      runDown d n { s.afterWrite s.cfg.regFifo b with dat := bs, fg := .run c (.burstWrite r :: k) } := by
  have hturn : opStep (.burstWrite (r + 1)) s.fgVal { s with fg := .run c (.burstWrite (r + 1) :: k) } =
      ⟨{ s with dat := bs, fg := .run c (.burstWrite (r + 1) :: k) }, s.fgVal,
        .push [.writeFrame s.cfg.regFifo b, .burstWrite r]⟩ := by simp only [opStep, hdat]
  have hu' : State.Undisturbed { s with dat := bs } := hu.congr rfl hu.noFrame rfl rfl rfl rfl
  rw [show n + 6 = n + 5 + 1 from rfl,
    runDown_op (hu.withFg _).toFree rfl (by omega) (by simp [opEnabled, hdat]) hturn]
  obtain ⟨-, hwrite⟩ := goes_wr c { s with dat := bs } s.cfg.regFifo b hu'
  rw [afterWrite_withDat] at hwrite
  exact hwrite d n (.burstWrite r :: k) (by simp; omega)

/-- The loop of `BWR` through the bytes that are there, six moves a byte, stands at what is left of it (R106). -/
theorem runDown_burstWrite {d r : Nat} {c : Instr} {k : List MicroOp} (hd : d ≤ k.length + 1) (j : Nat) {s : State}
    (hu : s.Undisturbed) (hj : j ≤ s.dat.length) : (s.afterBurstWrite j).Undisturbed ∧ ∀ n,
    runDown d (n + 6 * j) { s with fg := .run c (.burstWrite (j + r) :: k) } =
      runDown d n { s.afterBurstWrite j with fg := .run c (.burstWrite r :: k) } := by
  induction j generalizing s with
  | zero => exact ⟨hu, fun n => by rw [Nat.zero_add]; rfl⟩
  | succ j ih =>
    obtain ⟨b, bs, hdat⟩ : ∃ b bs, s.dat = b :: bs := List.exists_cons_of_length_pos (by omega)
    have hw := hu.afterWrite s.cfg.regFifo b
    have hafter : s.afterBurstWrite (j + 1) = State.afterBurstWrite j { s.afterWrite s.cfg.regFifo b with dat := bs } := by
      simp only [State.afterBurstWrite, hdat]
    obtain ⟨hu', hrun⟩ := ih (s := { s.afterWrite s.cfg.regFifo b with dat := bs })
      (hw.congr rfl hw.noFrame rfl rfl rfl rfl) (by simpa [hdat] using hj)
    refine ⟨hafter ▸ hu', fun n => ?_⟩
    rw [show n + 6 * (j + 1) = n + 6 * j + 6 by ring, show j + 1 + r = j + r + 1 by ring,
      runDown_burstWrite_turn hu hdat hd, hafter, ← hrun n]

/-- Settles O15: the loop of `BWR` goes through the bytes that are there, and then neither the foreground nor a handler can
move. -/
theorem burstWriteHolds : Obligations.BurstWriteHolds := by
  intro s n hu hready hdat hpick
  obtain ⟨r, hr⟩ : ∃ r, n.toNat - s.dat.length = r + 1 := ⟨n.toNat - s.dat.length - 1, by omega⟩
  obtain ⟨-, hdrop, -⟩ := bwr_facts s.dat.length s le_rfl
  obtain ⟨hu', hrun⟩ := runDown_burstWrite (d := 0) (r := r + 1) (c := .bwr n) (k := []) (by simp) s.dat.length hu le_rfl
  have hpick' := (afterBurstWrite_pick s.dat.length s hu.noFrame).trans hpick
  rw [hr]
  generalize s.afterBurstWrite s.dat.length = u at hdrop hu' hrun hpick' ⊢
  have hfree : State.Free { u with fg := .run (.bwr n) [.burstWrite (r + 1)] } := (hu'.withFg _).toFree
  have hheld : micro { u with fg := .run (.bwr n) [.burstWrite (r + 1)] } = none :=
    micro_burstWrite_empty hfree rfl (by simpa using hdrop) hpick'
  have hbudget : moveBudget s = moveBudget s - 6 * s.dat.length + 6 * s.dat.length := by
    have := n.isLt
    unfold moveBudget
    omega
  refine ⟨congrArg Host.Outcome.next ?run, hfree.noFrame, hheld, fun b => ?supplied⟩
  case run =>
    simp only [runCommand, hready, Fg.resume]
    rw [hbudget, show n.toNat = s.dat.length + (r + 1) by omega, hrun, runDown_held hheld]
  case supplied => exact micro_burstWrite_supplied (hfree.congr rfl hfree.noFrame rfl rfl rfl rfl) rfl rfl

/-! ### Bus frames and table entries as instructions -/

/-- Settles O16: either frame is the whole work of its instruction, in a ready machine and in front of a command's rest. -/
theorem busFrames : Obligations.BusFrames := by
  intro s a d hu
  have hread : ∀ c, Goes c [.readFrame a] s (s.afterRead a) 5 := fun c => .read a (.nil _ _)
  refine ⟨fun hready => ⟨congrArg Host.Outcome.next ?readAlone, congrArg Host.Outcome.next ?writeAlone⟩,
    fun c k hg => ⟨congrArg Host.Outcome.next ((hread c).inner hu hg (by decide)),
      congrArg Host.Outcome.next ((goes_wr c s a d).inner hu hg (by decide))⟩⟩
  case readAlone =>
    rw [runInner_ready _ _ hready]
    exact (hread _).command hu hready hready (by decide)
  case writeAlone =>
    rw [runInner_ready _ _ hready]
    exact (goes_wr _ s a d).command hu hready ((afterWrite_fg ..).trans hready) (by decide)

/-- Settles O19: an entry is its frame and the advance of the pointer, after which the walk stands where it stood; the sentinel
takes the walk away. -/
theorem tableEntriesAsInstructions : Obligations.TableEntries := by
  intro s a v hu
  have hfg := afterWrite_fg s a v
  refine ⟨fun hready => congrArg Host.Outcome.next ?alone,
    fun c k hg => ⟨congrArg Host.Outcome.next ?inWalk, ?endsWalk⟩, fun hready => ?noWalk⟩
  case alone =>
    rw [runInner_ready _ _ hready]
    exact (goes_entryOps _ s a v).command hu hready (hfg.trans hready) (by decide)
  case inWalk =>
    rw [(goes_entryOps c s a v).inner hu hg (by decide)]
    exact State.withFg_self (s := { s.afterWrite a v with tp := s.tp + 2 }) (hfg.trans hg)
  case endsWalk => simp only [exec, execEndTable, hg]
  case noWalk => simp only [exec, execEndTable, hready]

/-! ### The configuration sequencer -/

/-- Settles O17: a whole table is a walk over its entries to the sentinel. -/
theorem configurationWalk : Obligations.ConfigurationWalk := by
  intro s p es hu hready hes hend hlength
  obtain ⟨hfg, -, -, htp, hlog⟩ := entries_facts es { s with tp := p }
  have hmoves : 0 + 1 + 7 * es.length + 1 ≤ 262144 := by
    rw [entryPositions] at hlength
    omega
  exact ⟨congrArg Host.Outcome.next ((goes_table s p es hes hend).command hu hready (hfg.trans hready) hmoves), htp, hlog⟩

/-- `RSTP` is one move of a free machine (R123). -/
theorem exec_rstp_free {s : State} (hf : s.Free) (hready : s.fg = .ready) : exec .rstp s = .next (pulseChipReset s) := by
  refine congrArg Host.Outcome.next (runCommand_eq_of_runDown (m := 1) hready (by simpa using hready) (by decide) fun n => ?_)
  have hop : opStep .chipReset s.fgVal { s with fg := .run .rstp [.chipReset] } =
      ⟨{ pulseChipReset s with fg := .run .rstp [.chipReset] }, s.fgVal, .push []⟩ := by
    simp only [opStep, pulseChipReset, resetChip]
    cases s.cfg.target <;> rfl
  rw [runDown_op (op := .chipReset) (s := { s with fg := Fg.resume .rstp [.chipReset] }) (hf.withFg _) rfl (by simp) rfl hop]
  rw [← pulseChipReset_fgVal s]
  rfl

/-- Settles O20: the one move of `RSTP` is the pulse, whose fields the statement writes out for either chip. -/
theorem chipResetPulse : Obligations.ChipResetPulse := by
  intro s hf hready
  rw [exec_rstp_free hf hready]
  refine ⟨fun ht => ?any, fun ht => ?reference⟩
  case any => simp only [pulseChipReset, resetChip, ht]
  case reference => simp only [pulseChipReset, resetChip, ht]; rfl

/-! ### `INIT` -/

/-- The pulse is one move, on the normative chip (R123). -/
theorem goes_pulse {s : State} (ht : s.cfg.target = .anyAnswer) (c : Instr) : Goes c [.chipReset] s s.afterPulse 1 :=
  .op (op := .chipReset) (new := []) (t := s.afterPulse) rfl
    (fun _ => by simp only [opStep, pulseChipReset, resetChip, ht]; rfl)
    (fun hu => hu.congr rfl hu.noFrame rfl rfl rfl rfl) (.nil _ _)

/-- The write of the variant is one move (R126). -/
theorem goes_setVariant (c : Instr) (s : State) (v : Variant) :
    Goes c [.setVariant v] s { s with variant := some v } 1 :=
  .op (op := .setVariant v) (new := []) (t := { s with variant := some v }) rfl (fun _ => rfl)
    (fun hu => hu.congr rfl hu.noFrame rfl rfl rfl rfl) (.nil _ _)

/-- What `INIT v` with the table at `p` leaves of an undisturbed machine (R126). -/
def State.afterInit (s : State) (v : Variant) (p : TabAddr) (es : List (Addr × Byte)) : State :=
  State.afterEntries es { s.afterPulse.afterVerrd with variant := some v, tp := p }

/-- `INIT` is the pulse, the version readback, the variant, and the walk of its table (R126). -/
theorem goes_init {s : State} (ht : s.cfg.target = .anyAnswer) (c : Instr) (v : Variant) {p : TabAddr}
    {es : List (Addr × Byte)} (hes : EntriesAt s.tab p es) (hend : Memory.tabByte s.tab (tableEnd p es) = sentinelByte) :
    Goes c (initOps s.cfg v p) s (s.afterInit v p es) (0 + 1 + 7 * es.length + 1 + 1 + 7 + 1) :=
  (goes_pulse ht c).append ((goes_verrd c s.afterPulse).append ((goes_setVariant c s.afterPulse.afterVerrd v).append
    (goes_table { s.afterPulse.afterVerrd with variant := some v } p es hes hend)))

/-- `INIT` ends in a ready machine. -/
theorem afterInit_fg (s : State) (v : Variant) (p : TabAddr) (es : List (Addr × Byte)) :
    (s.afterInit v p es).fg = s.fg := by
  obtain ⟨hfg, -⟩ := entries_facts es { s.afterPulse.afterVerrd with variant := some v, tp := p }
  exact hfg

/-- `INIT` of either variant completes in one execution (R126). -/
theorem runCommand_init {s : State} {es : List (Addr × Byte)} (hu : s.Undisturbed) (hready : s.fg = .ready)
    (hlength : es.length < entryPositions) (c : Instr) (v : Variant) {p : TabAddr} (hes : EntriesAt s.tab p es)
    (hend : Memory.tabByte s.tab (tableEnd p es) = sentinelByte) :
    runCommand c (initOps s.cfg v p) s = s.afterInit v p es := by
  rw [entryPositions] at hlength
  exact (goes_init hu.anyAnswer c v hes hend).command hu hready ((afterInit_fg ..).trans hready) (by omega)

/-- Settles O23: for either variant the run of `INIT` with its own table. -/
theorem initForVariant : Obligations.InitForVariant := fun _ _ hu hready hlength =>
  ⟨fun hes hend => congrArg Host.Outcome.next (runCommand_init hu hready hlength _ _ hes hend),
    fun hes hend => congrArg Host.Outcome.next (runCommand_init hu hready hlength _ _ hes hend)⟩

/-! ### Well-formed tables -/

/-- What the decoder reads as a legal entry: the sentinel, or the encoding of an entry (R74, R75). -/
theorem decodeEntry_ok {w : Half} {i : Instr} (h : decodeEntry w = .ok i) :
    (i = .endTable ∧ w.extractLsb' 8 8 = sentinelByte) ∨
    ∃ a v, i = .ent a v ∧ w = entryWord (addrByte false a) v := by
  have h' := h
  unfold decodeEntry at h
  split_ifs at h with hsentinel hbit
  · cases h
    exact .inl ⟨rfl, hsentinel⟩
  · cases h
    have hencode := encode_of_decodeEntry h' (by simp)
    exact .inr ⟨_, _, rfl, (Encoded.entry.inj hencode).symm⟩

/-- The entries of a table that ends in time stand in the table space, with the sentinel after them (R128 (a)). -/
theorem tableEntries_eq_some {tab : Memory} {n : Nat} {p : TabAddr} {es : List (Addr × Byte)}
    (h : tableEntries tab n p = some es) :
    EntriesAt tab p es ∧ Memory.tabByte tab (tableEnd p es) = sentinelByte ∧ es.length < n := by
  induction n generalizing p es with
  | zero => cases h
  | succ n ih =>
    unfold tableEntries at h
    split at h
    · rename_i a v hdecode
      obtain ⟨rest, hrest, rfl⟩ := Option.map_eq_some_iff.mp h
      obtain ⟨hes, hend, hlength⟩ := ih hrest
      have hentry : Memory.tabEntry tab p = entryWord (addrByte false a) v := by
        obtain ⟨hi, -⟩ | ⟨a', v', hi, hw⟩ := decodeEntry_ok hdecode <;> cases hi
        exact hw
      exact ⟨entriesAt_cons.mpr ⟨hentry, hes⟩, tableEnd_cons p _ rest ▸ hend, by simpa using hlength⟩
    · rename_i i hother hdecode
      cases h
      obtain ⟨-, hsentinel⟩ | ⟨a, v, rfl, -⟩ := decodeEntry_ok hdecode
      · exact ⟨fun i hi => absurd hi (by simp), by simpa [tableEnd] using (entryWord_high _ _).symm.trans hsentinel, by simp⟩
      · exact absurd rfl (hother a v)
    · cases h

/-- A write frame leaves the variant alone, and without the mode-control register all the tracker keeps. -/
theorem afterWrite_variant (s : State) (a : Addr) (d : Byte) : (s.afterWrite a d).variant = s.variant := by
  unfold State.afterWrite
  split <;> rfl

/-- An entry that raises no fault (R128 (c)): status and fault record stay, the walk goes on clean, and a write of a mode's code
to the mode-control register enters that mode. -/
theorem clean_entry {s : State} {a : Addr} {v : Byte} {es : List (Addr × Byte)}
    (h : tracksClean s.cfg s.mode s.lora ((a, v) :: es) = true) :
    (s.afterWrite a v).st = s.st ∧ (s.afterWrite a v).errInfo = s.errInfo ∧
    tracksClean s.cfg (s.afterWrite a v).mode (s.afterWrite a v).lora es = true ∧
    (∀ m, a = s.cfg.regOpmode → modeOf s.cfg (modeField v) = some m → (s.afterWrite a v).mode = m) := by
  rw [tracksClean] at h
  split_ifs at h with ha
  · subst ha
    simp only [Bool.and_eq_true, Bool.not_eq_true'] at h
    obtain ⟨⟨⟨hmode, hbit⟩, hedge⟩, hrest⟩ := h
    rw [afterWrite_regOpmode_st, afterWrite_regOpmode_errInfo, afterWrite_regOpmode_mode, afterWrite_regOpmode_lora,
      trackFaults_st, trackFaults_info, hmode, hbit, hedge]
    refine ⟨by simp [State.errRecord], by simp [State.errRecord], hrest, fun m _ hm => ?_⟩
    rw [track_of_defined hm]
  · simp only [State.afterWrite, if_neg ha]
    exact ⟨rfl, rfl, h, fun m ha' => absurd ha' ha⟩

/-- A clean walk leaves status, fault record and variant, and ends in the mode its last entry writes (R128 (b), (c)). -/
theorem clean_entries {s : State} (hwf : s.cfg.wf = true) {m : Mode} {es : List (Addr × Byte)}
    (hclean : tracksClean s.cfg s.mode s.lora es = true) :
    (State.afterEntries es s).st = s.st ∧ (State.afterEntries es s).errInfo = s.errInfo ∧
    (State.afterEntries es s).variant = s.variant ∧
    (endsInMode s.cfg m es = true → (State.afterEntries es s).mode = m) := by
  induction es generalizing s with
  | nil => exact ⟨rfl, rfl, rfl, fun h => by cases h⟩
  | cons e es ih =>
    obtain ⟨a, v⟩ := e
    obtain ⟨hst, hinfo, hrest, hmode⟩ := clean_entry hclean
    obtain ⟨-, -, -, -, hcfg, -⟩ := afterWrite_same s a v
    obtain ⟨ihst, ihinfo, ihvariant, ihmode⟩ := ih (s := { s.afterWrite a v with tp := s.tp + 2 })
      (by rw [hcfg]; exact hwf) (by rw [hcfg]; exact hrest)
    refine ⟨ihst.trans hst, ihinfo.trans hinfo, ihvariant.trans (afterWrite_variant s a v), fun hends => ?_⟩
    cases es with
    | nil =>
      simp only [endsInMode, List.getLast?_singleton, Bool.and_eq_true, decide_eq_true_eq] at hends
      obtain ⟨hreg, hcode⟩ := hends
      exact hmode m hreg ((modeOf_eq_some_iff hwf).mpr hcode.symm)
    | cons e' es => exact ihmode (by rw [hcfg]; simpa [endsInMode, List.getLast?_cons_cons] using hends)

/-- `INIT` with a well-formed table for a mode reaches it, adds no fault, and leaves the fault record (R126, R128). -/
theorem init_reaches {s : State} (hu : s.Undisturbed) (hready : s.fg = .ready) (hwf : s.cfg.wf = true) (c : Instr)
    (v : Variant) {p : TabAddr} {m : Mode} (htable : tableWf s.cfg s.tab p m = true) :
    ∃ t, runCommand c (initOps s.cfg v p) s = t ∧ t.fg = .ready ∧ t.mode = m ∧ t.variant = some v ∧
      t.errInfo = s.errInfo ∧ { t.st with verMismatch := false } = { s.st with verMismatch := false } := by
  unfold tableWf at htable
  split at htable
  · rename_i es hes
    obtain ⟨hends, hclean⟩ := Bool.and_eq_true_iff.mp htable
    obtain ⟨hat, hend, hlength⟩ := tableEntries_eq_some hes
    obtain ⟨hst, hinfo, hvariant, hmode⟩ := clean_entries (m := m)
      (s := { s.afterPulse.afterVerrd with variant := some v, tp := p }) hwf hclean
    refine ⟨s.afterInit v p es, runCommand_init hu hready hlength c v hat hend, (afterInit_fg ..).trans hready,
      hmode hends, hvariant, hinfo, ?_⟩
    rw [State.afterInit, hst]
    rfl
  · cases htable

/-- Settles O24: either variant's table is walked clean from Sleep, where the pulse leaves the tracker. -/
theorem initReachesItsMode : Obligations.InitReachesItsMode := by
  intro s hu hready hwf
  refine ⟨fun htable => ?receiver, fun htable => ?transmitter⟩
  case receiver =>
    obtain ⟨t, hrun, hfacts⟩ := init_reaches hu hready hwf .initReceiver .receiver htable
    exact ⟨t, congrArg Host.Outcome.next hrun, hfacts⟩
  case transmitter =>
    obtain ⟨t, hrun, hfacts⟩ := init_reaches hu hready hwf .initTransmitter .transmitter htable
    exact ⟨t, congrArg Host.Outcome.next hrun, hfacts⟩

/-! ### The byte of `MODE`, wherever the modulation bit is -/

/-- In an allowed configuration the modulation bit is outside the mode field (log entry 7). -/
theorem loraBit_of_wf {c : Config} (h : c.wf = true) : 3 ≤ c.loraBit.val := by
  simp only [Config.wf, Bool.and_eq_true] at h
  obtain ⟨hbit, -⟩ := h
  exact of_decide_eq_true hbit

theorem bit_withBit (v : Byte) (i : Fin 8) (b : Bool) : bit (withBit v i b) i = b := by
  simp [bit, withBit]

/-- A bit outside the mode field plays no part in it. -/
theorem modeField_withBit (v : Byte) {i : Fin 8} (h : 3 ≤ i.val) (b : Bool) : modeField (withBit v i b) = modeField v := by
  ext j hj
  have hji : j < i.val := by omega
  have hj8 : j < 8 := by omega
  simp [modeField, withBit, hji, hj8]

/-- The mode field of the byte of `MODE m` is the code of `m` (R140). -/
theorem modeField_opmodeByte {c : Config} (h : 3 ≤ c.loraBit.val) (lora : Bool) (m : Mode) :
    modeField (opmodeByte c lora m) = codeOf c m := by
  rw [opmodeByte, modeField_withBit _ h]
  ext j hj
  have hj8 : j < 8 := by omega
  have hjb : j ≤ c.loraBit.val := by omega
  simp [modeField, midBits, hj, hj8, hjb]

/-- Settles O26: the byte of `MODE` carries the modulation bit in its place and the code below it, so the tracker takes the
mode and keeps the bit. -/
theorem modeCommandAnyLoraBit : Obligations.ModeCommandAnyLoraBit := by
  intro s m hu hready hwf
  have hfield := modeField_opmodeByte (loraBit_of_wf hwf) s.lora m
  have hbit : bit (opmodeByte s.cfg s.lora m) s.cfg.loraBit = s.lora := bit_withBit ..
  refine ⟨_, hbit, hfield, exec_mode_undisturbed hu hready m, ?_⟩
  rw [afterWrite_regOpmode_mode, afterWrite_regOpmode_lora, track_of_defined ((modeOf_eq_some_iff hwf).mpr hfield.symm),
    hbit]
  exact ⟨rfl, ite_self _⟩

/-- Settles O27: sixteen pairs, each by evaluation. -/
theorem edgesOutsideGraph : Obligations.EdgesOutsideGraph := by
  intro m m'
  cases m <;> cases m' <;> decide

end Sys2Proof.Machine
end

section
/-! Sleeping and waking (44_power_scheduler.md, 43_completion_signal.md section 4): `IDLE`, `PAUSE` and `TXWAIT`, from the
sleep to what ends it. -/

namespace Sys2Proof.Machine

/-! ### Going to sleep -/

/-- A ready machine runs a command's operations (R79). -/
theorem runCommand_ready {s : State} (h : s.fg = .ready) (c : Instr) (ops : List MicroOp) :
    runCommand c ops s = runDown 0 (moveBudget s) { s with fg := Fg.resume c ops } := by
  simp only [runCommand, h]

/-- A command whose operations bring the machine to a hold in `u` leaves `u` (R217). -/
theorem runCommand_eq_of_held {c : Instr} {ops : List MicroOp} {s u : State} {m : Nat} (hfg : s.fg = .ready)
    (hheld : micro u = none) (hm : m ≤ 262144)
    (h : ∀ n, runDown 0 (n + m) { s with fg := Fg.resume c ops } = runDown 0 n u) : runCommand c ops s = u := by
  have hbudget : moveBudget s = moveBudget s - m + m := by unfold moveBudget; omega
  rw [runCommand_ready hfg, hbudget, h, runDown_held hheld]

/-- With nothing scheduled from outside, the default policy moves: the schedule is empty or waits for it to be done. -/
def State.Settling (s : State) : Prop := s.env = [] ∨ ∃ rest, s.env = .settle :: rest

theorem micro_auto {s : State} {m : Move} (he : s.Settling) (hm : autoMove s = some m) :
    micro s = some (applyMove m s) := by
  rcases he with he | ⟨rest, he⟩ <;> simp only [micro, he, hm, Option.map_some]

/-- A foreground that can step steps, with nothing scheduled from outside. -/
theorem micro_fg_settling {s : State} (he : s.Settling) (hh : s.inHandler = .noHandler) (hp : s.pins = s.pinLatch)
    (hx : canExchange s = false) (hf : fgEnabled s = true) : micro s = some (fgStep s) := by
  have hauto : autoMove s = some .run := by simp [autoMove, hp, hx, hf]
  have hhandler : handlerEnabled s = false := by simp [handlerEnabled, hh]
  rw [micro_auto he hauto]
  simp only [applyMove, contextStep, hhandler, hf, Bool.false_eq_true, if_false, if_true]

/-- `SLEEP` clears the wake bit and stops the foreground in one move (R180). -/
theorem runDown_sleep {d n : Nat} {s : State} {c : Instr} {k : List MicroOp} (hf : s.Free) (hd : d < k.length + 2) :
    runDown d (n + 1) { s with fg := .run c (.sleep :: k) } =
      runDown d n { s with woken := false, fg := .asleep c k } := by
  have hmove := micro_fg (s := { s with fg := .run c (.sleep :: k) }) hf.noMoves hf.noHandler hf.pinsSeen
    (by simp [canExchange, hf.noFrame]) (by simp [fgEnabled, hf.noHandler, opEnabled])
  exact runDown_step (s := { s with fg := .run c (.sleep :: k) }) (by simp [State.depth]; omega) hmove

/-- A running handler that can step steps, with nothing scheduled from outside. -/
theorem micro_handler_settling {s : State} (he : s.Settling) (hp : s.pins = s.pinLatch) (hx : canExchange s = false)
    (hh : handlerEnabled s = true) : micro s = some (handlerStep s) := by
  have hauto : autoMove s = some .run := by simp [autoMove, hp, hx, hh]
  rw [micro_auto he hauto]
  simp only [applyMove, contextStep, hh, if_true]

/-- While the foreground sleeps the default policy can only take an interrupt (R180). -/
theorem autoMove_asleep {s : State} {c : Instr} {k : List MicroOp} (hp : s.pins = s.pinLatch) (hc : s.cs = false)
    (hh : s.inHandler = .noHandler) (hg : s.fg = .asleep c k) (hw : s.woken = false) :
    autoMove s = (pickSource s).map Move.enter := by
  have hfg : fgEnabled s = false := by simp [fgEnabled, hh, hg, hw]
  have hhandler : handlerEnabled s = false := by simp [handlerEnabled, hh]
  have hx : canExchange s = false := by simp [canExchange, hc]
  simp [autoMove, hp, hx, hfg, hhandler]

/-- With no interrupt to take, nothing moves (R180, R182). -/
theorem micro_asleep {s : State} {c : Instr} {k : List MicroOp} (hf : s.Free) (hg : s.fg = .asleep c k)
    (hw : s.woken = false) (hpick : pickSource s = none) : micro s = none := by
  simp only [micro, hf.noMoves, autoMove_asleep hf.pinsSeen hf.noFrame hf.noHandler hg hw, hpick, Option.map_none]

/-- So the next step leaves such a machine as it is. -/
theorem step_asleep {s : State} {c : Instr} {k : List MicroOp} (hwf : s.cfg.wf = true) (hg : s.fg = .asleep c k)
    (hm : micro s = none) : step s = .next s := by
  obtain ⟨hstep, -, -, -⟩ := stepMovesOtherwise
  have hnow : fetchNow s = .nothing := fetchNow_eq_nothing.mpr (.inr (.inr (.inl (by simp [State.asleep, hg]))))
  have hfetch : fetch s = .nothing := by
    unfold fetch
    split_ifs
    · exact hnow
    · rfl
  exact (hstep s hwf hfetch).2 hm

/-- With interrupts off no interrupt is to take (R206). -/
theorem pickSource_masked {s : State} (h : s.ien = false) : pickSource s = none := by
  simp [pickSource, accepts, h]

/-- Settles O31: the first moves of each command reach its sleep, which with interrupts off nothing ends. -/
theorem sleepWithInterruptsOff : Obligations.SleepWithInterruptsOff := by
  intro s i hf hready hien hwf hi
  have hend : ∀ (t : State) (k : List MicroOp), t.Free → t.cfg = s.cfg → t.fg = .asleep i k → t.woken = false →
      t.ien = false → t.busLog = s.busLog → t.pcPending = s.pcPending → t.tickPending = s.tickPending →
      t.conPending = s.conPending → (micro t = none → exec i s = .next t) →
      ∃ t k, exec i s = .next t ∧ t.fg = .asleep i k ∧ step t = .next t ∧ t.busLog = s.busLog ∧
        t.pcPending = s.pcPending ∧ t.tickPending = s.tickPending ∧ t.conPending = s.conPending :=
    fun t k htf hcfg hg hw hien hlog hpc htick hcon hexec =>
      have hm := micro_asleep htf hg hw (pickSource_masked hien)
      ⟨t, k, hexec hm, hg, step_asleep (hcfg ▸ hwf) hg hm, hlog, hpc, htick, hcon⟩
  rcases hi with rfl | rfl | ⟨c, hc, rfl⟩
  · refine hend { s with woken := false, fg := .asleep .idle [] } [] (hf.congr rfl hf.noFrame rfl rfl rfl rfl)
      rfl rfl rfl hien rfl rfl rfl rfl fun hm => congrArg Host.Outcome.next ?_
    exact runCommand_eq_of_held hready hm (m := 1) (by decide) fun n => runDown_sleep hf (by simp)
  · have hstart : State.Free { s with sink := s.sink ++ [.status .txStart] } :=
      hf.congr rfl hf.noFrame rfl rfl rfl rfl
    refine hend { s with sink := s.sink ++ [.status .txStart], woken := false, fg := .asleep .txwait [.txCheck] } _
      (hf.congr rfl hf.noFrame rfl rfl rfl rfl) rfl rfl rfl hien rfl rfl rfl rfl
      fun hm => congrArg Host.Outcome.next ?_
    refine runCommand_eq_of_held hready hm (m := 2) (by decide) fun n => ?_
    exact (runDown_op (n := n + 1) (op := .emit (.status .txStart)) (hf.withFg _) rfl (by simp) rfl rfl).trans
      (runDown_sleep (s := { s with sink := s.sink ++ [.status .txStart] }) hstart (by simp))
  · have hcount : State.Free { s with pauseCnt := c } := hf.congr rfl hf.noFrame rfl rfl rfl rfl
    refine hend { s with pauseCnt := c, woken := false, fg := .asleep (.pause c) [.pauseDec, .pauseLoop] } _
      (hf.congr rfl hf.noFrame rfl rfl rfl rfl) rfl rfl rfl hien rfl rfl rfl rfl
      fun hm => congrArg Host.Outcome.next ?_
    refine runCommand_eq_of_held hready hm (m := 3) (by decide) fun n => ?_
    refine (runDown_op (n := n + 2) (op := .setPause c) (hf.withFg _) rfl (by simp) rfl rfl).trans ?_
    refine (runDown_op (n := n + 1) (op := .pauseLoop) (ops := [.sleep, .pauseDec, .pauseLoop])
      (t := { s with pauseCnt := c, fg := .run (.pause c) [.pauseLoop] }) (v := s.fgVal) (hcount.withFg _) rfl (by simp) rfl
      (by simp only [opStep, hc, if_false])).trans ?_
    exact runDown_sleep (s := { s with pauseCnt := c }) hcount (by simp)

/-! ### Woken by a handler without bus use -/

/-- The wake bit and the control state play no part in which wake is a quiet one. -/
theorem State.QuietWake.asleep {s : State} {x : Source} (h : s.QuietWake x) (g : Fg) :
    State.QuietWake { s with woken := false, fg := g } x := h

/-- A sleep that a handler without bus use ends takes at most six moves (R180, R209). -/
theorem runDown_sleep_wake {d : Nat} {s : State} {x : Source} {c : Instr} {k : List MicroOp} (hf : s.Free)
    (hq : s.QuietWake x) (hd : d < k.length + 1) :
    ∃ m ≤ 6, ∀ n, runDown d (n + m) { s with fg := .run c (.sleep :: k) } =
      runDown d n { s.afterWake x with fg := Fg.resume c k } := by
  obtain ⟨m, hm, hwake⟩ := wake_runs (s := { s with woken := false, fg := .asleep c k }) hf.noMoves hf.pinsSeen
    hf.noFrame hf.noHandler rfl rfl (hq.asleep _) hd
  refine ⟨m + 1, by omega, fun n => ?_⟩
  rw [← Nat.add_assoc, runDown_sleep hf (by omega), hwake]
  rfl

/-- What a quiet wake leaves free. -/
theorem State.Free.afterWake {s : State} (h : s.Free) (x : Source) : (s.afterWake x).Free :=
  h.congr rfl h.noFrame rfl rfl rfl rfl

theorem State.Undisturbed.afterWake {s : State} (h : s.Undisturbed) (x : Source) : (s.afterWake x).Undisturbed :=
  h.congr rfl h.noFrame rfl rfl rfl rfl

/-- `IDLE` woken by a handler without bus use (R181). -/
theorem exec_idle_quiet {s : State} {x : Source} (hf : s.Free) (hready : s.fg = .ready) (hq : s.QuietWake x) :
    exec .idle s = .next (s.afterWake x) := by
  obtain ⟨m, hm, hrun⟩ := runDown_sleep_wake (d := 0) (c := .idle) (k := []) hf hq (by simp)
  exact congrArg Host.Outcome.next (runCommand_eq_of_runDown hready hready (by omega) hrun)

/-! ### `PAUSE` -/

/-- The machine in `PAUSE c` with `j` ticks to come and `j` wakes to go, at the test of the counter. -/
def State.pausing (s : State) (c : BitVec 16) (j : Nat) (woken savedIen : Bool) : State :=
  { s with
    env := ticks j, pauseCnt := BitVec.ofNat 16 j, woken := woken, savedIen := savedIen
    fg := .run (.pause c) [.pauseLoop] }

theorem ticks_settling (s : State) (j : Nat) (h : s.env = ticks j) : s.Settling := by
  cases j with
  | zero => exact .inl h
  | succ j => exact .inr ⟨_, h⟩

/-- With only the timer's bit pending the default policy serves the timer (R205, R206). -/
theorem pickSource_tick {s : State} (hien : s.ien = true) (hh : s.inHandler = .noHandler) (hc : s.cs = false)
    (hpc : s.pcPending = false) (hcon : s.conPending = false) (ht : s.tickPending = true) :
    pickSource s = some .tick := by
  have haccepts : ∀ x, accepts x s = true ↔ x = .tick := fun x => by
    rw [accepts_iff]
    cases x <;> simp [State.pending, hien, hh, hc, hpc, hcon, ht]
  cases hpick : pickSource s with
  | none =>
    have hnone := List.find?_eq_none.mp hpick .tick (by simp)
    exact absurd ((haccepts .tick).mpr rfl) hnone
  | some x => rw [(haccepts x).mp (pickSource_accepts hpick)]

/-- A foreground micro-operation of a paused machine that pushes `new`, with ticks still scheduled. -/
theorem runDown_op_settling {n : Nat} {s t : State} {c : Instr} {op : MicroOp} {k new : List MicroOp}
    (he : s.Settling) (hh : s.inHandler = .noHandler) (hp : s.pins = s.pinLatch) (hc : s.cs = false)
    (hg : s.fg = .run c (op :: k)) (hen : opEnabled op s = true)
    (hop : opStep op s.fgVal s = ⟨t, s.fgVal, .push new⟩) :
    runDown 0 (n + 1) s = runDown 0 n { t with fgVal := s.fgVal, fg := Fg.resume c (new ++ k) } := by
  rw [runDown_step (by simp [depth_run hg]) (micro_fg_settling he hh hp (by simp [canExchange, hc])
    (by simp [fgEnabled, hh, hg, hen]))]
  simp only [fgStep, hg, hop]

/-- The machine in `PAUSE c` asleep, with `j` ticks to come. -/
def State.paused (s : State) (c : BitVec 16) (j : Nat) (cnt : BitVec 16) (savedIen : Bool) : State :=
  { s with
    env := ticks j, pauseCnt := cnt, woken := false, savedIen := savedIen
    fg := .asleep (.pause c) [.pauseDec, .pauseLoop] }

/-- A tick ends the sleep of a paused machine: the schedule waits for nothing to move, the timer fires, its handler is entered
and returns, and the foreground goes on, in five moves (R183, R207, R209). -/
theorem runDown_tick {n : Nat} {s : State} {c cnt : BitVec 16} {j : Nat} {b : Bool} (hf : s.Free) (hien : s.ien = true)
    (hnone : s.nonePending = true) :
    runDown 0 (n + 5) (s.paused c (j + 1) cnt b) = runDown 0 n { s with
      env := ticks j, pauseCnt := cnt, woken := true, savedIen := true
      fg := .run (.pause c) [.pauseDec, .pauseLoop] } := by
  simp only [State.nonePending, Bool.and_eq_true, Bool.not_eq_true'] at hnone
  obtain ⟨⟨hpc, htick⟩, hcon⟩ := hnone
  have hasleep : ∀ t : State, t.fg = .asleep (.pause c) [.pauseDec, .pauseLoop] → 0 < t.depth :=
    fun t ht => by simp [State.depth, ht]
  have hidle : pickSource (s.paused c (j + 1) cnt b) = none := by
    refine List.find?_eq_none.mpr fun x _ hx => ?_
    obtain ⟨-, -, hpending, -⟩ := accepts_iff.mp hx
    cases x <;> simp [State.pending, State.paused, hpc, htick, hcon] at hpending
  have hsettle : micro (s.paused c (j + 1) cnt b) = some { s.paused c (j + 1) cnt b with env := .tick :: ticks j } := by
    have hauto : autoMove (s.paused c (j + 1) cnt b) = none := by
      rw [autoMove_asleep (s := s.paused c (j + 1) cnt b) hf.pinsSeen hf.noFrame hf.noHandler rfl rfl, hidle]
      rfl
    simp only [micro, hauto]
    rfl
  have hfire : micro { s.paused c (j + 1) cnt b with env := .tick :: ticks j } =
      some { s.paused c j cnt b with tickPending := true } := rfl
  have htake : pickSource { s.paused c j cnt b with tickPending := true } = some .tick :=
    pickSource_tick hien hf.noHandler hf.noFrame hpc hcon rfl
  have henter : micro { s.paused c j cnt b with tickPending := true } =
      some (enterHandler .tick { s.paused c j cnt b with tickPending := true }) := by
    have hauto : autoMove { s.paused c j cnt b with tickPending := true } = some (.enter .tick) := by
      rw [autoMove_asleep (s := { s.paused c j cnt b with tickPending := true }) hf.pinsSeen hf.noFrame hf.noHandler rfl
        rfl, htake]
      rfl
    rw [micro_auto (ticks_settling _ j rfl) hauto, applyMove, if_pos (pickSource_accepts htake)]
  have hreturn := micro_handler_settling (s := enterHandler .tick { s.paused c j cnt b with tickPending := true })
    (ticks_settling _ j rfl) hf.pinsSeen (by simp [canExchange, State.paused, hf.noFrame]) rfl
  have hwake := micro_fg_settling (s := { s.paused c j cnt b with woken := true, savedIen := true })
    (ticks_settling _ j rfl) hf.noHandler hf.pinsSeen (by simp [canExchange, State.paused, hf.noFrame])
    (by simp [fgEnabled, State.paused, hf.noHandler])
  have hreturned : handlerStep (enterHandler .tick { s.paused c j cnt b with tickPending := true }) =
      { s.paused c j cnt b with woken := true, savedIen := true } := by
    simp [handlerStep, handlerOf, enterHandler_eq, returnFromHandler, State.paused, hien, htick, hf.noHandler, source_beq]
  rw [hreturned] at hreturn
  rw [show n + 5 = n + 1 + 1 + 1 + 1 + 1 from rfl, runDown_step (hasleep _ rfl) hsettle,
    runDown_step (hasleep _ rfl) hfire, runDown_step (hasleep _ rfl) henter,
    runDown_step (hasleep _ (by simp [State.paused])) hreturn,
    runDown_step (hasleep _ rfl) hwake]
  rfl

/-- One wake cycle of `PAUSE`: from the test of a counter that is not 0, over the sleep, the tick and its handler, to the next
test, in eight moves (R183). -/
theorem runDown_pause_cycle {n : Nat} {s : State} {c : BitVec 16} {j : Nat} {w b : Bool} (hf : s.Free)
    (hien : s.ien = true) (hnone : s.nonePending = true) (hj : j + 1 < 65536) :
    runDown 0 (n + 8) (s.pausing c (j + 1) w b) = runDown 0 n (s.pausing c j true true) := by
  have hcount : BitVec.ofNat 16 (j + 1) ≠ 0 := by
    intro h
    have := congrArg BitVec.toNat h
    simp at this
    omega
  have hdec : BitVec.ofNat 16 (j + 1) - 1 = BitVec.ofNat 16 j := by
    rw [BitVec.ofNat_add]
    exact BitVec.add_sub_cancel _ _
  have hmove := micro_fg_settling (s := { s.pausing c (j + 1) w b with
      fg := .run (.pause c) [.sleep, .pauseDec, .pauseLoop] }) (ticks_settling _ (j + 1) rfl) hf.noHandler hf.pinsSeen
    (by simp [State.pausing, canExchange, hf.noFrame]) (by simp [State.pausing, fgEnabled, hf.noHandler, opEnabled])
  calc runDown 0 (n + 8) (s.pausing c (j + 1) w b)
      = runDown 0 (n + 7) { s.pausing c (j + 1) w b with fg := .run (.pause c) [.sleep, .pauseDec, .pauseLoop] } :=
        runDown_op_settling (s := s.pausing c (j + 1) w b) (t := s.pausing c (j + 1) w b) (op := .pauseLoop)
          (new := [.sleep, .pauseDec, .pauseLoop]) (ticks_settling _ (j + 1) rfl) hf.noHandler hf.pinsSeen hf.noFrame rfl
          rfl (by simp only [opStep, State.pausing, hcount, if_false])
    _ = runDown 0 (n + 6) (s.paused c (j + 1) (BitVec.ofNat 16 (j + 1)) b) := runDown_step (by simp [State.depth]) hmove
    _ = runDown 0 (n + 1) { s with
          env := ticks j, pauseCnt := BitVec.ofNat 16 (j + 1), woken := true, savedIen := true
          fg := .run (.pause c) [.pauseDec, .pauseLoop] } := runDown_tick hf hien hnone
    _ = runDown 0 n (s.pausing c j true true) := by
        rw [State.pausing, ← hdec]
        exact runDown_op_settling (s := { s with
            env := ticks j, pauseCnt := BitVec.ofNat 16 (j + 1), woken := true, savedIen := true
            fg := .run (.pause c) [.pauseDec, .pauseLoop] }) (op := .pauseDec) (ticks_settling _ j rfl)
          hf.noHandler hf.pinsSeen hf.noFrame rfl rfl rfl

/-- The loop of `PAUSE` ends after as many ticks as the counter says (R183). -/
theorem runDown_pauseLoop {s : State} {c : BitVec 16} (hf : s.Free) (hien : s.ien = true) (hnone : s.nonePending = true)
    (j : Nat) (hj : j < 65536) (n : Nat) (w b : Bool) :
    runDown 0 (n + (8 * j + 1)) (s.pausing c j w b) = runDown 0 n { s with
      pauseCnt := 0, woken := if j = 0 then w else true, savedIen := if j = 0 then b else true, fg := .ready } := by
  induction j generalizing w b with
  | zero =>
    rw [Nat.mul_zero, Nat.zero_add]
    refine (runDown_op_settling (s := s.pausing c 0 w b) (t := s.pausing c 0 w b) (new := []) (op := .pauseLoop)
      (ticks_settling _ 0 rfl) hf.noHandler hf.pinsSeen hf.noFrame rfl rfl (by simp [opStep, State.pausing])).trans ?_
    rw [State.pausing, show ticks 0 = s.env from hf.noMoves.symm]
    rfl
  | succ j ih =>
    rw [show n + (8 * (j + 1) + 1) = n + (8 * j + 1) + 8 by ring, runDown_pause_cycle hf hien hnone hj,
      ih (by omega) true true]
    simp

/-- Settles O30: the counter is set, and each tick of the schedule ends one sleep of the loop. -/
theorem pauseCountsWakes : Obligations.PauseCountsWakes := by
  intro s c hf hready hien hnone
  have hlength : ∀ j, (ticks j).length = 2 * j := fun j => by
    induction j with
    | zero => rfl
    | succ j ih => simp only [ticks, List.length_cons, ih]; ring
  have hbudget : ∃ n, moveBudget { s with env := ticks c.toNat } = n + (8 * c.toNat + 1) + 1 := by
    refine ⟨moveBudget { s with env := ticks c.toNat } - (8 * c.toNat + 1) - 1, ?_⟩
    simp only [moveBudget, hlength]
    omega
  obtain ⟨n, hn⟩ := hbudget
  have hloop := runDown_pauseLoop (c := c) hf hien hnone c.toNat c.isLt n s.woken s.savedIen
  refine congrArg Host.Outcome.next ?_
  rw [runCommand_ready (s := { s with env := ticks c.toNat }) hready, hn]
  calc runDown 0 (n + (8 * c.toNat + 1) + 1) { s with env := ticks c.toNat, fg := .run (.pause c) [.setPause c, .pauseLoop] }
      = runDown 0 (n + (8 * c.toNat + 1)) (s.pausing c c.toNat s.woken s.savedIen) := by
        rw [State.pausing, show BitVec.ofNat 16 c.toNat = c by simp]
        exact runDown_op_settling
          (s := { s with env := ticks c.toNat, fg := .run (.pause c) [.setPause c, .pauseLoop] }) (op := .setPause c)
          (ticks_settling _ _ rfl) hf.noHandler hf.pinsSeen hf.noFrame rfl rfl rfl
    _ = _ := by
        have hzero : c.toNat = 0 ↔ c = 0 := by rw [← BitVec.toNat_inj]; rfl
        rw [hloop, runDown_done (by simp [State.depth])]
        simp only [hzero, ← hready]

/-! ### `TXWAIT` -/

/-- The operations of `TXWAIT` up to its first wake, which a handler without bus use brings (R167). -/
theorem runDown_txwait_wake {s : State} {x : Source} (hf : s.Free) (hq : s.QuietWake x) :
    ∃ m ≤ 7, ∀ n, runDown 0 (n + m) { s with fg := .run .txwait [.emit (.status .txStart), .sleep, .txCheck] } =
      runDown 0 n { s.afterWake x with sink := s.sink ++ [.status .txStart], fg := .run .txwait [.txCheck] } := by
  obtain ⟨m, hm, hwake⟩ := runDown_sleep_wake (d := 0) (c := .txwait) (k := [.txCheck])
    (s := { s with sink := s.sink ++ [.status .txStart] }) (hf.congr rfl hf.noFrame rfl rfl rfl rfl) hq (by simp)
  refine ⟨m + 1, by omega, fun n => ?_⟩
  exact (runDown_op (n := n + m) (op := .emit (.status .txStart)) (hf.withFg _) rfl (by simp) rfl rfl).trans (hwake n)

/-- The test of the level, with the pin high: the flags are read, and their byte is to be tested (R163). -/
theorem goes_txCheck_high {ops : List MicroOp} {s u : State} {m : Nat} (hpin : s.pins.dio = true)
    (h : Goes .txwait (.txConfirm :: ops) (s.afterRead s.cfg.regIrqFlags) u m) :
    Goes .txwait (.txCheck :: ops) s u (m + 5 + 1) :=
  .op (op := .txCheck) (new := [.readFrame s.cfg.regIrqFlags, .txConfirm]) (t := s) (v := s.fgVal) rfl
    (fun g => by simp only [opStep, hpin, if_true]) id (.read _ h)

/-- What the end of `TXWAIT` leaves: the clear, the write of Sleep, the line (R167). -/
def State.afterTxTail (s : State) : State :=
  let a := s.afterWrite s.cfg.regIrqFlags s.cfg.clearAll
  emitEvent (.status .txDone) (a.afterWrite a.cfg.regOpmode (opmodeByte a.cfg a.lora .sleep))

/-- With the transmit-done flag set, `TXWAIT` goes through its end (R167). -/
theorem goes_txConfirm {s : State} (hbit : bit s.fgVal s.cfg.txDoneBit = true) :
    Goes .txwait [.txConfirm] s s.afterTxTail 13 :=
  .op (op := .txConfirm) (new := txTail s.cfg) (t := s) (v := s.fgVal) rfl
    (fun g => by simp only [opStep, hbit, if_true]) id
    (.write _ _ ((goes_mode .txwait _ .sleep).append (.op (op := .emit (.status .txDone)) (new := [])
      (t := State.afterTxTail s) rfl (fun _ => rfl) (fun h => h.congr rfl h.noFrame rfl rfl rfl rfl) (.nil _ _))))

/-! ### The registers and the clearing byte of an allowed configuration -/

/-- The registers that rules name are distinct (R4). -/
theorem regsDistinct_of_wf {c : Config} (h : c.wf = true) :
    [c.regFifo, c.regOpmode, c.regFifoAddrPtr, c.regFifoRxCurrent, c.regIrqFlags, c.regRxNbBytes, c.regVersion].Nodup := by
  simp only [Config.wf, Bool.and_eq_true] at h
  obtain ⟨-, -, -, hregs, -⟩ := h
  exact of_decide_eq_true hregs

theorem regIrqFlags_ne_regOpmode {c : Config} (h : c.wf = true) : c.regIrqFlags ≠ c.regOpmode := by
  have hregs := regsDistinct_of_wf h
  intro he
  simp [he] at hregs

theorem regFifoAddrPtr_ne_regOpmode {c : Config} (h : c.wf = true) : c.regFifoAddrPtr ≠ c.regOpmode := by
  have hregs := regsDistinct_of_wf h
  intro he
  simp [he] at hregs

/-- The clearing byte clears every flag (R3). -/
theorem clearAll_of_wf {c : Config} (h : c.wf = true) : c.clearAll = 0xFF := by
  simp only [Config.wf, Config.fixedValues, Bool.and_eq_true, decide_eq_true_eq] at h
  obtain ⟨-, -, -, -, -, -, ⟨-, hclear⟩, -⟩ := h
  exact hclear

/-- A write frame elsewhere than to the mode-control register does not reach the tracker. -/
theorem afterWrite_of_ne {s : State} {a : Addr} (h : a ≠ s.cfg.regOpmode) (d : Byte) :
    s.afterWrite a d = s.afterWriteRaw a d := if_neg h

theorem afterWrite_sink (s : State) (a : Addr) (d : Byte) : (s.afterWrite a d).sink = s.sink := by
  unfold State.afterWrite
  split <;> rfl

/-- A write frame elsewhere than to the flags leaves their copy (R107). -/
theorem afterWrite_irq {s : State} {a : Addr} (h : a ≠ s.cfg.regIrqFlags) (d : Byte) : (s.afterWrite a d).irq = s.irq := by
  unfold State.afterWrite
  split <;> exact if_neg h

/-- Clearing every flag leaves none in the flags copy (R19, R107). -/
theorem irqAfter_clear (irq : Byte) : irqAfter irq true 0xFF = 0x00 := BitVec.and_zero

/-- Settles O32: after the wake the flags confirm the transmission, and the rest of `TXWAIT` runs to its end. -/
theorem transmitWaitConfirmed : Obligations.TransmitWaitConfirmed := by
  intro s x hu hready hwf hq hpin hbit
  have hne := regIrqFlags_ne_regOpmode hwf
  have hclear := clearAll_of_wf hwf
  obtain ⟨m, hm, hwake⟩ := runDown_txwait_wake hu.toFree hq
  have hw : State.Undisturbed { s.afterWake x with sink := s.sink ++ [.status .txStart] } :=
    (hu.afterWake x).congr rfl hu.noFrame rfl rfl rfl rfl
  obtain ⟨-, hgo⟩ := goes_txCheck_high (ops := []) (s := { s.afterWake x with sink := s.sink ++ [.status .txStart] }) hpin
    (goes_txConfirm (s := State.afterRead { s.afterWake x with sink := s.sink ++ [.status .txStart] } s.cfg.regIrqFlags)
      hbit) hw
  intro w r a d t
  have ha : a = r.afterWriteRaw s.cfg.regIrqFlags s.cfg.clearAll := afterWrite_of_ne (s := r) hne _
  have hcfg : a.cfg = s.cfg := by rw [ha]; rfl
  have hlora : a.lora = s.lora := by rw [ha]; rfl
  have hirq : a.irq = 0x00 := by
    rw [ha, hclear]
    exact (if_pos rfl).trans (irqAfter_clear _)
  have hsink : (a.afterWrite s.cfg.regOpmode d).sink = s.sink ++ [.status .txStart] :=
    (afterWrite_sink a _ d).trans (congrArg State.sink ha)
  have htail : r.afterTxTail = t := by
    show emitEvent (.status .txDone) (a.afterWrite a.cfg.regOpmode (opmodeByte a.cfg a.lora .sleep)) = t
    rw [hcfg, hlora, emitEvent, hsink, List.append_assoc]
    rfl
  have hready' : t.fg = .ready := (afterWrite_fg a _ d).trans ((congrArg State.fg ha).trans hready)
  refine ⟨congrArg Host.Outcome.next (runCommand_eq_of_runDown (m := 13 + 5 + 1 + m) hready hready' (by omega) fun n => ?run),
    ?mode, ?irq, ?log⟩
  case run =>
    rw [← Nat.add_assoc]
    exact (hwake _).trans ((hgo 0 n [] (by simp)).trans (by rw [← htail]; rfl))
  case mode =>
    have hfield := modeField_opmodeByte (loraBit_of_wf hwf) s.lora .sleep
    have htrack := afterWrite_regOpmode_mode a d
    rw [hcfg, track_of_defined ((modeOf_eq_some_iff hwf).mpr hfield.symm)] at htrack
    exact htrack
  case irq => exact (afterWrite_irq (by rw [hcfg]; exact Ne.symm hne) d).trans hirq
  case log =>
    show (a.afterWrite s.cfg.regOpmode d).busLog = _
    rw [afterWrite_busLog, ha, ← hclear]
    simp [State.afterWriteRaw, State.afterRead, State.afterReadRaw, State.afterFrames, r, w]
    rfl

/-- `TXWAIT` woken with the pin low sleeps again (R163, R167). -/
theorem runDown_txCheck_low {n : Nat} {s : State} (hf : s.Free) (hpin : s.pins.dio = false) :
    runDown 0 (n + 2) { s with fg := .run .txwait [.txCheck] } =
      runDown 0 n { s with woken := false, fg := .asleep .txwait [.txCheck] } := by
  have hop : opStep .txCheck s.fgVal { s with fg := .run .txwait [.txCheck] } =
      ⟨{ s with fg := .run .txwait [.txCheck] }, s.fgVal, .push [.sleep, .txCheck]⟩ := by
    simp only [opStep, hpin, Bool.false_eq_true, if_false]
  exact (runDown_op (n := n + 1) (s := { s with fg := .run .txwait [.txCheck] }) (hf.withFg _) rfl (by simp) rfl hop).trans
    (runDown_sleep (s := s) hf (by simp))

/-- `TXWAIT` woken with the pin high and the flag clear reads the flags and sleeps again (R167, R168 (d)). -/
theorem runDown_txCheck_clear {n : Nat} {s : State} (hu : s.Undisturbed) (hpin : s.pins.dio = true)
    (hbit : bit (s.frameByte 0) s.cfg.txDoneBit = false) :
    runDown 0 (n + 8) { s with fg := .run .txwait [.txCheck] } =
      runDown 0 n { s.afterRead s.cfg.regIrqFlags with woken := false, fg := .asleep .txwait [.txCheck] } := by
  let r : State := s.afterRead s.cfg.regIrqFlags
  have hr : r.Undisturbed := hu.afterRead _
  have hcheck : opStep .txCheck s.fgVal { s with fg := .run .txwait [.txCheck] } =
      ⟨{ s with fg := .run .txwait [.txCheck] }, s.fgVal, .push [.readFrame s.cfg.regIrqFlags, .txConfirm]⟩ := by
    simp only [opStep, hpin, if_true]
  have hconfirm : opStep .txConfirm r.fgVal { r with fg := .run .txwait [.txConfirm] } =
      ⟨{ r with fg := .run .txwait [.txConfirm] }, r.fgVal, .push [.sleep, .txCheck]⟩ :=
    congrArg (OpResult.mk _ _ <| .push ·) (if_neg (ne_true_of_eq_false hbit))
  calc runDown 0 (n + 8) { s with fg := .run .txwait [.txCheck] }
      = runDown 0 (n + 7) { s with fg := .run .txwait [.readFrame s.cfg.regIrqFlags, .txConfirm] } :=
        runDown_op (s := { s with fg := .run .txwait [.txCheck] }) (hu.withFg _).toFree rfl (by simp) rfl hcheck
    _ = runDown 0 (n + 2) { r with fg := .run .txwait [.txConfirm] } :=
        runDown_read (s := { s with fg := .run .txwait [.readFrame s.cfg.regIrqFlags, .txConfirm] }) (hu.withFg _) rfl
          (by simp)
    _ = runDown 0 (n + 1) { r with fg := .run .txwait [.sleep, .txCheck] } :=
        runDown_op (s := { r with fg := .run .txwait [.txConfirm] }) (hr.withFg _).toFree rfl (by simp) rfl hconfirm
    _ = runDown 0 n { r with woken := false, fg := .asleep .txwait [.txCheck] } := runDown_sleep hr.toFree (by simp)

/-- A read frame leaves what decides which source is served as it is. -/
theorem pickSource_afterRead {s : State} (h : s.cs = false) (a : Addr) : pickSource (s.afterRead a) = pickSource s := by
  simp only [pickSource, accepts, State.afterRead, State.afterReadRaw, State.afterFrames, h]
  rfl

/-- Settles O33: a wake that the pin or the flag does not confirm ends at the next sleep, which nothing ends. -/
theorem transmitWaitUnconfirmed : Obligations.TransmitWaitUnconfirmed := by
  intro s x hu hready hq hpick
  obtain ⟨m, hm, hwake⟩ := runDown_txwait_wake hu.toFree hq
  let w : State := { s.afterWake x with sink := s.sink ++ [.status .txStart] }
  have hw : w.Undisturbed := (hu.afterWake x).congr rfl hu.noFrame rfl rfl rfl rfl
  have hasleep : State.Free { w with woken := false, fg := .asleep .txwait [.txCheck] } :=
    hw.toFree.congr rfl hu.noFrame rfl rfl rfl rfl
  refine ⟨fun hpin => congrArg Host.Outcome.next ?low, fun hpin hbit => congrArg Host.Outcome.next ?high⟩
  case low =>
    refine runCommand_eq_of_held hready (micro_asleep hasleep rfl rfl hpick) (m := 2 + m) (by omega) fun n => ?_
    rw [← Nat.add_assoc]
    exact (hwake _).trans (runDown_txCheck_low hw.toFree hpin)
  case high =>
    have hread : State.Free { w.afterRead s.cfg.regIrqFlags with woken := false, fg := .asleep .txwait [.txCheck] } :=
      hasleep.congr rfl rfl rfl rfl rfl rfl
    have hnone := (pickSource_afterRead hasleep.noFrame s.cfg.regIrqFlags).trans hpick
    refine runCommand_eq_of_held hready (micro_asleep hread rfl rfl hnone) (m := 8 + m) (by omega) fun n => ?_
    rw [← Nat.add_assoc]
    exact (hwake _).trans (runDown_txCheck_clear hw hpin hbit)

end Sys2Proof.Machine
end

section
/-! The receive service (43_completion_signal.md sections 2 and 3): the pin-change handler of the receiver, from its start to
its return, and the `IDLE` it ends. -/

namespace Sys2Proof.Machine

/-! ### Moves that leave the foreground alone -/

/-- The machine goes from `s` to `t` in `m` moves, in none of which the foreground's control state changes. -/
inductive Leads : State → State → Nat → Prop
  | refl (s : State) : Leads s s 0
  | step {s t u : State} {m : Nat} (hm : micro s = some t) (hfg : t.fg = s.fg) (h : Leads t u m) : Leads s u (m + 1)

theorem Leads.one {s t : State} (hm : micro s = some t) (hfg : t.fg = s.fg) : Leads s t 1 := .step hm hfg (.refl t)

theorem Leads.trans {s t u : State} {m m' : Nat} (h : Leads s t m) (h' : Leads t u m') : Leads s u (m' + m) := by
  induction h with
  | refl => exact h'
  | step hm hfg _ ih => exact .step hm hfg (ih h')

theorem Leads.fg {s t : State} {m : Nat} (h : Leads s t m) : t.fg = s.fg := by
  induction h with
  | refl => rfl
  | step _ hfg _ ih => exact ih.trans hfg

theorem Leads.advanceN {s t : State} {m : Nat} (h : Leads s t m) : advanceN m s = t := by
  induction h with
  | refl => rfl
  | step hm _ _ ih => exact (advanceN_succ hm).trans ih

/-- Such moves do not end a run of the foreground. -/
theorem Leads.runDown {s t : State} {m d n : Nat} (h : Leads s t m) (hd : d < s.depth) :
    runDown d (n + m) s = runDown d n t := by
  induction h with
  | refl => rfl
  | step hm hfg _ ih =>
    rw [← Nat.add_assoc, runDown_step hd hm]
    exact ih (by simpa only [State.depth, hfg] using hd)

/-! ### A handler at work, in pieces that compose -/

/-- What keeps a handler going: nothing scheduled, no pin change to detect, a bus that answers and is free, the normative
chip. -/
structure State.Serving (s : State) : Prop where
  noMoves   : s.env = []
  pinsSeen  : s.pins = s.pinLatch
  busAlive  : s.cfg.busAlive = true
  anyAnswer : s.cfg.target = .anyAnswer
  noFrame   : s.cs = false

theorem State.Serving.congr {s t : State} (h : s.Serving) (henv : t.env = s.env) (hpins : t.pins = s.pins)
    (hlatch : t.pinLatch = s.pinLatch) (hcfg : t.cfg = s.cfg) (hcs : t.cs = false) : t.Serving :=
  ⟨henv.trans h.noMoves, by rw [hpins, hlatch]; exact h.pinsSeen, by rw [hcfg]; exact h.busAlive,
    by rw [hcfg]; exact h.anyAnswer, hcs⟩

theorem State.Serving.canExchange {s : State} (h : s.Serving) : canExchange s = false := by
  simp [Machine.canExchange, h.noFrame]

/-- The handler's operations `ops`, whatever follows them, take a serving machine from `s` to `u` in `m` moves; the handler's
control state apart. -/
def Serves (ops : List MicroOp) (s u : State) (m : Nat) : Prop :=
  s.Serving → u.Serving ∧
    ∀ k, Leads { s with inHandler := .inPc (ops ++ k) } { u with inHandler := .inPc k } m

theorem Serves.nil (s : State) : Serves [] s s 0 := fun hs => ⟨hs, fun _ => .refl _⟩

/-- An operation that is no frame: enabled, it pushes `new` and leaves `t` with the handler's local `v`. -/
theorem Serves.op {op : MicroOp} {new ops : List MicroOp} {s t u : State} {v : Byte} {m : Nat}
    (hen : ∀ h, opEnabled op { s with inHandler := h } = true)
    (hop : ∀ h, opStep op s.hVal { s with inHandler := h } = ⟨{ t with inHandler := h }, v, .push new⟩)
    (ht : s.Serving → State.Serving { t with hVal := v }) (hfg : t.fg = s.fg)
    (h : Serves (new ++ ops) { t with hVal := v } u m) : Serves (op :: ops) s u (m + 1) := by
  intro hs
  obtain ⟨hu, hleads⟩ := h (ht hs)
  refine ⟨hu, fun k => ?_⟩
  have hmove := micro_handler (s := { s with inHandler := .inPc (op :: ops ++ k) }) hs.noMoves hs.pinsSeen
    hs.canExchange (hen _)
  refine .step hmove ?_ ?_
  · simp only [handlerStep, List.cons_append, hop, hfg]
  · have hnext : handlerStep { s with inHandler := .inPc (op :: ops ++ k) } =
        { t with hVal := v, inHandler := .inPc (new ++ ops ++ k) } := by
      simp only [handlerStep, List.cons_append, hop, List.append_assoc]
    rw [hnext]
    exact hleads k

/-- The open frame of a handler, with both its exchanges made, is about to close. -/
def State.atClose (s : State) : State :=
  { s with
    sdr := s.frameByte 0, cs := true, phase := .data, xferBusy := false, xferDone := true, chip := s.chip.select
    answers := s.answers.drop 2, freeIdx := s.freeIdx + (2 - s.answers.length) }

/-- The two exchanges of an open frame of the handler, in three moves. -/
theorem leads_exchanges {s : State} (hs : s.Serving) (rw : Bool) (a : Addr) (b : Byte) (k : List MicroOp) :
    Leads { openFrame rw a s with inHandler := .inPc (.addrPhase rw a b :: k) }
      { s.atClose with inHandler := .inPc (.dataPhase rw a b :: k) } 3 := by
  have hx : ∀ u : State, u.xferBusy = true → u.cs = true → u.cfg = s.cfg → canExchange u = true :=
    fun u h1 h2 h3 => by simp [canExchange, h1, h2, h3, hs.busAlive]
  refine .step (micro_exchange_any hs.noMoves hs.pinsSeen hs.anyAnswer (hx _ rfl rfl rfl)) rfl ?_
  refine .step (micro_handler hs.noMoves hs.pinsSeen rfl rfl) rfl ?_
  refine .one (Eq.trans (micro_exchange_any ?_ ?_ ?_ ?_) (congrArg some ?_)) rfl
  · exact hs.noMoves
  · exact hs.pinsSeen
  · exact hs.anyAnswer
  · exact hx _ rfl rfl rfl
  simp [handlerStep, opStep, startXfer, openFrame, State.atClose, State.frameByte, State.chipByte, answerByte_tail]
  omega

/-- What a read frame of the handler leaves (R102). -/
def State.afterHandlerRead (s : State) (a : Addr) : State := { s.afterReadRaw a with hVal := s.frameByte 0 }

theorem State.Serving.afterHandlerRead {s : State} (h : s.Serving) (a : Addr) : (s.afterHandlerRead a).Serving :=
  h.congr rfl rfl rfl rfl rfl

theorem State.Serving.afterWriteRaw {s : State} (h : s.Serving) (a : Addr) (d : Byte) : (s.afterWriteRaw a d).Serving :=
  h.congr rfl rfl rfl rfl rfl

/-- A frame of the handler, from its opening to its close, in five moves. -/
theorem Serves.frame {op : MicroOp} {ops : List MicroOp} {s t u : State} {m : Nat} {rw : Bool} {a : Addr} {b : Byte}
    (hopen : ∀ k, handlerStep { s with inHandler := .inPc (op :: k) } =
      { openFrame rw a s with inHandler := .inPc (.addrPhase rw a b :: k) })
    (hen : s.cs = false → ∀ k, handlerEnabled { s with inHandler := .inPc (op :: k) } = true)
    (hclose : ∀ k, handlerStep { s.atClose with inHandler := .inPc (.dataPhase rw a b :: k) } =
      { t with inHandler := .inPc k })
    (ht : s.Serving → t.Serving) (hfg : t.fg = s.fg) (h : Serves ops t u m) : Serves (op :: ops) s u (m + 5) := by
  intro hs
  obtain ⟨hu, hleads⟩ := h (ht hs)
  refine ⟨hu, fun k => ?_⟩
  have hstart := micro_handler (s := { s with inHandler := .inPc (op :: (ops ++ k)) }) hs.noMoves hs.pinsSeen
    hs.canExchange (hen hs.noFrame _)
  have hend := micro_handler (s := { s.atClose with inHandler := .inPc (.dataPhase rw a b :: (ops ++ k)) }) hs.noMoves
    hs.pinsSeen rfl rfl
  rw [hopen] at hstart
  rw [hclose] at hend
  exact .step hstart rfl ((leads_exchanges hs rw a b _).trans (.step hend hfg (hleads k)))

theorem Serves.read {ops : List MicroOp} {s u : State} {m : Nat} (a : Addr) (h : Serves ops (s.afterHandlerRead a) u m) :
    Serves (.readFrame a :: ops) s u (m + 5) :=
  .frame (rw := false) (b := s.cfg.dummy) (fun _ => rfl)
    (fun hcs k => by simp [handlerEnabled, opEnabled, hcs])
    (fun k => by simp [handlerStep, opStep, closeFrame, frameDone, State.atClose, State.afterHandlerRead,
      State.afterReadRaw, State.afterFrames, State.irqWith])
    (fun hs => hs.afterHandlerRead a) rfl h

/-- The handler writes no mode, so the tracker plays no part in its frames. -/
theorem Serves.write {ops : List MicroOp} {s u : State} {m : Nat} {a : Addr} (ha : a ≠ s.cfg.regOpmode) (b : Byte)
    (h : Serves ops (s.afterWriteRaw a b) u m) : Serves (.writeFrame a b :: ops) s u (m + 5) :=
  .frame (rw := true) (fun _ => rfl)
    (fun hcs k => by simp [handlerEnabled, opEnabled, hcs])
    (fun k => by simp [handlerStep, opStep, closeFrame, frameDone, State.atClose,
      State.afterWriteRaw, State.afterFrames, State.irqWith, ha])
    (fun hs => hs.afterWriteRaw a b) rfl h

/-- The end of the operations is the return (R209). -/
theorem Serves.return {ops : List MicroOp} {s u : State} {m : Nat} (h : Serves ops s u m) (hs : s.Serving)
    (hh : s.inHandler = .inPc ops) : Leads s (returnFromHandler u) (m + 1) := by
  obtain ⟨hu, hleads⟩ := h hs
  have hstart : s = { s with inHandler := .inPc (ops ++ []) } := by rw [List.append_nil, ← hh]
  have hreturn : micro { u with inHandler := .inPc [] } = some (returnFromHandler u) :=
    micro_handler (s := { u with inHandler := .inPc [] }) hu.noMoves hu.pinsSeen hu.canExchange rfl
  rw [hstart, Nat.add_comm]
  exact (hleads []).trans (.one hreturn rfl)

/-! ### What a handler's work leaves -/

/-- `s` with the fields in which a handler works taken from `t`. -/
def State.withWork (s t : State) : State :=
  { s with
    sdr := t.sdr, hVal := t.hVal, irq := t.irq, cs := t.cs, xferDone := t.xferDone, xferBusy := t.xferBusy
    phase := t.phase, sink := t.sink, busLog := t.busLog, chip := t.chip, answers := t.answers, freeIdx := t.freeIdx }

/-- The machine got from `s` to `t` with these frames and these events at the sink, one returned byte per frame, and with no
other field changed. -/
structure State.Worked (s t : State) (frames : List BusEvent) (events : List SinkEvent) : Prop where
  rest  : t = s.withWork t
  log   : t.busLog = s.busLog ++ frames
  sink  : t.sink = s.sink ++ events
  bytes : ∀ j, t.frameByte j = s.frameByte (frames.length + j)

theorem State.Worked.refl (s : State) : s.Worked s [] [] :=
  ⟨rfl, (List.append_nil _).symm, (List.append_nil _).symm, fun j => by rw [List.length_nil, Nat.zero_add]⟩

theorem State.Worked.trans {s t u : State} {l l' : List BusEvent} {e e' : List SinkEvent} (h : s.Worked t l e)
    (h' : t.Worked u l' e') : s.Worked u (l ++ l') (e ++ e') where
  rest := h'.rest.trans (congrArg (State.withWork · u) h.rest :)
  log := by rw [h'.log, h.log, List.append_assoc]
  sink := by rw [h'.sink, h.sink, List.append_assoc]
  bytes j := by rw [h'.bytes, h.bytes, List.length_append, Nat.add_assoc]

/-- What the handler does not work in is the same after as before. -/
theorem State.Worked.same {s t : State} {l : List BusEvent} {e : List SinkEvent} {α : Type} (h : s.Worked t l e)
    (f : State → α) (hf : f (s.withWork t) = f s) : f t = f s :=
  (congrArg f h.rest).trans hf

theorem State.Worked.cfg {s t : State} {l : List BusEvent} {e : List SinkEvent} (h : s.Worked t l e) : t.cfg = s.cfg :=
  h.same State.cfg rfl

theorem worked_read (s : State) (a : Addr) : s.Worked (s.afterHandlerRead a) [.frame false a (s.frameByte 0)] [] :=
  ⟨rfl, rfl, (List.append_nil _).symm, frameByte_afterFrames s 1⟩

theorem worked_write (s : State) (a : Addr) (d : Byte) : s.Worked (s.afterWriteRaw a d) [.frame true a d] [] :=
  ⟨rfl, rfl, (List.append_nil _).symm, frameByte_afterFrames s 1⟩

theorem worked_emit (s : State) (e : SinkEvent) : s.Worked (emitEvent e s) [] [e] :=
  ⟨rfl, (List.append_nil _).symm, rfl, fun j => by rw [List.length_nil, Nat.zero_add]; rfl⟩

/-! ### The receive service -/

/-- What the service leaves when it has drained `n` bytes of the buffer to the sink (R105, R165). -/
def State.afterDrain : Nat → State → State
  | 0, s => s
  | n + 1, s => State.afterDrain n (emitEvent (.byte (s.frameByte 0)) (s.afterHandlerRead s.cfg.regFifo))

/-- The bytes of the next `n` frames. -/
def State.nextBytes (s : State) (n : Nat) : List Byte := (List.range n).map s.frameByte

theorem worked_drain (n : Nat) (s : State) : s.Worked (s.afterDrain n) ((s.nextBytes n).map (.frame false s.cfg.regFifo ·))
    ((s.nextBytes n).map .byte) := by
  induction n generalizing s with
  | zero => exact .refl s
  | succ n ih =>
    have hfirst := (worked_read s s.cfg.regFifo).trans (worked_emit _ (.byte (s.frameByte 0)))
    have hbytes : s.nextBytes (n + 1) = s.frameByte 0 ::
        State.nextBytes (emitEvent (.byte (s.frameByte 0)) (s.afterHandlerRead s.cfg.regFifo)) n := by
      simp only [State.nextBytes, List.range_succ_eq_map, List.map_cons, List.map_map]
      refine congrArg _ (List.map_congr_left fun i _ => ?_)
      rw [hfirst.bytes, Nat.add_comm]
      rfl
    rw [hbytes]
    exact hfirst.trans (ih _)

theorem Serves.drain {ops : List MicroOp} {u : State} {m : Nat} (n : Nat) {s : State}
    (h : Serves ops (s.afterDrain n) u m) : Serves (.burstRead n true :: ops) s u (m + (7 * n + 1)) := by
  induction n generalizing s with
  | zero => exact .op (new := []) (t := s) (v := s.hVal) (fun _ => rfl) (fun _ => rfl) id rfl h
  | succ n ih =>
    exact .op (new := [.readFrame s.cfg.regFifo, .toSink, .burstRead n true]) (t := s) (v := s.hVal) (fun _ => rfl)
      (fun _ => rfl) id rfl (.read _ (.op (new := []) (v := s.frameByte 0)
        (t := emitEvent (.byte (s.frameByte 0)) (s.afterHandlerRead s.cfg.regFifo)) (fun _ => rfl) (fun _ => rfl)
        (fun hs => hs.congr rfl rfl rfl rfl hs.noFrame) rfl (ih h)))

/-- What the service leaves once the length `n` of the packet at `a` is known (R165). -/
def State.afterRxDrain (s : State) (a n : Byte) : State :=
  (emitEvent .lineEnd ((s.afterWriteRaw s.cfg.regFifoAddrPtr a).afterDrain n.toNat)).afterWriteRaw s.cfg.regIrqFlags
    s.cfg.clearAll

theorem serves_rxDrain {s : State} (hwf : s.cfg.wf = true) (a n : Byte) :
    Serves (rxDrain s.cfg a n) s (s.afterRxDrain a n) (7 * n.toNat + 12) := by
  let placed := s.afterWriteRaw s.cfg.regFifoAddrPtr a
  let drained := placed.afterDrain n.toNat
  have hcfg : drained.cfg = s.cfg := (worked_drain n.toNat placed).cfg
  have hclear : Serves [.writeFrame s.cfg.regIrqFlags s.cfg.clearAll] (emitEvent .lineEnd drained) (s.afterRxDrain a n) 5 :=
    .write (s := emitEvent .lineEnd drained)
      (fun h => regIrqFlags_ne_regOpmode hwf (h.trans (congrArg Config.regOpmode hcfg))) _ (.nil _)
  have hline : Serves [.emit .lineEnd, .writeFrame s.cfg.regIrqFlags s.cfg.clearAll] drained (s.afterRxDrain a n) 6 :=
    .op (new := []) (t := emitEvent .lineEnd drained) (v := drained.hVal) (fun _ => rfl) (fun _ => rfl)
      (fun hs => hs.congr rfl rfl rfl rfl hs.noFrame) rfl hclear
  have hdrain := Serves.drain n.toNat hline
  rw [show 7 * n.toNat + 12 = 6 + (7 * n.toNat + 1) + 5 by omega]
  exact .write (regFifoAddrPtr_ne_regOpmode hwf) a hdrain

theorem worked_rxDrain (s : State) (a n : Byte) : s.Worked (s.afterRxDrain a n)
    ([.frame true s.cfg.regFifoAddrPtr a] ++
      (State.nextBytes (s.afterWriteRaw s.cfg.regFifoAddrPtr a) n.toNat).map (.frame false s.cfg.regFifo ·) ++
      [.frame true s.cfg.regIrqFlags s.cfg.clearAll])
    ((State.nextBytes (s.afterWriteRaw s.cfg.regFifoAddrPtr a) n.toNat).map .byte ++ [.lineEnd]) := by
  have hplaced := worked_write s s.cfg.regFifoAddrPtr a
  have hdrained := hplaced.trans (worked_drain n.toNat _)
  have hall := (hdrained.trans (worked_emit _ .lineEnd)).trans (worked_write _ s.cfg.regIrqFlags s.cfg.clearAll)
  simp only [List.append_nil, List.nil_append] at hall
  exact hall

/-- The three reads of the service, one after the other: flags, current address, length (R165). -/
def State.afterFlags (s : State) : State := s.afterHandlerRead s.cfg.regIrqFlags

def State.afterStart (s : State) : State := s.afterFlags.afterHandlerRead s.cfg.regFifoRxCurrent

def State.afterCount (s : State) : State := s.afterStart.afterHandlerRead s.cfg.regRxNbBytes

theorem worked_flags (s : State) : s.Worked s.afterFlags [.frame false s.cfg.regIrqFlags (s.frameByte 0)] [] :=
  worked_read s _

theorem afterStart_hVal (s : State) : s.afterStart.hVal = s.frameByte 1 := (worked_flags s).bytes 0

theorem worked_start (s : State) : s.Worked s.afterStart
    [.frame false s.cfg.regIrqFlags (s.frameByte 0), .frame false s.cfg.regFifoRxCurrent (s.frameByte 1)] [] := by
  have h := (worked_flags s).trans (worked_read s.afterFlags s.cfg.regFifoRxCurrent)
  rw [(worked_flags s).bytes 0] at h
  exact h

theorem afterCount_hVal (s : State) : s.afterCount.hVal = s.frameByte 2 := (worked_start s).bytes 0

theorem worked_count (s : State) : s.Worked s.afterCount
    [.frame false s.cfg.regIrqFlags (s.frameByte 0), .frame false s.cfg.regFifoRxCurrent (s.frameByte 1),
      .frame false s.cfg.regRxNbBytes (s.frameByte 2)] [] := by
  have h := (worked_start s).trans (worked_read s.afterStart s.cfg.regRxNbBytes)
  rw [(worked_start s).bytes 0] at h
  exact h

/-- What the confirmed service leaves, from the read of the flags to their clear (R165). -/
def State.afterService (s : State) : State := s.afterCount.afterRxDrain (s.frameByte 1) (s.frameByte 2)

/-- The handler of the receiver with the pin high reads the flags (R163, R164). -/
theorem Serves.service {s u : State} {m : Nat} (hv : s.variant = some .receiver) (hpin : s.pins.dio = true)
    (h : Serves [.rxConfirm] (s.afterHandlerRead s.cfg.regIrqFlags) u m) : Serves [.pcBody] s u (m + 5 + 1 + 1) :=
  .op (new := [.rxCheck]) (t := s) (v := s.hVal) (fun _ => rfl) (fun _ => by simp only [opStep, hv, if_true]) id rfl
    (.op (new := [.readFrame s.cfg.regIrqFlags, .rxConfirm]) (t := s) (v := s.hVal) (fun _ => rfl)
      (fun _ => by simp only [opStep, hpin, if_true]) id rfl (.read _ h))

/-- With the pin low it does nothing (R163). -/
theorem serves_pinLow {s : State} (hv : s.variant = some .receiver) (hpin : s.pins.dio = false) : Serves [.pcBody] s s 2 :=
  .op (new := [.rxCheck]) (t := s) (v := s.hVal) (fun _ => rfl) (fun _ => by simp only [opStep, hv, if_true]) id rfl
    (.op (new := []) (t := s) (v := s.hVal) (fun _ => rfl)
      (fun _ => by simp only [opStep, hpin, Bool.false_eq_true, if_false]) id rfl (.nil s))

/-- With the flag clear it does no more (R163). -/
theorem serves_unconfirmed {s : State} (hbit : bit s.hVal s.cfg.rxDoneBit = false) : Serves [.rxConfirm] s s 1 :=
  .op (new := []) (t := s) (v := s.hVal) (fun _ => rfl)
    (fun _ => by simp only [opStep, hbit, Bool.false_eq_true, if_false]) id rfl (.nil s)

/-- With the flag set it drains one packet and clears the flags (R165). -/
theorem serves_confirmed {s : State} (hwf : s.cfg.wf = true) (hv : s.variant = some .receiver)
    (hpin : s.pins.dio = true) (hbit : bit (s.frameByte 0) s.cfg.rxDoneBit = true) :
    ∃ m ≤ 2000, Serves [.pcBody] s s.afterService m := by
  have hlength : Serves [.rxLen (s.frameByte 1)] s.afterCount s.afterService (7 * (s.frameByte 2).toNat + 12 + 1) :=
    .op (new := rxDrain s.cfg (s.frameByte 1) (s.frameByte 2)) (t := s.afterCount) (v := s.afterCount.hVal) (fun _ => rfl)
      (fun _ => by rw [afterCount_hVal]; rfl) id rfl
      (serves_rxDrain (s := s.afterCount) hwf (s.frameByte 1) (s.frameByte 2))
  have haddress : Serves [.rxAddr] s.afterStart s.afterService _ :=
    .op (new := [.readFrame s.cfg.regRxNbBytes, .rxLen (s.frameByte 1)]) (t := s.afterStart) (v := s.afterStart.hVal)
      (fun _ => rfl) (fun _ => by rw [afterStart_hVal]; rfl) id rfl
      (.read _ hlength)
  have hconfirm : Serves [.rxConfirm] s.afterFlags s.afterService _ :=
    .op (new := [.readFrame s.cfg.regFifoRxCurrent, .rxAddr]) (t := s.afterFlags) (v := s.afterFlags.hVal) (fun _ => rfl)
      (fun _ => congrArg (OpResult.mk _ _ <| .push ·) (if_pos hbit)) id rfl (.read _ haddress)
  have hcount := (s.frameByte 2).isLt
  exact ⟨_, by omega, .service hv hpin hconfirm⟩

/-- The service makes its frames in order and hands the bytes and one line end to the sink (R165). -/
theorem worked_service (s : State) : s.Worked s.afterService
    (serviceLog s.cfg (s.frameByte 0) (s.frameByte 1) (s.frameByte 2) (s.drained (s.frameByte 2).toNat))
    ((s.drained (s.frameByte 2).toNat).map .byte ++ [.lineEnd]) := by
  have hplaced := (worked_count s).trans (worked_write s.afterCount s.cfg.regFifoAddrPtr (s.frameByte 1))
  have hbytes : ∀ n, State.nextBytes (s.afterCount.afterWriteRaw s.afterCount.cfg.regFifoAddrPtr (s.frameByte 1)) n =
      s.drained n := fun n => List.map_congr_left fun i _ => hplaced.bytes i
  have h := (worked_count s).trans (worked_rxDrain s.afterCount (s.frameByte 1) (s.frameByte 2))
  rw [hbytes] at h
  exact h

/-- The last frame of the service clears the flags copy (R107, R165). -/
theorem afterRxDrain_irq {s : State} (hwf : s.cfg.wf = true) (a n : Byte) : (s.afterRxDrain a n).irq = 0x00 := by
  have hcfg := (worked_drain n.toNat (s.afterWriteRaw s.cfg.regFifoAddrPtr a)).cfg
  have hreg : s.cfg.regIrqFlags =
      (State.afterDrain n.toNat (s.afterWriteRaw s.cfg.regFifoAddrPtr a)).cfg.regIrqFlags := by rw [hcfg]; rfl
  refine (if_pos hreg).trans ?_
  rw [clearAll_of_wf hwf]
  exact irqAfter_clear _

/-- Settles O49: the confirmed service runs to its return, and leaves what its frames and events leave. -/
theorem receiveServiceDrains : Obligations.ReceiveServiceDrains := by
  intro s henv hpins halive hany hcs hbusy hwf hh hv hpin hbit
  have hs : s.Serving := ⟨henv, hpins, halive, hany, hcs⟩
  obtain ⟨m, -, hserves⟩ := serves_confirmed hwf hv hpin hbit
  have hw := worked_service s
  refine ⟨m + 1, ?_⟩
  rw [(hserves.return hs hh).advanceN]
  exact ⟨rfl, hw.same State.savedIen rfl, rfl, rfl, hw.log, hw.sink.trans (List.append_assoc ..).symm,
    afterRxDrain_irq (s := s.afterCount) hwf _ _, hw.same State.mode rfl, hw.same State.lora rfl,
    hw.same State.st rfl, hw.same State.errInfo rfl, hw.same State.res rfl, hw.same State.fg rfl,
    hw.same State.fgVal rfl, hw.same State.tp rfl⟩

/-- Settles O50: the handler ends at the test of the level, or at the test of the flag after the one frame that reads it. -/
theorem receiveServiceUnconfirmed : Obligations.ReceiveServiceUnconfirmed := by
  intro s henv hpins halive hany hcs hbusy hh hv
  have hs : s.Serving := ⟨henv, hpins, halive, hany, hcs⟩
  refine ⟨fun hpin => ?low, fun hpin hbit => ?clear⟩
  case low => exact ⟨_, ((serves_pinLow hv hpin).return hs hh).advanceN⟩
  case clear =>
    have hserves := Serves.service hv hpin (serves_unconfirmed (s := s.afterHandlerRead s.cfg.regIrqFlags) hbit)
    exact ⟨_, (hserves.return hs hh).advanceN⟩

/-! ### The receiver woken from `IDLE` -/

/-- The service of an undisturbed receiver with the pin high: what it leaves, and its frames (R163, R165). -/
theorem serves_receiver {s : State} (hwf : s.cfg.wf = true) (hv : s.variant = some .receiver) (hpin : s.pins.dio = true) :
    ∃ u m e, m ≤ 2000 ∧ Serves [.pcBody] s u m ∧ s.Worked u
      (if bit (s.frameByte 0) s.cfg.rxDoneBit = true then
        serviceLog s.cfg (s.frameByte 0) (s.frameByte 1) (s.frameByte 2) (s.drained (s.frameByte 2).toNat)
      else [.frame false s.cfg.regIrqFlags (s.frameByte 0)]) e := by
  by_cases hbit : bit (s.frameByte 0) s.cfg.rxDoneBit = true
  · obtain ⟨m, hm, hserves⟩ := serves_confirmed hwf hv hpin hbit
    rw [if_pos hbit]
    exact ⟨_, m, _, hm, hserves, worked_service s⟩
  · rw [if_neg hbit]
    exact ⟨_, _, _, by omega, .service hv hpin (serves_unconfirmed (eq_false_of_ne_true hbit)), worked_flags s⟩

theorem fgStep_asleep {s : State} {c : Instr} {k : List MicroOp} (h : s.fg = .asleep c k) :
    fgStep s = { s with fg := Fg.resume c k } := by
  simp only [fgStep, h]

/-- Settles O29: a quiet handler is its mark alone, and the receiver's runs its frames, with the foreground asleep until it
returns. -/
theorem idleWoken : Obligations.IdleWoken := by
  refine ⟨fun s x hf hready hq => exec_idle_quiet hf hready hq, fun s hu hready hwf hpick hv hpin => ?receiver⟩
  case receiver =>
    have hf := hu.toFree
    obtain ⟨hien, hh, -, hcs⟩ := accepts_iff.mp (pickSource_accepts hpick)
    let e : State := enterHandler .pinChange { s with woken := false, fg := .asleep .idle [] }
    obtain ⟨u, m, ev, hm, hserves, hw⟩ := serves_receiver (s := e) hwf hv hpin
    have he : e.Serving := ⟨hf.noMoves, hf.pinsSeen, hf.busAlive, hu.anyAnswer, hcs⟩
    have hleads := hserves.return he rfl
    have hasleep : u.fg = .asleep .idle [] := hleads.fg
    have henter : micro { s with woken := false, fg := .asleep .idle [] } = some e :=
      micro_enter hf.noMoves hf.pinsSeen hcs hh (by simp [fgEnabled, hh]) hpick
    obtain ⟨hserving, -⟩ := hserves he
    have hwake : micro (returnFromHandler u) = some { returnFromHandler u with fg := .ready } := by
      rw [micro_fg (s := returnFromHandler u) hserving.noMoves rfl hserving.pinsSeen hserving.canExchange
        (by simp [fgEnabled, hasleep])]
      exact congrArg some (fgStep_asleep (s := returnFromHandler u) hasleep)
    refine ⟨{ returnFromHandler u with fg := .ready }, congrArg Host.Outcome.next ?run, rfl, rfl,
      (hw.same State.savedIen rfl).trans hien, hw.same State.res rfl, hw.log⟩
    refine runCommand_eq_of_runDown hready rfl (m := 1 + (m + 1) + 1 + 1) (by omega) fun n => ?_
    calc runDown 0 (n + (1 + (m + 1) + 1 + 1)) { s with fg := .run .idle [.sleep] }
        = runDown 0 (n + (1 + (m + 1) + 1)) { s with woken := false, fg := .asleep .idle [] } :=
          runDown_sleep hf (by simp)
      _ = runDown 0 (n + (1 + (m + 1))) e := runDown_step (by simp [State.depth]) henter
      _ = runDown 0 (n + 1) (returnFromHandler u) := by
          rw [← Nat.add_assoc]
          exact hleads.runDown (by simp [State.depth, e])
      _ = runDown 0 n { returnFromHandler u with fg := .ready } := runDown_step (by simp [State.depth, hasleep]) hwake

end Sys2Proof.Machine
end

section
/-! A transport that never completes an exchange (20_memory.md section 4, R100): the machine is frozen inside the frame. -/

namespace Sys2Proof.Machine

theorem fetch_of_fetchNow {s : State} (h : fetchNow s = .nothing) : fetch s = .nothing := by
  unfold fetch
  split_ifs
  · exact h
  · rfl

/-- The context at work inside a frame is the handler, or the foreground while none runs. -/
theorem running_inFrame {s : State} (h : headInFrame s.running = true) :
    ∃ op k, op.inFrame = true ∧
      (s.inHandler = .inPc (op :: k) ∨ s.inHandler = .noHandler ∧ ∃ c, s.fg = .run c (op :: k)) := by
  cases hh : s.inHandler with
  | noHandler =>
    cases hg : s.fg with
    | run c k =>
      simp only [State.running, hh, hg] at h
      cases k with
      | nil => cases h
      | cons op k => exact ⟨op, k, h, .inr ⟨rfl, c, rfl⟩⟩
    | _ => simp [State.running, hh, hg, headInFrame] at h
  | inPc k =>
    simp only [State.running, hh] at h
    cases k with
    | nil => cases h
    | cons op k => exact ⟨op, k, h, .inl rfl⟩
  | _ => simp [State.running, hh, headInFrame] at h

/-- Inside a frame an operation waits for its exchange (R100), and is none that the foreground fetches. -/
theorem opEnabled_inFrame {op : MicroOp} (h : op.inFrame = true) (s : State) : opEnabled op s = s.xferDone := by
  cases op with
  | addrPhase => rfl
  | dataPhase => rfl
  | _ => cases h

theorem fetches_inFrame {op : MicroOp} (h : op.inFrame = true) : op.fetches = false := by
  cases op with
  | addrPhase => rfl
  | dataPhase => rfl
  | _ => cases h

/-- A machine whose transport never completes, with nothing to happen from outside. -/
structure State.DeadBus (s : State) : Prop where
  allowed  : s.cfg.wf = true
  busDead  : s.cfg.busAlive = false
  pinsSeen : s.pins = s.pinLatch
  noMoves  : s.env = []

theorem State.DeadBus.canExchange {s : State} (h : s.DeadBus) : canExchange s = false := by
  simp [Machine.canExchange, h.busDead]

section
variable {s : State} (hd : s.DeadBus) (hcs : s.cs = true) (hdone : s.xferDone = false)
  (hframe : headInFrame s.running = true)
include hd hcs hdone hframe

/-- Inside a frame with an exchange owed, nothing moves. -/
theorem State.DeadBus.micro_eq_none : micro s = none := by
  obtain ⟨op, k, hop, hrun⟩ := running_inFrame hframe
  have hwait : opEnabled op s = false := (opEnabled_inFrame hop s).trans hdone
  have hpick : pickSource s = none := List.find?_eq_none.mpr fun x _ hx => by simp [accepts, hcs] at hx
  have hcontext : (handlerEnabled s || fgEnabled s) = false := by
    rcases hrun with hh | ⟨hh, c, hg⟩
    · simp [handlerEnabled, fgEnabled, hh, hwait]
    · simp [handlerEnabled, fgEnabled, hh, hg, hwait]
  simp [micro, hd.noMoves, autoMove, hd.pinsSeen, hd.canExchange, hcontext, hpick]

/-- So every step leaves it as it is. -/
theorem State.DeadBus.step_eq : step s = .next s := by
  obtain ⟨op, k, hop, hrun⟩ := running_inFrame hframe
  obtain ⟨hstep, -, -, -⟩ := stepMovesOtherwise
  have hnow : fetchNow s = .nothing := fetchNow_eq_nothing.mpr <| by
    rcases hrun with hh | ⟨hh, c, hg⟩
    · exact .inl (by rw [hh]; exact Handler.noConfusion)
    · exact .inr (.inr (.inr ⟨c, _, hg, by simp [fetches_inFrame hop]⟩))
  exact (hstep s hd.allowed (fetch_of_fetchNow hnow)).2 (hd.micro_eq_none hcs hdone hframe)

end

/-! ### The way into the frame -/

/-- The state just after a frame was opened, with the contexts at `g` and `h`. -/
def State.opened (s : State) (rw : Bool) (a : Addr) (g : Fg) (h : Handler) : State :=
  { openFrame rw a s with fg := g, inHandler := h }

theorem State.DeadBus.opened {s : State} (hd : s.DeadBus) (rw : Bool) (a : Addr) (g : Fg) (h : Handler) :
    (s.opened rw a g h).DeadBus := ⟨hd.allowed, hd.busDead, hd.pinsSeen, hd.noMoves⟩

/-- The machine is frozen in a frame it just opened, with nothing done but the opening. -/
theorem frozen_opened {s : State} (hd : s.DeadBus) {rw : Bool} {a : Addr} {g : Fg} {h : Handler}
    (hframe : headInFrame (s.opened rw a g h).running = true) : s.FrozenFrom (s.opened rw a g h) where
  selected := rfl
  owed := rfl
  log := rfl
  results := rfl
  sink := rfl
  enable := rfl
  pending x := by cases x <;> rfl
  stuck := (hd.opened rw a g h).step_eq rfl rfl hframe

/-- The operation that opens a frame, and its next. -/
theorem opStep_open (rw : Bool) (a : Addr) (d v : Byte) (s : State) :
    opStep (if rw then .writeFrame a d else .readFrame a) v s =
      ⟨openFrame rw a s, v, .push [.addrPhase rw a (if rw then d else s.cfg.dummy)]⟩ := by
  cases rw <;> rfl

theorem opEnabled_open (rw : Bool) (a : Addr) (d : Byte) {s : State} (h : s.cs = false) :
    opEnabled (if rw then .writeFrame a d else .readFrame a) s = true := by
  cases rw <;> simp [opEnabled, h]

theorem headInFrame_opened_fg {s : State} (hh : s.inHandler = .noHandler) (rw : Bool) (a : Addr) (b : Byte) (c : Instr)
    (k : List MicroOp) : headInFrame (s.opened rw a (.run c (.addrPhase rw a b :: k)) s.inHandler).running = true := by
  simp [State.running, State.opened, hh, headInFrame, MicroOp.inFrame]

/-- A foreground that opens a frame gets no further. -/
theorem runDown_opened {s : State} (hd : s.DeadBus) (hcs : s.cs = false) (hh : s.inHandler = .noHandler) {e n : Nat}
    (rw : Bool) (a : Addr) (d : Byte) (c : Instr) (k : List MicroOp) (he : e < k.length + 2) (hn : n ≠ 0) :
    runDown e n { s with fg := .run c ((if rw then .writeFrame a d else .readFrame a) :: k) } =
      s.opened rw a (.run c (.addrPhase rw a (if rw then d else s.cfg.dummy) :: k)) s.inHandler := by
  obtain ⟨n, rfl⟩ := Nat.exists_eq_succ_of_ne_zero hn
  have hmove := micro_fg (s := { s with fg := .run c ((if rw then .writeFrame a d else .readFrame a) :: k) })
    hd.noMoves hh hd.pinsSeen hd.canExchange (by simp only [fgEnabled, hh]; exact opEnabled_open rw a d hcs)
  have hheld := (hd.opened rw a _ _).micro_eq_none rfl rfl
    (headInFrame_opened_fg hh rw a (if rw then d else s.cfg.dummy) c k)
  rw [runDown_step (by simp [State.depth]; omega) hmove, ← runDown_held (d := e) (n := n) hheld]
  refine congrArg _ ?_
  simp only [fgStep, opStep_open]
  rfl

theorem moveBudget_ne_zero (s : State) : moveBudget s ≠ 0 := by
  unfold moveBudget
  omega

/-- Settles O48: a frame in progress waits for an exchange that never completes, and an opened one is such a frame. -/
theorem deadBusHangs : Obligations.DeadBusHangs := by
  intro s hwf hdead hpins henv
  have hd : s.DeadBus := ⟨hwf, hdead, hpins, henv⟩
  refine ⟨hd.step_eq, fun rw a d hcs => ⟨fun hh hg => ?ready, fun c k hh hg => ?command, fun k hh => ?handler⟩⟩
  case ready =>
    let c : Instr := if rw then .wr a d else .rd a
    let k : List MicroOp := if rw then [] else [.toRes]
    have hexec : exec c s = .next (runCommand c ((if rw then .writeFrame a d else .readFrame a) :: k) s) := by
      cases rw <;> rfl
    rw [runCommand_ready hg] at hexec
    exact ⟨_, hexec.trans (congrArg Host.Outcome.next
      (runDown_opened hd hcs hh rw a d c k (Nat.succ_pos _) (moveBudget_ne_zero s))), rfl,
      frozen_opened hd (headInFrame_opened_fg hh rw a _ c k)⟩
  case command =>
    have hexec : exec (if rw then .wrf a d else .rdf a) s = .next (runDown (k.length + 1) (moveBudget s)
        { s with fg := .run c ((if rw then .writeFrame a d else .readFrame a) :: k) }) := by
      cases rw <;> exact congrArg Host.Outcome.next (by simp only [runInner, hg]; rfl)
    exact ⟨_, hexec.trans (congrArg Host.Outcome.next
      (runDown_opened hd hcs hh rw a d c k (Nat.lt_succ_self _) (moveBudget_ne_zero s))), rfl,
      frozen_opened hd (headInFrame_opened_fg hh rw a _ c k)⟩
  case handler =>
    let h : Handler := .inPc (.addrPhase rw a (if rw then d else s.cfg.dummy) :: k)
    have hnow : fetchNow s = .nothing := fetchNow_eq_nothing.mpr (.inl (by rw [hh]; exact Handler.noConfusion))
    have hmove : micro s = some (s.opened rw a s.fg h) := by
      rw [micro_handler hd.noMoves hd.pinsSeen hd.canExchange
        (by simp only [handlerEnabled, hh]; exact opEnabled_open rw a d hcs)]
      simp only [handlerStep, hh, opStep_open]
      rfl
    obtain ⟨hstep, -, -, -⟩ := stepMovesOtherwise
    have hnext := (hstep s hwf (fetch_of_fetchNow hnow)).1
    rw [advance, hmove] at hnext
    exact ⟨_, hnext, Handler.noConfusion, rfl, frozen_opened hd rfl⟩

end Sys2Proof.Machine
end

section
/-! The reference target (20_memory.md section 3.2): what a read, a write, a packet and a completed transmission do to it, and its
agreement with the tracker (42_mode_state_machine.md section 4). -/

namespace Sys2Proof.Machine

/-! ### A read -/

/-- The byte the target returns (R52, R55, R56). -/
theorem Chip.readReg_value (c : Config) (a : Addr) (x : Chip) :
    (x.readReg c a).1 =
      if a = c.regFifo then x.fifoByte (x.pointer c) else if a = c.regVersion then c.chipVersion else x.reg a := by
  unfold Chip.readReg
  split_ifs <;> rfl

theorem Chip.readReg_fifo (c : Config) (a : Addr) (x : Chip) : (x.readReg c a).2.fifo = x.fifo := by
  unfold Chip.readReg
  split_ifs <;> rfl

/-- A read changes no register but the pointer, which a read of the buffer advances (R56). -/
theorem Chip.readReg_reg {c : Config} {x : Chip} (h : Memory.wf .regs x.regs = true) (a b : Addr) :
    (x.readReg c a).2.reg b = if a = c.regFifo ∧ b = c.regFifoAddrPtr then x.pointer c + 1 else x.reg b := by
  by_cases hfifo : a = c.regFifo
  · simp only [Chip.readReg, hfifo, if_true, true_and, Chip.bumpPointer, Chip.reg_setReg h]
  · simp only [Chip.readReg, hfifo, if_false, false_and]
    split_ifs <;> rfl

/-- Settles O57: `RD` is one read frame, and the frame reads the register. -/
theorem targetRead : Obligations.TargetRead := by
  intro s a hfree hready hwf href hdio hmem
  have hs : s.OnTarget := ⟨hfree, href, hdio href⟩
  have hchip := targetFrame_read_chip a s.cfg.dummy href
  refine ⟨_, exec_rd_onTarget hs hready a, (targetFrame_fg ..).trans hready, ?buffer, ?result, fun b => ?registers⟩
  case buffer => exact (congrArg Chip.fifo hchip).trans (Chip.readReg_fifo ..)
  case result => exact congrArg (s.res ++ [·]) ((targetFrame_read_fgVal a s.cfg.dummy href).trans (Chip.readReg_value ..))
  case registers =>
    exact (congrArg (Chip.reg · b) hchip).trans (Chip.readReg_reg (x := s.chip.addressed false a) hmem.regs a b)

/-! ### A write -/

/-- The mode before a write refuses the modulation bit (R54). -/
abbrev Chip.gates (c : Config) (x : Chip) : Prop := x.modeCode c ≠ c.codeSleep ∧ x.modeCode c ≠ c.codeStandby

theorem Chip.acceptsLoraBit_eq_true_iff {c : Config} {x : Chip} : x.acceptsLoraBit c = true ↔ ¬ x.gates c := by
  simp only [Chip.acceptsLoraBit, Chip.gates, Bool.or_eq_true, beq_iff_eq]
  tauto

/-- The byte a write of `v` to the mode-control register leaves there (R53, R54). -/
theorem Chip.writeOpmode_reg {c : Config} {x : Chip} (h : Memory.wf .regs x.regs = true) (v : Byte) (b : Addr) :
    (x.writeOpmode c v).reg b =
      if b = c.regOpmode then (if x.gates c then withBit v c.loraBit (bit (x.reg c.regOpmode) c.loraBit) else v)
      else x.reg b := by
  refine (Chip.reg_setReg h).trans ?_
  simp only [Chip.acceptsLoraBit_eq_true_iff, ite_not]

/-- The registers with rules of their own that a write tells apart are distinct (R4). -/
theorem special_registers_distinct {c : Config} (h : c.wf = true) : c.regOpmode ≠ c.regFifo ∧
    c.regIrqFlags ≠ c.regFifo ∧ c.regIrqFlags ≠ c.regOpmode ∧
    c.regVersion ≠ c.regFifo ∧ c.regVersion ≠ c.regOpmode ∧ c.regVersion ≠ c.regIrqFlags := by
  have hdistinct := regsDistinct_of_wf h
  simp only [List.nodup_cons, List.mem_cons, not_or] at hdistinct
  tauto

section
variable {c : Config} {x : Chip} (hwf : c.wf = true) (a : Addr) (v : Byte)
include hwf

/-- What a write leaves in every register (R52 to R57). -/
theorem Chip.writeReg_reg (hregs : Memory.wf .regs x.regs = true) (b : Addr) :
    (x.writeReg c a v).reg b =
      if a = c.regFifo then (if b = c.regFifoAddrPtr then x.pointer c + 1 else x.reg b)
      else if b ≠ a ∨ a = c.regVersion then x.reg b
      else if a = c.regIrqFlags then x.reg a &&& ~~~v
      else if a = c.regOpmode ∧ x.gates c then withBit v c.loraBit (bit (x.reg c.regOpmode) c.loraBit)
      else v := by
  obtain ⟨hof, hif, hio, hvf, hvo, hvi⟩ := special_registers_distinct hwf
  by_cases hfifo : a = c.regFifo
  · simp only [Chip.writeReg, hfifo, if_true]
    exact Chip.reg_setReg (x := { x with fifo := Memory.write .fifo x.fifo (x.pointer c).toNat v }) hregs
  by_cases hopmode : a = c.regOpmode
  · subst hopmode
    simp only [Chip.writeReg, hof, hvo.symm, hio.symm, if_true, if_false, true_and, or_false, Chip.writeOpmode_reg hregs,
      ite_not]
  by_cases hflags : a = c.regIrqFlags
  · subst hflags
    simp only [Chip.writeReg, hif, hio, hvi.symm, if_true, if_false, or_false, Chip.reg_setReg hregs, ite_not]
  by_cases hversion : a = c.regVersion
  · subst hversion
    simp only [Chip.writeReg, hvf, hvo, hvi, if_true, if_false, or_true]
  · rw [Chip.writeReg_plain (by simp [*]), Chip.reg_setReg hregs]
    simp only [hfifo, hopmode, hflags, hversion, if_false, or_false, false_and, ite_not]

/-- Only a write that enters receive mode changes where the next packet goes (R59, log entry 15). -/
theorem Chip.writeReg_rxNext : (x.writeReg c a v).rxNext =
    if a = c.regOpmode ∧ modeField v = c.codeRxcont ∧ x.modeCode c ≠ c.codeRxcont then none else x.rxNext := by
  obtain ⟨hof, -⟩ := special_registers_distinct hwf
  by_cases hopmode : a = c.regOpmode
  · subst hopmode
    simp [Chip.writeReg, hof, Chip.writeOpmode]
  · simp only [Chip.writeReg, hopmode, false_and, if_false]
    split_ifs <;> rfl

end

/-- Only a write of `REG_FIFO` changes the buffer, at the pointer (R56). -/
theorem Chip.writeReg_fifoByte {c : Config} {x : Chip} (h : Memory.wf .fifo x.fifo = true) (a : Addr) (v q : Byte) :
    (x.writeReg c a v).fifoByte q = if a = c.regFifo ∧ q = x.pointer c then v else x.fifoByte q := by
  by_cases hfifo : a = c.regFifo
  · simp only [Chip.writeReg, hfifo, if_true, true_and]
    exact Memory.read_fifo_write h (x.pointer c) q v
  · simp only [Chip.writeReg, hfifo, false_and, if_false]
    split_ifs <;> rfl

/-- Settles O58: `WR` is one write frame, the frame writes the register, and the pin follows. -/
theorem targetWrite : Obligations.TargetWrite := by
  intro s a v hfree hready hwf href hdio hmem
  have hs : s.OnTarget := ⟨hfree, href, hdio href⟩
  have hchip := targetFrame_write_chip a v href
  refine ⟨_, exec_wr_onTarget hs hready a v, (targetFrame_fg ..).trans hready, ?pin, fun b => ?registers, fun q => ?buffer,
    ?next⟩
  case pin =>
    have hpin := (hs.targetFrame true a v).pin
    rwa [targetFrame_cfg] at hpin
  case registers =>
    exact (congrArg (Chip.reg · b) hchip).trans (Chip.writeReg_reg (x := s.chip.addressed true a) hwf a v hmem.regs b)
  case buffer =>
    exact (congrArg (Chip.fifoByte · q) hchip).trans
      (Chip.writeReg_fifoByte (x := s.chip.addressed true a) hmem.fifo a v q)
  case next =>
    exact (congrArg Chip.rxNext hchip).trans (Chip.writeReg_rxNext (x := s.chip.addressed true a) hwf a v)

/-! ### The tracker and the target -/

/-- The mode code of the target is that of the tracked mode alone (R149). -/
theorem State.Agrees.modeCode_eq_iff {s : State} (h : s.Agrees) (hwf : s.cfg.wf = true) (m : Mode) :
    s.chip.modeCode s.cfg = codeOf s.cfg m ↔ s.mode = m := by
  rw [eq_comm, ← modeOf_eq_some_iff hwf, h.mode, Option.some_inj]

/-- The target refuses the modulation bit exactly when the tracker does (R54, R143). -/
theorem State.Agrees.gates_iff {s : State} (h : s.Agrees) (hwf : s.cfg.wf = true) :
    s.chip.gates s.cfg ↔ ¬ (s.mode = .sleep ∨ s.mode = .standby) := by
  rw [Chip.gates, not_or, ← h.modeCode_eq_iff hwf .sleep, ← h.modeCode_eq_iff hwf .standby]
  rfl

section
variable {s : State} (d : Byte)

theorem targetFrame_regOpmode_mode :
    (s.targetFrame true s.cfg.regOpmode d).mode = (track s.cfg s.mode s.lora d).mode := by
  simp [State.targetFrame, State.dataDone, State.atDataByte]

theorem targetFrame_regOpmode_lora :
    (s.targetFrame true s.cfg.regOpmode d).lora = (track s.cfg s.mode s.lora d).lora := by
  simp [State.targetFrame, State.dataDone, State.atDataByte]

end

/-- A write with a defined code keeps the agreement (R149). -/
theorem State.Agrees.targetFrame {s : State} (h : s.Agrees) (hwf : s.cfg.wf = true) (href : s.cfg.target = .reference)
    (hmem : s.MemCanonical) {d : Byte} {m : Mode} (hd : codeOf s.cfg m = modeField d) :
    (s.targetFrame true s.cfg.regOpmode d).Agrees := by
  have htrack := track_of_defined ((modeOf_eq_some_iff hwf).mpr hd) s.mode s.lora
  obtain ⟨hof, -, hio, -, hvo, -⟩ := special_registers_distinct hwf
  have hreg : (s.targetFrame true s.cfg.regOpmode d).chip.reg s.cfg.regOpmode =
      if s.mode = .sleep ∨ s.mode = .standby then d
      else withBit d s.cfg.loraBit (bit (s.chip.reg s.cfg.regOpmode) s.cfg.loraBit) := by
    have hwrite := Chip.writeReg_reg (x := s.chip.addressed true s.cfg.regOpmode) hwf s.cfg.regOpmode d hmem.regs
      s.cfg.regOpmode
    rw [if_neg hof, if_neg (by simp [hvo.symm]), if_neg hio.symm] at hwrite
    refine (congrArg (Chip.reg · s.cfg.regOpmode) (targetFrame_write_chip _ d href)).trans (hwrite.trans ?_)
    rw [← ite_not]
    exact if_congr ((not_congr ((and_iff_right rfl).trans (h.gates_iff hwf))).trans not_not) rfl rfl
  constructor
  case mode =>
    rw [targetFrame_cfg, targetFrame_regOpmode_mode, htrack, Chip.modeCode, hreg, modeOf_eq_some_iff hwf, hd]
    split_ifs
    · rfl
    · rw [modeField_withBit _ (loraBit_of_wf hwf)]
  case lora =>
    rw [targetFrame_cfg, targetFrame_regOpmode_lora, htrack, hreg]
    split_ifs
    · rfl
    · rw [bit_withBit, h.lora]

/-- A pulse makes tracker and target agree, from any state (R60, R123, R149). -/
theorem agrees_pulse {s : State} (hwf : s.cfg.wf = true) (href : s.cfg.target = .reference) : (pulseChipReset s).Agrees := by
  have hchip : (pulseChipReset s).chip = Chip.reset s.cfg s.freeBuffer := by simp [pulseChipReset, resetChip, href]
  have hwf' := hwf
  simp only [Config.wf, Config.imageConstraints, Bool.and_eq_true, decide_eq_true_eq, Bool.not_eq_true'] at hwf'
  obtain ⟨-, -, -, -, ⟨⟨hmode, hlora⟩, -⟩, -⟩ := hwf'
  constructor
  case mode =>
    rw [hchip, pulseChipReset_cfg, modeOf_eq_some_iff hwf]
    exact hmode.symm
  case lora =>
    rw [hchip, pulseChipReset_cfg]
    exact hlora

/-- Settles O59: a write frame keeps the agreement, a pulse makes it. -/
theorem trackerAgreesWithTarget : Obligations.TrackerAgreesWithTarget := by
  intro s hfree hready hwf href hdio hmem
  have hs : s.OnTarget := ⟨hfree, href, hdio href⟩
  refine ⟨fun d h hd => ?write, ?pulse⟩
  case write =>
    obtain ⟨m, hd⟩ := hd
    exact ⟨_, exec_wr_onTarget hs hready _ d, h.targetFrame hwf href hmem hd⟩
  case pulse => exact ⟨_, exec_rstp_free hfree hready, agrees_pulse hwf href⟩

/-! ### A packet and a completed transmission -/

section
variable {c : Config} {x : Chip} (hwf : c.wf = true) (hregs : Memory.wf .regs x.regs = true)
include hwf hregs

/-- A packet sets its flag (R59). -/
theorem Chip.rxDone_flag (payload : List Byte) :
    bit ((x.rxDone c payload).reg c.regIrqFlags) c.rxDoneBit = true := by
  have hdistinct := regsDistinct_of_wf hwf
  simp only [List.nodup_cons, List.mem_cons, not_or] at hdistinct
  obtain ⟨-, -, -, ⟨hcurrent, -⟩, ⟨hlength, -⟩, -⟩ := hdistinct
  obtain ⟨hset, hbit⟩ := withBit_true (x.reg c.regIrqFlags) c.rxDoneBit
  rw [Chip.rxDone_reg hregs (decide_eq_true (regsDistinct_of_wf hwf)), if_neg (Ne.symm hcurrent), if_neg hlength, if_pos rfl,
    ← hset]
  exact hbit

/-- It leaves the mode (R59). -/
theorem Chip.rxDone_modeCode (payload : List Byte) : (x.rxDone c payload).modeCode c = x.modeCode c := by
  have hdistinct := regsDistinct_of_wf hwf
  simp only [List.nodup_cons, List.mem_cons, not_or] at hdistinct
  obtain ⟨-, ⟨-, hcurrent, hflags, hlength, -⟩, -⟩ := hdistinct
  rw [Chip.modeCode, Chip.rxDone_reg hregs (decide_eq_true (regsDistinct_of_wf hwf)), if_neg hcurrent, if_neg hlength,
    if_neg hflags]
  rfl

/-- A completed transmission leaves the mode (R59). -/
theorem Chip.txDone_modeCode : (x.txDone c).modeCode c = x.modeCode c := by
  obtain ⟨-, -, hio, -⟩ := special_registers_distinct hwf
  rw [Chip.modeCode, Chip.txDone_reg hregs, if_neg hio.symm]
  rfl

end

/-- A completed transmission sets its flag (R59). -/
theorem Chip.txDone_flag {c : Config} {x : Chip} (hregs : Memory.wf .regs x.regs = true) :
    bit ((x.txDone c).reg c.regIrqFlags) c.txDoneBit = true := by
  obtain ⟨hset, hbit⟩ := withBit_true (x.reg c.regIrqFlags) c.txDoneBit
  rw [Chip.txDone_reg hregs, if_pos rfl, ← hset]
  exact hbit

/-- In receive mode the pin shows the receive-done flag, in transmit mode the transmit-done flag (R58). -/
theorem Chip.dioLevel_rxcont {c : Config} {x : Chip} (h : x.modeCode c = c.codeRxcont) :
    x.dioLevel c = bit (x.reg c.regIrqFlags) c.rxDoneBit := if_pos h

theorem Chip.dioLevel_tx {c : Config} {x : Chip} (hwf : c.wf = true) (h : x.modeCode c = c.codeTx) :
    x.dioLevel c = bit (x.reg c.regIrqFlags) c.txDoneBit := by
  have hcodes := codesDistinct_of_wf hwf
  simp only [List.nodup_cons, List.mem_cons, List.not_mem_nil, not_or, or_false] at hcodes
  obtain ⟨-, -, hne, -⟩ := hcodes
  exact (if_neg (h ▸ hne)).trans (if_pos h)

/-- Settles O60: the event is enabled, its registers and buffer are the chip's, and the flag it sets is the one the pin shows. -/
theorem packetArrives : Obligations.PacketArrives := by
  intro s hwf href hmem hcs
  refine ⟨fun payload hmode hlength => ?packet, fun hmode => ?transmitted⟩
  case packet =>
    have hflag := Chip.rxDone_flag hwf hmem.regs payload
    have hpin : (s.chip.rxDone s.cfg payload).dioLevel s.cfg = true :=
      (Chip.dioLevel_rxcont ((Chip.rxDone_modeCode hwf hmem.regs payload).trans hmode)).trans hflag
    have hmove : applyMove (.rxDone payload) s =
        { s with chip := s.chip.rxDone s.cfg payload, pins := { s.pins with dio := true } } :=
      (if_pos ⟨href, hcs, hmode, hlength⟩).trans (driveDio_high href hpin)
    rw [hmove]
    exact ⟨fun i hi => Memory.read_writeFifo hmem.fifo hlength i hi, fun q hq => Memory.read_writeFifo_other hmem.fifo hq,
      fun b => Chip.rxDone_reg hmem.regs (decide_eq_true (regsDistinct_of_wf hwf)) payload b, hflag, rfl, rfl, rfl, rfl, rfl⟩
  case transmitted =>
    have hflag := Chip.txDone_flag (c := s.cfg) hmem.regs
    have hpin : (s.chip.txDone s.cfg).dioLevel s.cfg = true :=
      (Chip.dioLevel_tx hwf ((Chip.txDone_modeCode hwf hmem.regs).trans hmode)).trans hflag
    have hmove : applyMove .txDone s = { s with chip := s.chip.txDone s.cfg, pins := { s.pins with dio := true } } :=
      (if_pos ⟨href, hcs, hmode⟩).trans (driveDio_high href hpin)
    rw [hmove]
    exact ⟨fun b => Chip.txDone_reg hmem.regs b, hflag, rfl, rfl, rfl, rfl, rfl, rfl⟩

end Sys2Proof.Machine
end
